-- ==== Sys2Proof/Word.lean ====
section
/-! DEFINITION. The two word types of the core: bytes and 16-bit addresses (spec 00_scope.md R8, R10). -/

namespace Sys2Proof

/-- A byte: 8 bits, the width of the data bus and of A, X, Y and S (R8, R10). -/
abbrev Byte := BitVec 8

/-- A word: 16 bits, the width of PC and of every address (R8, R10). -/
abbrev Word := BitVec 16

end Sys2Proof
end

