-- ==== Sys2Proof/Syntax.lean ====
section
/-! DEFINITION. The instructions: the 56 operations of 30_encoding.md R82 and the invalid ("dummy") kind of R89, with
their addressing modes as operands (20_memory.md R66 to R79). A row of opcode_table.json is one constructor of
`Instr` with one mode. -/

namespace Sys2Proof

/-- The eight addressing modes that give an effective address of a data byte (R70 to R77). -/
inductive MemMode where
  /-- `nn` (R70). -/
  | zp (n : Byte)
  /-- `nn,X` (R71). -/
  | zpx (n : Byte)
  /-- `nn,Y` (R72). -/
  | zpy (n : Byte)
  /-- `nnnn` (R73). -/
  | abs (a : Word)
  /-- `nnnn,X` (R74). -/
  | absx (a : Word)
  /-- `nnnn,Y` (R75). -/
  | absy (a : Word)
  /-- `(nn,X)` (R76). -/
  | indx (n : Byte)
  /-- `(nn),Y` (R77). -/
  | indy (n : Byte)
  deriving DecidableEq, Repr

/-- The operand of an instruction that reads a byte: immediate (R69) or in memory. -/
inductive Operand where
  /-- `#nn` (R69). -/
  | imm (n : Byte)
  /-- A byte of memory. -/
  | mem (m : MemMode)
  deriving DecidableEq, Repr

/-- The operand of a shift or rotate: the accumulator (R68) or a byte of memory. -/
inductive ShiftOperand where
  /-- `A` (R68). -/
  | acc
  /-- A byte of memory. -/
  | mem (m : MemMode)
  deriving DecidableEq, Repr

/-- The operand of JMP: absolute (R73) or indirect absolute (R78). -/
inductive JumpOperand where
  /-- `nnnn` (R73). -/
  | abs (a : Word)
  /-- `(nnnn)` (R78). -/
  | ind (a : Word)
  deriving DecidableEq, Repr

/-- The instructions (R82, R89), in the order of the section files 40 to 45. A branch carries its offset byte (R79). -/
inductive Instr where
  | lda (o : Operand)
  | ldx (o : Operand)
  | ldy (o : Operand)
  | sta (m : MemMode)
  | stx (m : MemMode)
  | sty (m : MemMode)
  | tax
  | tay
  | txa
  | tya
  | tsx
  | txs
  | pha
  | php
  | pla
  | plp
  | adc (o : Operand)
  | sbc (o : Operand)
  | and (o : Operand)
  | ora (o : Operand)
  | eor (o : Operand)
  | bit (m : MemMode)
  | cmp (o : Operand)
  | cpx (o : Operand)
  | cpy (o : Operand)
  | inc (m : MemMode)
  | dec (m : MemMode)
  | inx
  | iny
  | dex
  | dey
  | asl (o : ShiftOperand)
  | lsr (o : ShiftOperand)
  | rol (o : ShiftOperand)
  | ror (o : ShiftOperand)
  | jmp (t : JumpOperand)
  | jsr (a : Word)
  | rts
  | rti
  | brk
  | bcc (d : Byte)
  | bcs (d : Byte)
  | beq (d : Byte)
  | bmi (d : Byte)
  | bne (d : Byte)
  | bpl (d : Byte)
  | bvc (d : Byte)
  | bvs (d : Byte)
  | clc
  | cld
  | cli
  | clv
  | sec
  | sed
  | sei
  | nop
  /-- The dummy kind of the opcode value `op` (R89, R151). -/
  | invalid (op : Byte)
  deriving DecidableEq, Repr

end Sys2Proof
end

