-- ==== Sys2Proof/WellFormed.lean ====
section
/-! DEFINITION. Which terms of `Instr` are instructions: the modes each operation has (30_encoding.md R88,
20_memory.md R67 to R79) and the opcode values that are invalid (R89). -/

namespace Sys2Proof

/-- The 105 invalid opcode values, as R89 lists them. -/
def invalidOpcodes : List Byte :=
  [
   0x02, 0x03, 0x04, 0x07, 0x0B, 0x0C, 0x0F, 0x12, 0x13, 0x14, 0x17, 0x1A, 0x1B, 0x1C, 0x1F,
   0x22, 0x23, 0x27, 0x2B, 0x2F, 0x32, 0x33, 0x34, 0x37, 0x3A, 0x3B, 0x3C, 0x3F, 0x42, 0x43,
   0x44, 0x47, 0x4B, 0x4F, 0x52, 0x53, 0x54, 0x57, 0x5A, 0x5B, 0x5C, 0x5F, 0x62, 0x63, 0x64,
   0x67, 0x6B, 0x6F, 0x72, 0x73, 0x74, 0x77, 0x7A, 0x7B, 0x7C, 0x7F, 0x80, 0x82, 0x83, 0x87,
   0x89, 0x8B, 0x8F, 0x92, 0x93, 0x97, 0x9B, 0x9C, 0x9E, 0x9F, 0xA3, 0xA7, 0xAB, 0xAF, 0xB2,
   0xB3, 0xB7, 0xBB, 0xBF, 0xC2, 0xC3, 0xC7, 0xCB, 0xCF, 0xD2, 0xD3, 0xD4, 0xD7, 0xDA, 0xDB,
   0xDC, 0xDF, 0xE2, 0xE3, 0xE7, 0xEB, 0xEF, 0xF2, 0xF3, 0xF4, 0xF7, 0xFA, 0xFB, 0xFC, 0xFF]

/-- The memory modes of ADC, AND, CMP, EOR, LDA, ORA, SBC and STA: all but zero page,Y (R88, R72). -/
def MemMode.isAccMode : MemMode → Bool
  | .zp _ | .zpx _ | .abs _ | .absx _ | .absy _ | .indx _ | .indy _ => true
  | .zpy _ => false

/-- The memory modes of LDY, INC, DEC, ASL, LSR, ROL and ROR (R88). -/
def MemMode.isXMode : MemMode → Bool
  | .zp _ | .zpx _ | .abs _ | .absx _ => true
  | .zpy _ | .absy _ | .indx _ | .indy _ => false

/-- The memory modes of LDX (R95). -/
def MemMode.isYMode : MemMode → Bool
  | .zp _ | .zpy _ | .abs _ | .absy _ => true
  | .zpx _ | .absx _ | .indx _ | .indy _ => false

/-- The memory modes of STX (R98). -/
def MemMode.isStxMode : MemMode → Bool
  | .zp _ | .zpy _ | .abs _ => true
  | .zpx _ | .absx _ | .absy _ | .indx _ | .indy _ => false

/-- The memory modes of STY (R99). -/
def MemMode.isStyMode : MemMode → Bool
  | .zp _ | .zpx _ | .abs _ => true
  | .zpy _ | .absx _ | .absy _ | .indx _ | .indy _ => false

/-- The memory modes of BIT, CPX and CPY (R115, R117, R118). -/
def MemMode.isPlainMode : MemMode → Bool
  | .zp _ | .abs _ => true
  | .zpx _ | .zpy _ | .absx _ | .absy _ | .indx _ | .indy _ => false

/-- An operand is well formed when it is immediate or a memory mode that `ok` accepts. -/
def Operand.has (ok : MemMode → Bool) : Operand → Bool
  | .imm _ => true
  | .mem m => ok m

/-- A shift's operand is well formed when it is the accumulator or one of its memory modes (R125 to R128). -/
def ShiftOperand.wellFormed : ShiftOperand → Bool
  | .acc => true
  | .mem m => m.isXMode

/-- Whether the term is a row of the opcode table: the operation has the mode (R88), and the operand of the dummy kind
is one of the 105 invalid values (R89). -/
def Instr.wellFormed : Instr → Bool
  | .lda o | .adc o | .sbc o | .and o | .ora o | .eor o | .cmp o => o.has MemMode.isAccMode
  | .ldx o => o.has MemMode.isYMode
  | .ldy o => o.has MemMode.isXMode
  | .cpx o | .cpy o => o.has MemMode.isPlainMode
  | .sta m => m.isAccMode
  | .stx m => m.isStxMode
  | .sty m => m.isStyMode
  | .bit m => m.isPlainMode
  | .inc m | .dec m => m.isXMode
  | .asl o | .lsr o | .rol o | .ror o => o.wellFormed
  | .jmp _ | .jsr _ | .rts | .rti | .brk => true
  | .tax | .tay | .txa | .tya | .tsx | .txs | .pha | .php | .pla | .plp => true
  | .inx | .iny | .dex | .dey => true
  | .bcc _ | .bcs _ | .beq _ | .bmi _ | .bne _ | .bpl _ | .bvc _ | .bvs _ => true
  | .clc | .cld | .cli | .clv | .sec | .sed | .sei | .nop => true
  | .invalid op => invalidOpcodes.contains op

/-- `Instr.wellFormed` as a proposition. -/
abbrev Instr.WellFormed (i : Instr) : Prop := i.wellFormed = true

end Sys2Proof
end

