-- ==== Sys2Proof/Decode.lean ====
section
/-! DEFINITION. The decoder and the encoder (30_encoding.md R80 to R91), each written from the opcode table of R88. -/

namespace Sys2Proof

/-- Why a list of bytes holds no whole instruction. No opcode value is rejected (R90). -/
inductive DecodeError where
  /-- There is no opcode byte. -/
  | noOpcode
  /-- The opcode's operand bytes are not all there (R80). -/
  | missingOperand (op : Byte)
  deriving DecidableEq, Repr

/-- How many operand bytes a memory mode has (R84). -/
def MemMode.operandBytes : MemMode → Nat
  | .zp _ | .zpx _ | .zpy _ | .indx _ | .indy _ => 1
  | .abs _ | .absx _ | .absy _ => 2

/-- How many operand bytes an operand has (R84). -/
def Operand.operandBytes : Operand → Nat
  | .imm _ => 1
  | .mem m => m.operandBytes

/-- How many operand bytes a shift's operand has (R84). -/
def ShiftOperand.operandBytes : ShiftOperand → Nat
  | .acc => 0
  | .mem m => m.operandBytes

/-- How many operand bytes an instruction has: a function of its mode (R84); none for an invalid opcode (R86). -/
def Instr.operandBytes : Instr → Nat
  | .lda o | .ldx o | .ldy o | .adc o | .sbc o | .and o | .ora o | .eor o | .cmp o | .cpx o | .cpy o => o.operandBytes
  | .sta m | .stx m | .sty m | .bit m | .inc m | .dec m => m.operandBytes
  | .asl o | .lsr o | .rol o | .ror o => o.operandBytes
  | .jmp _ | .jsr _ => 2
  | .bcc _ | .bcs _ | .beq _ | .bmi _ | .bne _ | .bpl _ | .bvc _ | .bvs _ => 1
  | .tax | .tay | .txa | .tya | .tsx | .txs | .pha | .php | .pla | .plp => 0
  | .inx | .iny | .dex | .dey | .rts | .rti | .brk => 0
  | .clc | .cld | .cli | .clv | .sec | .sed | .sei | .nop => 0
  | .invalid _ => 0

/-- `len`: 1 plus the operand byte count (R80). For an invalid opcode this is the one byte the core reads; its PC
advance is `INVALID_LEN` (R151). -/
def Instr.length (i : Instr) : Nat := 1 + i.operandBytes

/-- The instruction of the opcode byte `op` with operand bytes `b1` and `b2`, of which a row takes as many as its mode
has (R81, R85, R88); every other value is of the dummy kind (R89). A 16-bit operand is `b2 ++ b1`, little-endian (R85). -/
def decodeOp (op b1 b2 : Byte) : Instr :=
  match op with
  | 0x00#8 => .brk
  | 0x01#8 => .ora (.mem (.indx b1))
  | 0x05#8 => .ora (.mem (.zp b1))
  | 0x06#8 => .asl (.mem (.zp b1))
  | 0x08#8 => .php
  | 0x09#8 => .ora (.imm b1)
  | 0x0A#8 => .asl .acc
  | 0x0D#8 => .ora (.mem (.abs (b2 ++ b1)))
  | 0x0E#8 => .asl (.mem (.abs (b2 ++ b1)))
  | 0x10#8 => .bpl b1
  | 0x11#8 => .ora (.mem (.indy b1))
  | 0x15#8 => .ora (.mem (.zpx b1))
  | 0x16#8 => .asl (.mem (.zpx b1))
  | 0x18#8 => .clc
  | 0x19#8 => .ora (.mem (.absy (b2 ++ b1)))
  | 0x1D#8 => .ora (.mem (.absx (b2 ++ b1)))
  | 0x1E#8 => .asl (.mem (.absx (b2 ++ b1)))
  | 0x20#8 => .jsr (b2 ++ b1)
  | 0x21#8 => .and (.mem (.indx b1))
  | 0x24#8 => .bit (.zp b1)
  | 0x25#8 => .and (.mem (.zp b1))
  | 0x26#8 => .rol (.mem (.zp b1))
  | 0x28#8 => .plp
  | 0x29#8 => .and (.imm b1)
  | 0x2A#8 => .rol .acc
  | 0x2C#8 => .bit (.abs (b2 ++ b1))
  | 0x2D#8 => .and (.mem (.abs (b2 ++ b1)))
  | 0x2E#8 => .rol (.mem (.abs (b2 ++ b1)))
  | 0x30#8 => .bmi b1
  | 0x31#8 => .and (.mem (.indy b1))
  | 0x35#8 => .and (.mem (.zpx b1))
  | 0x36#8 => .rol (.mem (.zpx b1))
  | 0x38#8 => .sec
  | 0x39#8 => .and (.mem (.absy (b2 ++ b1)))
  | 0x3D#8 => .and (.mem (.absx (b2 ++ b1)))
  | 0x3E#8 => .rol (.mem (.absx (b2 ++ b1)))
  | 0x40#8 => .rti
  | 0x41#8 => .eor (.mem (.indx b1))
  | 0x45#8 => .eor (.mem (.zp b1))
  | 0x46#8 => .lsr (.mem (.zp b1))
  | 0x48#8 => .pha
  | 0x49#8 => .eor (.imm b1)
  | 0x4A#8 => .lsr .acc
  | 0x4C#8 => .jmp (.abs (b2 ++ b1))
  | 0x4D#8 => .eor (.mem (.abs (b2 ++ b1)))
  | 0x4E#8 => .lsr (.mem (.abs (b2 ++ b1)))
  | 0x50#8 => .bvc b1
  | 0x51#8 => .eor (.mem (.indy b1))
  | 0x55#8 => .eor (.mem (.zpx b1))
  | 0x56#8 => .lsr (.mem (.zpx b1))
  | 0x58#8 => .cli
  | 0x59#8 => .eor (.mem (.absy (b2 ++ b1)))
  | 0x5D#8 => .eor (.mem (.absx (b2 ++ b1)))
  | 0x5E#8 => .lsr (.mem (.absx (b2 ++ b1)))
  | 0x60#8 => .rts
  | 0x61#8 => .adc (.mem (.indx b1))
  | 0x65#8 => .adc (.mem (.zp b1))
  | 0x66#8 => .ror (.mem (.zp b1))
  | 0x68#8 => .pla
  | 0x69#8 => .adc (.imm b1)
  | 0x6A#8 => .ror .acc
  | 0x6C#8 => .jmp (.ind (b2 ++ b1))
  | 0x6D#8 => .adc (.mem (.abs (b2 ++ b1)))
  | 0x6E#8 => .ror (.mem (.abs (b2 ++ b1)))
  | 0x70#8 => .bvs b1
  | 0x71#8 => .adc (.mem (.indy b1))
  | 0x75#8 => .adc (.mem (.zpx b1))
  | 0x76#8 => .ror (.mem (.zpx b1))
  | 0x78#8 => .sei
  | 0x79#8 => .adc (.mem (.absy (b2 ++ b1)))
  | 0x7D#8 => .adc (.mem (.absx (b2 ++ b1)))
  | 0x7E#8 => .ror (.mem (.absx (b2 ++ b1)))
  | 0x81#8 => .sta (.indx b1)
  | 0x84#8 => .sty (.zp b1)
  | 0x85#8 => .sta (.zp b1)
  | 0x86#8 => .stx (.zp b1)
  | 0x88#8 => .dey
  | 0x8A#8 => .txa
  | 0x8C#8 => .sty (.abs (b2 ++ b1))
  | 0x8D#8 => .sta (.abs (b2 ++ b1))
  | 0x8E#8 => .stx (.abs (b2 ++ b1))
  | 0x90#8 => .bcc b1
  | 0x91#8 => .sta (.indy b1)
  | 0x94#8 => .sty (.zpx b1)
  | 0x95#8 => .sta (.zpx b1)
  | 0x96#8 => .stx (.zpy b1)
  | 0x98#8 => .tya
  | 0x99#8 => .sta (.absy (b2 ++ b1))
  | 0x9A#8 => .txs
  | 0x9D#8 => .sta (.absx (b2 ++ b1))
  | 0xA0#8 => .ldy (.imm b1)
  | 0xA1#8 => .lda (.mem (.indx b1))
  | 0xA2#8 => .ldx (.imm b1)
  | 0xA4#8 => .ldy (.mem (.zp b1))
  | 0xA5#8 => .lda (.mem (.zp b1))
  | 0xA6#8 => .ldx (.mem (.zp b1))
  | 0xA8#8 => .tay
  | 0xA9#8 => .lda (.imm b1)
  | 0xAA#8 => .tax
  | 0xAC#8 => .ldy (.mem (.abs (b2 ++ b1)))
  | 0xAD#8 => .lda (.mem (.abs (b2 ++ b1)))
  | 0xAE#8 => .ldx (.mem (.abs (b2 ++ b1)))
  | 0xB0#8 => .bcs b1
  | 0xB1#8 => .lda (.mem (.indy b1))
  | 0xB4#8 => .ldy (.mem (.zpx b1))
  | 0xB5#8 => .lda (.mem (.zpx b1))
  | 0xB6#8 => .ldx (.mem (.zpy b1))
  | 0xB8#8 => .clv
  | 0xB9#8 => .lda (.mem (.absy (b2 ++ b1)))
  | 0xBA#8 => .tsx
  | 0xBC#8 => .ldy (.mem (.absx (b2 ++ b1)))
  | 0xBD#8 => .lda (.mem (.absx (b2 ++ b1)))
  | 0xBE#8 => .ldx (.mem (.absy (b2 ++ b1)))
  | 0xC0#8 => .cpy (.imm b1)
  | 0xC1#8 => .cmp (.mem (.indx b1))
  | 0xC4#8 => .cpy (.mem (.zp b1))
  | 0xC5#8 => .cmp (.mem (.zp b1))
  | 0xC6#8 => .dec (.zp b1)
  | 0xC8#8 => .iny
  | 0xC9#8 => .cmp (.imm b1)
  | 0xCA#8 => .dex
  | 0xCC#8 => .cpy (.mem (.abs (b2 ++ b1)))
  | 0xCD#8 => .cmp (.mem (.abs (b2 ++ b1)))
  | 0xCE#8 => .dec (.abs (b2 ++ b1))
  | 0xD0#8 => .bne b1
  | 0xD1#8 => .cmp (.mem (.indy b1))
  | 0xD5#8 => .cmp (.mem (.zpx b1))
  | 0xD6#8 => .dec (.zpx b1)
  | 0xD8#8 => .cld
  | 0xD9#8 => .cmp (.mem (.absy (b2 ++ b1)))
  | 0xDD#8 => .cmp (.mem (.absx (b2 ++ b1)))
  | 0xDE#8 => .dec (.absx (b2 ++ b1))
  | 0xE0#8 => .cpx (.imm b1)
  | 0xE1#8 => .sbc (.mem (.indx b1))
  | 0xE4#8 => .cpx (.mem (.zp b1))
  | 0xE5#8 => .sbc (.mem (.zp b1))
  | 0xE6#8 => .inc (.zp b1)
  | 0xE8#8 => .inx
  | 0xE9#8 => .sbc (.imm b1)
  | 0xEA#8 => .nop
  | 0xEC#8 => .cpx (.mem (.abs (b2 ++ b1)))
  | 0xED#8 => .sbc (.mem (.abs (b2 ++ b1)))
  | 0xEE#8 => .inc (.abs (b2 ++ b1))
  | 0xF0#8 => .beq b1
  | 0xF1#8 => .sbc (.mem (.indy b1))
  | 0xF5#8 => .sbc (.mem (.zpx b1))
  | 0xF6#8 => .inc (.zpx b1)
  | 0xF8#8 => .sed
  | 0xF9#8 => .sbc (.mem (.absy (b2 ++ b1)))
  | 0xFD#8 => .sbc (.mem (.absx (b2 ++ b1)))
  | 0xFE#8 => .inc (.absx (b2 ++ b1))
  | _ => .invalid op

/-- How many operand bytes follow the opcode byte `op`, which alone determines it (R86). -/
def operandCount (op : Byte) : Nat := (decodeOp op 0#8 0#8).operandBytes

/-- Decoding a list of bytes: the instruction at its head and the bytes after it (R80, R86). -/
def decode : List Byte → Except DecodeError (Instr × List Byte)
  | [] => .error .noOpcode
  | op :: rest =>
    match operandCount op, rest with
    | 0, rest => .ok (decodeOp op 0#8 0#8, rest)
    | 1, b1 :: rest => .ok (decodeOp op b1 0#8, rest)
    | 2, b1 :: b2 :: rest => .ok (decodeOp op b1 b2, rest)
    | _, _ => .error (.missingOperand op)

/-- The opcode byte of an instruction (R88, R89); none for a term that is no row of the table. -/
def Instr.opcode : Instr → Option Byte
  | .lda (.imm _) => some 0xA9
  | .lda (.mem (.zp _)) => some 0xA5
  | .lda (.mem (.zpx _)) => some 0xB5
  | .lda (.mem (.abs _)) => some 0xAD
  | .lda (.mem (.absx _)) => some 0xBD
  | .lda (.mem (.absy _)) => some 0xB9
  | .lda (.mem (.indx _)) => some 0xA1
  | .lda (.mem (.indy _)) => some 0xB1
  | .lda (.mem (.zpy _)) => none
  | .ldx (.imm _) => some 0xA2
  | .ldx (.mem (.zp _)) => some 0xA6
  | .ldx (.mem (.zpy _)) => some 0xB6
  | .ldx (.mem (.abs _)) => some 0xAE
  | .ldx (.mem (.absy _)) => some 0xBE
  | .ldx (.mem (.zpx _)) | .ldx (.mem (.absx _)) | .ldx (.mem (.indx _)) | .ldx (.mem (.indy _)) => none
  | .ldy (.imm _) => some 0xA0
  | .ldy (.mem (.zp _)) => some 0xA4
  | .ldy (.mem (.zpx _)) => some 0xB4
  | .ldy (.mem (.abs _)) => some 0xAC
  | .ldy (.mem (.absx _)) => some 0xBC
  | .ldy (.mem (.zpy _)) | .ldy (.mem (.absy _)) | .ldy (.mem (.indx _)) | .ldy (.mem (.indy _)) => none
  | .sta (.zp _) => some 0x85
  | .sta (.zpx _) => some 0x95
  | .sta (.abs _) => some 0x8D
  | .sta (.absx _) => some 0x9D
  | .sta (.absy _) => some 0x99
  | .sta (.indx _) => some 0x81
  | .sta (.indy _) => some 0x91
  | .sta (.zpy _) => none
  | .stx (.zp _) => some 0x86
  | .stx (.zpy _) => some 0x96
  | .stx (.abs _) => some 0x8E
  | .stx (.zpx _) | .stx (.absx _) | .stx (.absy _) | .stx (.indx _) | .stx (.indy _) => none
  | .sty (.zp _) => some 0x84
  | .sty (.zpx _) => some 0x94
  | .sty (.abs _) => some 0x8C
  | .sty (.zpy _) | .sty (.absx _) | .sty (.absy _) | .sty (.indx _) | .sty (.indy _) => none
  | .tax => some 0xAA
  | .tay => some 0xA8
  | .txa => some 0x8A
  | .tya => some 0x98
  | .tsx => some 0xBA
  | .txs => some 0x9A
  | .pha => some 0x48
  | .php => some 0x08
  | .pla => some 0x68
  | .plp => some 0x28
  | .adc (.imm _) => some 0x69
  | .adc (.mem (.zp _)) => some 0x65
  | .adc (.mem (.zpx _)) => some 0x75
  | .adc (.mem (.abs _)) => some 0x6D
  | .adc (.mem (.absx _)) => some 0x7D
  | .adc (.mem (.absy _)) => some 0x79
  | .adc (.mem (.indx _)) => some 0x61
  | .adc (.mem (.indy _)) => some 0x71
  | .adc (.mem (.zpy _)) => none
  | .sbc (.imm _) => some 0xE9
  | .sbc (.mem (.zp _)) => some 0xE5
  | .sbc (.mem (.zpx _)) => some 0xF5
  | .sbc (.mem (.abs _)) => some 0xED
  | .sbc (.mem (.absx _)) => some 0xFD
  | .sbc (.mem (.absy _)) => some 0xF9
  | .sbc (.mem (.indx _)) => some 0xE1
  | .sbc (.mem (.indy _)) => some 0xF1
  | .sbc (.mem (.zpy _)) => none
  | .and (.imm _) => some 0x29
  | .and (.mem (.zp _)) => some 0x25
  | .and (.mem (.zpx _)) => some 0x35
  | .and (.mem (.abs _)) => some 0x2D
  | .and (.mem (.absx _)) => some 0x3D
  | .and (.mem (.absy _)) => some 0x39
  | .and (.mem (.indx _)) => some 0x21
  | .and (.mem (.indy _)) => some 0x31
  | .and (.mem (.zpy _)) => none
  | .ora (.imm _) => some 0x09
  | .ora (.mem (.zp _)) => some 0x05
  | .ora (.mem (.zpx _)) => some 0x15
  | .ora (.mem (.abs _)) => some 0x0D
  | .ora (.mem (.absx _)) => some 0x1D
  | .ora (.mem (.absy _)) => some 0x19
  | .ora (.mem (.indx _)) => some 0x01
  | .ora (.mem (.indy _)) => some 0x11
  | .ora (.mem (.zpy _)) => none
  | .eor (.imm _) => some 0x49
  | .eor (.mem (.zp _)) => some 0x45
  | .eor (.mem (.zpx _)) => some 0x55
  | .eor (.mem (.abs _)) => some 0x4D
  | .eor (.mem (.absx _)) => some 0x5D
  | .eor (.mem (.absy _)) => some 0x59
  | .eor (.mem (.indx _)) => some 0x41
  | .eor (.mem (.indy _)) => some 0x51
  | .eor (.mem (.zpy _)) => none
  | .bit (.zp _) => some 0x24
  | .bit (.abs _) => some 0x2C
  | .bit (.zpx _) | .bit (.zpy _) | .bit (.absx _) | .bit (.absy _) | .bit (.indx _) | .bit (.indy _) => none
  | .cmp (.imm _) => some 0xC9
  | .cmp (.mem (.zp _)) => some 0xC5
  | .cmp (.mem (.zpx _)) => some 0xD5
  | .cmp (.mem (.abs _)) => some 0xCD
  | .cmp (.mem (.absx _)) => some 0xDD
  | .cmp (.mem (.absy _)) => some 0xD9
  | .cmp (.mem (.indx _)) => some 0xC1
  | .cmp (.mem (.indy _)) => some 0xD1
  | .cmp (.mem (.zpy _)) => none
  | .cpx (.imm _) => some 0xE0
  | .cpx (.mem (.zp _)) => some 0xE4
  | .cpx (.mem (.abs _)) => some 0xEC
  | .cpx (.mem (.zpx _)) | .cpx (.mem (.zpy _)) | .cpx (.mem (.absx _)) | .cpx (.mem (.absy _))
  | .cpx (.mem (.indx _)) | .cpx (.mem (.indy _)) => none
  | .cpy (.imm _) => some 0xC0
  | .cpy (.mem (.zp _)) => some 0xC4
  | .cpy (.mem (.abs _)) => some 0xCC
  | .cpy (.mem (.zpx _)) | .cpy (.mem (.zpy _)) | .cpy (.mem (.absx _)) | .cpy (.mem (.absy _))
  | .cpy (.mem (.indx _)) | .cpy (.mem (.indy _)) => none
  | .inc (.zp _) => some 0xE6
  | .inc (.zpx _) => some 0xF6
  | .inc (.abs _) => some 0xEE
  | .inc (.absx _) => some 0xFE
  | .inc (.zpy _) | .inc (.absy _) | .inc (.indx _) | .inc (.indy _) => none
  | .dec (.zp _) => some 0xC6
  | .dec (.zpx _) => some 0xD6
  | .dec (.abs _) => some 0xCE
  | .dec (.absx _) => some 0xDE
  | .dec (.zpy _) | .dec (.absy _) | .dec (.indx _) | .dec (.indy _) => none
  | .inx => some 0xE8
  | .iny => some 0xC8
  | .dex => some 0xCA
  | .dey => some 0x88
  | .asl .acc => some 0x0A
  | .asl (.mem (.zp _)) => some 0x06
  | .asl (.mem (.zpx _)) => some 0x16
  | .asl (.mem (.abs _)) => some 0x0E
  | .asl (.mem (.absx _)) => some 0x1E
  | .asl (.mem (.zpy _)) | .asl (.mem (.absy _)) | .asl (.mem (.indx _)) | .asl (.mem (.indy _)) => none
  | .lsr .acc => some 0x4A
  | .lsr (.mem (.zp _)) => some 0x46
  | .lsr (.mem (.zpx _)) => some 0x56
  | .lsr (.mem (.abs _)) => some 0x4E
  | .lsr (.mem (.absx _)) => some 0x5E
  | .lsr (.mem (.zpy _)) | .lsr (.mem (.absy _)) | .lsr (.mem (.indx _)) | .lsr (.mem (.indy _)) => none
  | .rol .acc => some 0x2A
  | .rol (.mem (.zp _)) => some 0x26
  | .rol (.mem (.zpx _)) => some 0x36
  | .rol (.mem (.abs _)) => some 0x2E
  | .rol (.mem (.absx _)) => some 0x3E
  | .rol (.mem (.zpy _)) | .rol (.mem (.absy _)) | .rol (.mem (.indx _)) | .rol (.mem (.indy _)) => none
  | .ror .acc => some 0x6A
  | .ror (.mem (.zp _)) => some 0x66
  | .ror (.mem (.zpx _)) => some 0x76
  | .ror (.mem (.abs _)) => some 0x6E
  | .ror (.mem (.absx _)) => some 0x7E
  | .ror (.mem (.zpy _)) | .ror (.mem (.absy _)) | .ror (.mem (.indx _)) | .ror (.mem (.indy _)) => none
  | .jmp (.ind _) => some 0x6C
  | .jmp (.abs _) => some 0x4C
  | .jsr _ => some 0x20
  | .rts => some 0x60
  | .rti => some 0x40
  | .brk => some 0x00
  | .bcc _ => some 0x90
  | .bcs _ => some 0xB0
  | .beq _ => some 0xF0
  | .bmi _ => some 0x30
  | .bne _ => some 0xD0
  | .bpl _ => some 0x10
  | .bvc _ => some 0x50
  | .bvs _ => some 0x70
  | .clc => some 0x18
  | .cld => some 0xD8
  | .cli => some 0x58
  | .clv => some 0xB8
  | .sec => some 0x38
  | .sed => some 0xF8
  | .sei => some 0x78
  | .nop => some 0xEA
  | .invalid op => if invalidOpcodes.contains op then some op else none

/-- The bytes of a 16-bit operand, low byte first (R85). -/
def wordBytes (w : Word) : List Byte := [w.extractLsb' 0 8, w.extractLsb' 8 8]

/-- The operand bytes of a memory mode (R83, R85). -/
def MemMode.bytes : MemMode → List Byte
  | .zp n | .zpx n | .zpy n | .indx n | .indy n => [n]
  | .abs a | .absx a | .absy a => wordBytes a

/-- The operand bytes of an operand (R83, R85). -/
def Operand.bytes : Operand → List Byte
  | .imm n => [n]
  | .mem m => m.bytes

/-- The operand bytes of a shift's operand (R83, R85). -/
def ShiftOperand.bytes : ShiftOperand → List Byte
  | .acc => []
  | .mem m => m.bytes

/-- The operand bytes of an instruction, in the order of R83. -/
def Instr.bytes : Instr → List Byte
  | .lda o | .ldx o | .ldy o | .adc o | .sbc o | .and o | .ora o | .eor o | .cmp o | .cpx o | .cpy o => o.bytes
  | .sta m | .stx m | .sty m | .bit m | .inc m | .dec m => m.bytes
  | .asl o | .lsr o | .rol o | .ror o => o.bytes
  | .jmp (.abs a) | .jmp (.ind a) | .jsr a => wordBytes a
  | .bcc d | .bcs d | .beq d | .bmi d | .bne d | .bpl d | .bvc d | .bvs d => [d]
  | .tax | .tay | .txa | .tya | .tsx | .txs | .pha | .php | .pla | .plp => []
  | .inx | .iny | .dex | .dey | .rts | .rti | .brk => []
  | .clc | .cld | .cli | .clv | .sec | .sed | .sei | .nop => []
  | .invalid _ => []

/-- The bytes of a well-formed instruction: the opcode byte and its operand bytes (R80, R83); nothing for a term that is
no row of the table. -/
def encode (i : Instr) : List Byte :=
  match i.opcode with
  | some op => op :: i.bytes
  | none => []

/-- The first three bytes of an instruction whose `nbits` low bits are those of `w`, the first byte the least
significant one, and whose later bits are 0. Three bytes is the longest instruction (R80). -/
def tableBytes (nbits w : Nat) : List Byte :=
  let v := w % 2 ^ nbits
  [BitVec.ofNat 8 v, BitVec.ofNat 8 (v / 256), BitVec.ofNat 8 (v / 65536)]

/-- The instruction the decoder reads from the bits `w` of an opcode-table row. -/
def decodeTableWord (nbits w : Nat) : Option Instr :=
  match decode (tableBytes nbits w) with
  | .ok r => some r.1
  | .error _ => none

end Sys2Proof
end

