-- ==== Sys2Proof/Config.lean ====
section
/-! DEFINITION. What an implementation fixes (the parameters of 00_scope.md R9, as plain data) and the free
values (what the bus answers outside the bytes the core has written, and the free choice of a masked IRQ). -/

namespace Sys2Proof

/-- One bus event (20_memory.md R50, R51). -/
inductive BusEvent where
  /-- `cpuRead(addr)` (R14). -/
  | read (addr : Word)
  /-- `cpuWrite(addr, v)` (R14). -/
  | write (addr : Word) (v : Byte)
  /-- No access of the core: `resetMachine()` reset the PPU, the APU and the mapper (70 R182). -/
  | deviceReset
  /-- No access of the core: the input collaborator's buttons changed (R47); `n` names how (log entry 14). -/
  | inputChange (n : Nat)
  deriving DecidableEq, Repr

/-- What the devices and the mapper have seen, newest first, each event with the device time (field `clock`) it
came at (R51). An access is recorded at the address the core put on the bus (R44, R51). -/
abbrev History := List (Nat × BusEvent)

/-- `IRQ_MASKED` (R9, 60 R158): what happens to a pending IRQ found while I = 1. -/
inductive IrqMasked where
  /-- The flag stays set. -/
  | held
  /-- The flag is cleared. -/
  | dropped
  /-- Either, chosen freely at each such check. -/
  | either
  deriving DecidableEq, Repr

/-- `IRQ_PUSHED_B` (R9, 92 D5): the B bit that NMI and IRQ entry push. -/
inductive PushedB where
  /-- Bit 4 is pushed as 0. -/
  | zero
  /-- Bit 4 is the stored B. -/
  | stored
  deriving DecidableEq, Repr

/-- One row of `INVALID_LEN` and `INVALID_CYCLES` (R9, 45 R151): the PC advance and the cost of an invalid opcode. -/
structure InvalidRow where
  /-- The opcode value. -/
  op : Byte
  /-- `INVALID_LEN(op)`, one of 0, 1, 2, 3. -/
  len : Fin 4
  /-- `INVALID_CYCLES(op)`. -/
  cycles : Nat
  deriving DecidableEq, Repr

/-- The parameters of 00_scope.md R9. They are plain data that State carries and no step writes, so a statement
about every state is a statement about every value of every parameter. -/
structure Config where
  /-- `RAM_SIZE` is `2 ^ ramBits` bytes, so it is a power of two dividing 0x2000 (R45). -/
  ramBits : Fin 14
  /-- `RESET_A`. -/
  resetA : Byte
  /-- `RESET_X`. -/
  resetX : Byte
  /-- `RESET_Y`. -/
  resetY : Byte
  /-- `RESET_S`. -/
  resetS : Byte
  /-- `RESET_C`. -/
  resetC : Bool
  /-- `RESET_Z`. -/
  resetZ : Bool
  /-- `RESET_D`. -/
  resetD : Bool
  /-- `RESET_B`. -/
  resetB : Bool
  /-- `RESET_V`. -/
  resetV : Bool
  /-- `RESET_N`. -/
  resetN : Bool
  /-- `RESET_CYCLES`. -/
  resetCycles : Nat
  /-- `NMI_SETS_I`. -/
  nmiSetsI : Bool
  /-- `IRQ_MASKED`. -/
  irqMasked : IrqMasked
  /-- `IRQ_PUSHED_B`. -/
  irqPushedB : PushedB
  /-- `ZP_PTR_WRAP`. -/
  zpPtrWrap : Bool
  /-- `INVALID_LEN` and `INVALID_CYCLES` of the opcodes that do not have the defaults 1 and 2. -/
  invalidRows : List InvalidRow
  /-- The name of the environment (which cartridge and devices): the free values of what stands behind the bus take it, so
  that no statement about two machines can assume that their environments answer alike. The model's own. -/
  world : Nat
  deriving DecidableEq, Repr

/-- The defaults of R9. DESIGN CHOICE (unsafe, log entry 1): the RESET_* values, which the spec leaves
unconstrained, are 0 here; the others are the spec's own defaults (log entry 5). -/
def Config.default : Config where
  ramBits := 11
  resetA := 0#8
  resetX := 0#8
  resetY := 0#8
  resetS := 0#8
  resetC := false
  resetZ := false
  resetD := false
  resetB := false
  resetV := false
  resetN := false
  resetCycles := 7
  nmiSetsI := true
  irqMasked := .held
  irqPushedB := .zero
  zpPtrWrap := true
  invalidRows := []
  world := 0

/-- Free value (log entry 2): what the RAM byte `k` holds at the power-on named `boot`: one value per byte, held until the
byte is written (R45, 93 U4). -/
opaque Config.ramDraw (boot k : Nat) : Byte

/-- Free value (log entry 3): `DevRead(history, a)` (R51): what the device register `a` answers at device time `clock`, after
the events of `h`, since the power-on named `boot`. -/
opaque Config.devRead (world boot : Nat) (h : History) (clock : Nat) (a : Word) : Byte

/-- Free value (log entry 4): `CartRead(mapperState, a)` (R48, R51): what the cartridge answers at `a`; the mapper's state is
whatever the events of `h` and the time have made it since the power-on named `boot`. -/
opaque Config.cartRead (world boot : Nat) (h : History) (clock : Nat) (a : Word) : Byte

/-- Free value (log entry 9): whether the `n`-th masked check under `IRQ_MASKED = either` drops the request (R158). -/
opaque Config.dropMasked (world n : Nat) : Bool

end Sys2Proof
end

