-- ==== Sys2Proof/Machine/State.lean ====
section
/-! DEFINITION. The state: the CPU core's state of 10_state.md R20, the bytes and events behind the bus (20_memory.md
R45, R48, R51), the model's own bookkeeping fields, and the parameters (00_scope.md R9). The state right after reset. -/

namespace Sys2Proof.Machine

/-- The plain bytes behind the bus: cells with strictly rising keys. A key below 0x2000 is the number of a RAM byte
(R45), a key from 0x4020 up is a cartridge address (R48). -/
abbrev Memory := List Host.Cell

/-- The reasons a step can fault: none. The core raises no synchronous exception (60 R154), no access faults
(20 R56), and a step always completes (60 R178). -/
inductive Fault where
  deriving DecidableEq, Repr

/-- The reasons a step can be refused. -/
inductive Refusal where
  /-- Raised by exec's arm for an instruction that has no meaning yet (safe). No arm raises it: every instruction has
  its meaning. -/
  | notModelled (mnemonic : String)
  deriving DecidableEq, Repr

/-- The CPU core's state, "exactly the following, and nothing else" (R20). -/
structure CpuState where
  /-- `PC`, the program counter (R27). -/
  pc : Word
  /-- `A`, the accumulator (R22). -/
  a : Byte
  /-- `X`, an index register (R23). -/
  x : Byte
  /-- `Y`, an index register (R24). -/
  y : Byte
  /-- `S`, the stack pointer (R26). -/
  sp : Byte
  /-- `C`, carry (R31). -/
  c : Bool
  /-- `Z`, zero (R32). -/
  z : Bool
  /-- `I`, interrupt disable (R33). -/
  i : Bool
  /-- `D`, decimal (R34). -/
  d : Bool
  /-- `B`, break: a stored flag (R35). -/
  b : Bool
  /-- `V`, overflow (R36). -/
  v : Bool
  /-- `N`, negative (R37). -/
  n : Bool
  /-- `cyc`, the cycle count the last step returned (R41). -/
  cyc : Nat
  /-- `nmi_pending` (R40). -/
  nmiPending : Bool
  /-- `irq_pending` (R40). -/
  irqPending : Bool
  /-- `reset_pending` (R40). -/
  resetPending : Bool
  deriving DecidableEq, Repr

/-- The whole machine as the core sees it. -/
structure State extends CpuState where
  /-- The RAM bytes written since power-on (R45), and the cartridge bytes that a claim names as fixed (R48; log
  entry 4). -/
  mem : Memory
  /-- What the devices and the mapper have seen, newest first (R51). -/
  history : History
  /-- The model's own (log entry 11): the bus accesses of the last step, oldest first (R57, R58, 60 R177). -/
  events : List BusEvent
  /-- The model's own (log entry 12): the devices' time, the sum of the cycle counts the steps have returned (R60). -/
  clock : Nat
  /-- The model's own (log entry 9): how many free choices of `IRQ_MASKED = either` have been made (R158). -/
  draws : Nat
  /-- The model's own (log entry 16): the name of the power-on, which fixes what RAM (R45) and the blocks behind the bus held
  then. No step writes it; a save-state carries it (60 R175). -/
  boot : Nat
  /-- The parameters (00 R9); no step writes them. -/
  cfg : Config
  deriving DecidableEq, Repr

/-- The machine right after reset (R42, 70 R180) at power-on, with nothing written and no cartridge byte known: PC is
what the cartridge answers at the reset vector, low byte at 0xFFFC (R49), and the two vector reads are the sequence's only
bus accesses, which the cartridge has seen (R50). The registers and flags that the spec leaves unconstrained hold `Config.default`'s values (log entry 1). -/
def State.reset : State where
  pc := Config.cartRead Config.default.world Config.default.world [(0, .read 0xFFFC)] 0 0xFFFD ++
    Config.cartRead Config.default.world Config.default.world [] 0 0xFFFC
  a := Config.default.resetA
  x := Config.default.resetX
  y := Config.default.resetY
  sp := Config.default.resetS
  c := Config.default.resetC
  z := Config.default.resetZ
  i := true
  d := Config.default.resetD
  b := Config.default.resetB
  v := Config.default.resetV
  n := Config.default.resetN
  cyc := Config.default.resetCycles
  nmiPending := false
  irqPending := false
  resetPending := false
  mem := []
  history := [(0, .read 0xFFFD), (0, .read 0xFFFC)]
  events := [.read 0xFFFC, .read 0xFFFD]
  clock := 0
  draws := 0
  boot := Config.default.world
  cfg := Config.default

end Sys2Proof.Machine
end

