-- ==== Sys2Proof/Machine/Flags.lean ====
section
/-! DEFINITION. The flag computations: N and Z of a result, add and subtract, compare, shifts and rotates, and the status
byte (00_scope.md R18, 10_state.md R38, 42_arith_logic.md, 43_incdec_shift.md). -/

namespace Sys2Proof.Machine

/-- `setNZ(v)`: `N <- v[7]; Z <- bool(v = 0)` (R18). -/
def State.setNZ (s : State) (v : Byte) : State := { s with n := v.getLsbD 7, z := v == 0#8 }

/-- The status byte pushed with break bit `bit4`: `N V 1 b D I Z C`, bit 7 down to bit 0 (R38). -/
def State.packStatus (s : State) (bit4 : Bool) : Byte :=
  BitVec.ofBool s.n ++ BitVec.ofBool s.v ++ 1#1 ++ BitVec.ofBool bit4 ++
    BitVec.ofBool s.d ++ BitVec.ofBool s.i ++ BitVec.ofBool s.z ++ BitVec.ofBool s.c

/-- The seven flags from a pulled status byte; bit 5 is discarded (R38). -/
def State.unpackStatus (s : State) (p : Byte) : State :=
  { s with
    n := p.getLsbD 7, v := p.getLsbD 6, b := p.getLsbD 4, d := p.getLsbD 3, i := p.getLsbD 2, z := p.getLsbD 1,
    c := p.getLsbD 0 }

/-- ADC of the operand byte `m`: `t <- A + M + C`, exact; the result is `w8(t)`. D is not read (R110). -/
def State.addWithCarry (s : State) (m : Byte) : State :=
  let t := s.a.toNat + m.toNat + s.c.toNat
  let r := BitVec.ofNat 8 t
  { s with
    a := r, c := decide (0xFF < t), v := ((s.a ^^^ r) &&& (m ^^^ r) &&& 0x80#8) != 0#8,
    n := r.getLsbD 7, z := r == 0#8 }

/-- SBC of the operand byte `m`: `t <- A + (M ^ 0xFF) + C`, exact; the result is `w8(t)`. D is not read (R111). -/
def State.subWithBorrow (s : State) (m : Byte) : State :=
  let t := s.a.toNat + (m ^^^ 0xFF#8).toNat + s.c.toNat
  let r := BitVec.ofNat 8 t
  { s with
    a := r, c := decide (0xFF < t), v := ((s.a ^^^ m) &&& (s.a ^^^ r) &&& 0x80#8) != 0#8,
    n := r.getLsbD 7, z := r == 0#8 }

/-- The comparison of the register value `r` with the operand byte `m` (R116): C and Z by the unsigned comparison, N by
the 8-bit difference. -/
def State.compareWith (s : State) (r m : Byte) : State :=
  { s with c := decide (m.toNat ≤ r.toNat), z := r == m, n := (r - m).getLsbD 7 }

/-- BIT of the operand byte `m` (R115): N and V from `m` alone. -/
def State.testBits (s : State) (m : Byte) : State :=
  { s with z := (s.a &&& m) == 0#8, n := m.getLsbD 7, v := m.getLsbD 6 }

/-- A shift's result: the byte and the bit shifted out. -/
structure Shifted where
  /-- `r`. -/
  value : Byte
  /-- The new C. -/
  carry : Bool
  deriving DecidableEq, Repr

/-- ASL: `C <- v[7]; r <- w8(v << 1)` (R125). -/
def shiftLeft (v : Byte) : Shifted := ⟨v <<< 1, v.getLsbD 7⟩

/-- LSR: `C <- v[0]; r <- v >> 1` (R126). -/
def shiftRight (v : Byte) : Shifted := ⟨v >>> 1, v.getLsbD 0⟩

/-- ROL: `C <- v[7]; r <- w8(v << 1) | c_in` (R127). -/
def rotateLeft (cIn : Bool) (v : Byte) : Shifted :=
  ⟨(v <<< 1) ||| (BitVec.ofBool cIn).zeroExtend 8, v.getLsbD 7⟩

/-- ROR: `C <- v[0]; r <- (v >> 1) | (c_in << 7)` (R128). -/
def rotateRight (cIn : Bool) (v : Byte) : Shifted :=
  ⟨(v >>> 1) ||| ((BitVec.ofBool cIn).zeroExtend 8 <<< 7), v.getLsbD 0⟩

end Sys2Proof.Machine
end

