-- ==== Sys2Proof/Machine/Ops.lean ====
section
/-! DEFINITION. The named operations: bytes of words, memory cells, the bus (20_memory.md R43 to R58), the stack (R62,
R63), interrupt entry and return (60_exceptions.md R160, R161, R166), and the reset sequence (70 R180). -/

namespace Sys2Proof.Machine

/-- What a meaning answers. -/
abbrev Result := Host.Outcome State Fault Refusal

/-- `lo(w) = w[7:0]` (00 R11). -/
def loByte (w : Word) : Byte := w.extractLsb' 0 8

/-- `hi(w) = w[15:8]` (00 R11). -/
def hiByte (w : Word) : Byte := w.extractLsb' 8 8

/-- `(h << 8) | l` (00 R12). -/
def mkWord (h l : Byte) : Word := h ++ l

/-- `page(a) = a[15:8]` (00 R11). -/
def page (a : Word) : Byte := hiByte a

/-- `zext_16(v)` (00 R12). -/
def zext16 (v : Byte) : Word := v.zeroExtend 16

/-- `sext_16(v)` (00 R12). -/
def sext16 (v : Byte) : Word := v.signExtend 16

/-- The byte listed at a key, if there is one. -/
def Memory.lookup : Memory → Nat → Option Byte
  | [], _ => none
  | (k, w) :: m, a => if a = k then some w else Memory.lookup m a

/-- The memory with `v` at key `a`, in canonical form again. -/
def Memory.store : Memory → Nat → Byte → Memory
  | [], a, v => [(a, v)]
  | (k, w) :: m, a, v =>
    if a < k then (a, v) :: (k, w) :: m
    else if a = k then (a, v) :: m
    else (k, w) :: Memory.store m a v

/-- Keys rise strictly and none is below `lo`. -/
def Memory.wfFrom : Nat → Memory → Bool
  | _, [] => true
  | lo, (k, _) :: m => decide (lo ≤ k) && Memory.wfFrom (k + 1) m

/-- The canonical form: keys rise strictly. An unlisted key holds no byte at all, so no entry can equal what it
holds (log entry 2). -/
def Memory.wf (m : Memory) : Bool := Memory.wfFrom 0 m

/-- Where the bus takes an address (R44). -/
inductive Route where
  /-- System RAM, byte `k` (R45). -/
  | ram (k : Nat)
  /-- A PPU, APU or controller register (R46, R47). -/
  | device (r : Word)
  /-- The cartridge window (R48). -/
  | cart (a : Word)
  deriving DecidableEq, Repr

/-- The register that an address of the device windows reaches: the PPU's are mirrored every 8 bytes (R46), the APU's and the
controllers' are not (R47). -/
def deviceRegister (a : Word) : Word :=
  if a.toNat < 0x4000 then BitVec.ofNat 16 (0x2000 + a.toNat % 8) else a

/-- The routing of R44: RAM mirrored modulo RAM_SIZE (R45), PPU registers mirrored every 8 bytes (R46), the APU and
controller window (R47), and the cartridge (R48). -/
def route (cfg : Config) (a : Word) : Route :=
  if a.toNat < 0x2000 then .ram (a.toNat % 2 ^ cfg.ramBits.val)
  else if a.toNat < 0x4020 then .device (deviceRegister a)
  else .cart a

/-- An access as the devices see it: at the register it reaches (R46). -/
def deviceEvent : BusEvent → BusEvent
  | .read a => .read (deviceRegister a)
  | .write a v => .write (deviceRegister a) v
  | .deviceReset => .deviceReset
  | .inputChange n => .inputChange n

/-- The history as the devices see it: a mirror is its register (R46). The mapper, which routes the address itself (R44), has
the history as it stands. -/
def deviceView (h : History) : History := h.map (fun entry => (entry.1, deviceEvent entry.2))

/-- The value a bus read of `a` returns now (R45, R51): in RAM the byte last written or the power-on draw; in the device
window a draw; in the cartridge window the listed byte or what the cartridge answers. -/
def State.peek (s : State) (a : Word) : Byte :=
  match route s.cfg a with
  | .ram k => (Memory.lookup s.mem k).getD (Config.ramDraw s.boot k)
  | .device r => Config.devRead s.cfg.world s.boot (deviceView s.history) s.clock r
  | .cart r => (Memory.lookup s.mem r.toNat).getD (Config.cartRead s.cfg.world s.boot s.history s.clock r)

/-- Whether a device or the mapper sees an access of `a`: only RAM's are free of side effects (R50). -/
def State.isSeen (s : State) (a : Word) : Bool :=
  match route s.cfg a with
  | .ram _ => false
  | .device _ => true
  | .cart _ => true

/-- What the devices and the mapper have seen after the access `e` of `a` (R51). -/
def State.historyAfter (s : State) (a : Word) (e : BusEvent) : History :=
  if s.isSeen a then (s.clock, e) :: s.history else s.history

/-- The effect of one bus read: the access is made, and seen by whom it concerns (R50). -/
def State.noteRead (s : State) (a : Word) : State :=
  { s with
    events := s.events ++ [.read a]
    history := s.historyAfter a (.read a) }

/-- `Read8(a)` (00 R14): one bus read. -/
def State.read8 (s : State) (a : Word) : Byte × State := (s.peek a, s.noteRead a)

/-- `Write8(a, v)` (00 R14): one bus write. RAM takes the byte (R45); outside RAM the write is an event and no byte changes
(R48, R51). -/
def State.write8 (s : State) (a : Word) (v : Byte) : State :=
  { s with
    events := s.events ++ [.write a v]
    mem :=
      match route s.cfg a with
      | .ram k => Memory.store s.mem k v
      | .device _ => s.mem
      | .cart _ => s.mem
    history := s.historyAfter a (.write a v) }

/-- `Read16(a)` (00 R14): low byte at `a`, then high byte at `w16(a + 1)`. -/
def State.read16 (s : State) (a : Word) : Word × State :=
  let l := s.read8 a
  let h := l.2.read8 (a + 1#16)
  (mkWord h.1 l.1, h.2)

/-- The address `0x0100 | S` (R26). -/
def stackAddr (sp : Byte) : Word := 0x01#8 ++ sp

/-- `Push8(v)`: `Write8(0x0100 | S, v); S <- w8(S - 1)` (R62). -/
def State.push8 (s : State) (v : Byte) : State :=
  { s.write8 (stackAddr s.sp) v with sp := s.sp - 1#8 }

/-- `Pull8()`: `S <- w8(S + 1); return Read8(0x0100 | S)` (R63). -/
def State.pull8 (s : State) : Byte × State :=
  { s with sp := s.sp + 1#8 }.read8 (stackAddr (s.sp + 1#8))

/-- `Push16(w)`: `Push8(hi(w)); Push8(lo(w))` (00 R15). -/
def State.push16 (s : State) (w : Word) : State := (s.push8 (hiByte w)).push8 (loByte w)

/-- `Pull16()`: `l <- Pull8(); h <- Pull8(); return (h << 8) | l` (00 R15). -/
def State.pull16 (s : State) : Word × State :=
  let l := s.pull8
  let h := l.2.pull8
  (mkWord h.1 l.1, h.2)

/-- The NMI vector (R49). -/
def nmiVector : Word := 0xFFFA#16

/-- The reset vector (R49). -/
def resetVector : Word := 0xFFFC#16

/-- The IRQ and BRK vector (R49). -/
def irqVector : Word := 0xFFFE#16

/-- Entering a handler, the one operation of NMI entry, IRQ entry and BRK (R160, R161, R133): push `ret` and the status
byte with break bit `bit4`; clear B where `clearB`; set I where `setI`; load PC through the vector; 7 cycles. The three
pushes come before the vector reads (R58). -/
def State.enterHandler (s : State) (ret vector : Word) (bit4 clearB setI : Bool) : State :=
  let t := (s.push16 ret).push8 (s.packStatus bit4)
  let u := { t with b := t.b && !clearB, i := t.i || setI }
  let w := u.read16 vector
  { w.2 with pc := w.1, cyc := 7 }

/-- Returning from a handler (R132, R166): pull the status byte and all seven flags from it, then pull PC. -/
def State.leaveHandler (s : State) : State :=
  let p := s.pull8
  let w := (p.2.unpackStatus p.1).pull16
  { w.2 with pc := w.1 }

/-- The reset sequence (70 R180): registers and flags to the RESET_* values, I to 1, all pending flags to 0, PC through
the reset vector. No push and no other access. -/
def State.resetSequence (s : State) : State :=
  let t :=
    { s with
      a := s.cfg.resetA, x := s.cfg.resetX, y := s.cfg.resetY, sp := s.cfg.resetS, c := s.cfg.resetC,
      z := s.cfg.resetZ, d := s.cfg.resetD, v := s.cfg.resetV, n := s.cfg.resetN, b := s.cfg.resetB, i := true,
      nmiPending := false, irqPending := false, resetPending := false }
  let w := t.read16 resetVector
  { w.2 with pc := w.1, cyc := s.cfg.resetCycles }

end Sys2Proof.Machine
end

