-- ==== Sys2Proof/Machine/Operands.lean ====
section
/-! DEFINITION. The addressing modes (20_memory.md R66 to R79), the base cycle costs (30_encoding.md R88), and the shapes
that instructions share: reading an operand, storing, read-modify-write, branching. -/

namespace Sys2Proof.Machine

/-- `INVALID_LEN(op)`, default 1 (00 R9, 45 R151). -/
def invalidLen (cfg : Config) (op : Byte) : Nat :=
  match cfg.invalidRows.find? (fun r => r.op == op) with
  | some r => r.len.val
  | none => 1

/-- `INVALID_CYCLES(op)`, default 2 (00 R9, 45 R151). -/
def invalidCycles (cfg : Config) (op : Byte) : Nat :=
  match cfg.invalidRows.find? (fun r => r.op == op) with
  | some r => r.cycles
  | none => 2

/-- The base cost of a reading instruction in a memory mode (R88). -/
def memReadCycles : MemMode → Nat
  | .zp _ => 3
  | .zpx _ | .zpy _ | .abs _ | .absx _ | .absy _ => 4
  | .indx _ => 6
  | .indy _ => 5

/-- The base cost of a storing instruction in a memory mode (R88). -/
def memStoreCycles : MemMode → Nat
  | .zp _ => 3
  | .zpx _ | .zpy _ | .abs _ => 4
  | .absx _ | .absy _ => 5
  | .indx _ | .indy _ => 6

/-- The base cost of a read-modify-write instruction in a memory mode (R88). The table has only the modes zp, zpx, abs and
absx; the other four are no rows of it (log entry 13). -/
def memModifyCycles : MemMode → Nat
  | .zp _ => 5
  | .zpx _ | .zpy _ | .abs _ => 6
  | .absx _ | .absy _ => 7
  | .indx _ | .indy _ => 8

/-- The base cost of a reading instruction (R88). -/
def operandCycles : Operand → Nat
  | .imm _ => 2
  | .mem m => memReadCycles m

/-- The base cost of a shift or rotate (R88). -/
def shiftCycles : ShiftOperand → Nat
  | .acc => 2
  | .mem m => memModifyCycles m

/-- The base cycle cost of an instruction (R88, 70 R185); `INVALID_CYCLES(op)` for an invalid opcode (70 R184). -/
def baseCycles (cfg : Config) : Instr → Nat
  | .lda o | .ldx o | .ldy o | .adc o | .sbc o | .and o | .ora o | .eor o | .cmp o | .cpx o | .cpy o =>
    operandCycles o
  | .sta m | .stx m | .sty m => memStoreCycles m
  | .bit m => memReadCycles m
  | .inc m | .dec m => memModifyCycles m
  | .asl o | .lsr o | .rol o | .ror o => shiftCycles o
  | .tax | .tay | .txa | .tya | .tsx | .txs | .inx | .iny | .dex | .dey => 2
  | .clc | .cld | .cli | .clv | .sec | .sed | .sei | .nop => 2
  | .pha | .php => 3
  | .pla | .plp => 4
  | .jmp (.abs _) => 3
  | .jmp (.ind _) => 5
  | .jsr _ | .rts | .rti => 6
  | .brk => 7
  | .bcc _ | .bcs _ | .beq _ | .bmi _ | .bne _ | .bpl _ | .bvc _ | .bvs _ => 2
  | .invalid op => invalidCycles cfg op

/-- The default end of an instruction (60 R153): `PC <- PCn; cycles <- base + penalty`, with `PCn = w16(PC0 + len)`. The
state's PC is still `PC0`. -/
def State.retire (s : State) (i : Instr) (penalty : Nat) : State :=
  { s with pc := s.pc + BitVec.ofNat 16 i.length, cyc := baseCycles s.cfg i + penalty }

/-- An effective address, whether its index crossed a page (R66), and the state after the pointer reads. -/
structure Located where
  /-- `ea`. -/
  ea : Word
  /-- The page-cross bit. -/
  crossed : Bool
  /-- The state after the mode's pointer reads. -/
  state : State
  deriving DecidableEq, Repr

/-- `base` indexed by `ix` (R74, R75): the sum wraps at 0xFFFF, and crosses when the page changes (R66). -/
def indexed (base : Word) (ix : Byte) (s : State) : Located :=
  let ea := base + zext16 ix
  ⟨ea, page base != page ea, s⟩

/-- The address of a pointer's second byte: `w8(p + 1)` under `ZP_PTR_WRAP`, else `p + 1` (R76). -/
def secondPtrByte (cfg : Config) (p : Byte) : Word :=
  if cfg.zpPtrWrap then zext16 (p + 1#8) else zext16 p + 1#16

/-- A pointer in page zero: `lo <- Read8(p); hi <- Read8(p2)` (R76, R77). -/
def State.readPtr (s : State) (p : Byte) : Word × State :=
  let l := s.read8 (zext16 p)
  let h := l.2.read8 (secondPtrByte s.cfg p)
  (mkWord h.1 l.1, h.2)

/-- The effective address of a memory mode (R70 to R77). -/
def State.locate (s : State) : MemMode → Located
  | .zp n => ⟨zext16 n, false, s⟩
  | .zpx n => ⟨zext16 (n + s.x), false, s⟩
  | .zpy n => ⟨zext16 (n + s.y), false, s⟩
  | .abs a => ⟨a, false, s⟩
  | .absx a => indexed a s.x s
  | .absy a => indexed a s.y s
  | .indx n =>
    let w := s.readPtr (n + s.x)
    ⟨w.1, false, w.2⟩
  | .indy n =>
    let w := s.readPtr n
    indexed w.1 s.y w.2

/-- The address JMP goes to (R73, R78). The high byte of an indirect target is read on the pointer's own page: the
page-wrap bug the spec requires. -/
def State.jumpTarget (s : State) : JumpOperand → Word × State
  | .abs a => (a, s)
  | .ind ptr =>
    let l := s.read8 ptr
    let h := l.2.read8 (mkWord (page ptr) (loByte ptr + 1#8))
    (mkWord h.1 l.1, h.2)

/-- An operand's value, whether its mode crossed a page, and the state after its reads. -/
structure Fetched where
  /-- `M`. -/
  value : Byte
  /-- The page-cross bit. -/
  crossed : Bool
  /-- The state after the operand's reads. -/
  state : State
  deriving DecidableEq, Repr

/-- The byte at a memory mode's effective address: pointer reads, then the data read (R58). -/
def State.fetchMem (s : State) (m : MemMode) : Fetched :=
  let l := s.locate m
  let r := l.state.read8 l.ea
  ⟨r.1, l.crossed, r.2⟩

/-- `M`: `opnd1` in immediate mode (R69), else `Read8(ea)` (00 R17). -/
def State.fetchOperand (s : State) : Operand → Fetched
  | .imm n => ⟨n, false, s⟩
  | .mem m => s.fetchMem m

/-- A reading instruction: `f` applied to the operand's value, then the default end with the page-cross penalty (R66,
70 R186). -/
def readInstr (i : Instr) (o : Operand) (f : State → Byte → State) (s : State) : Result :=
  let r := s.fetchOperand o
  .next ((f r.state r.value).retire i r.crossed.toNat)

/-- A storing instruction: `Write8(ea, v)`, then the default end, never a penalty (R97 to R99). -/
def storeInstr (i : Instr) (m : MemMode) (v : Byte) (s : State) : Result :=
  let l := s.locate m
  .next ((l.state.write8 l.ea v).retire i 0)

/-- One read-modify-write of memory: `v <- Read8(ea); Write8(ea, f v)` (R61), giving the old byte and the state after the
write. -/
def State.modifyMem (s : State) (m : MemMode) (f : Byte → Byte) : Byte × State :=
  let l := s.locate m
  let r := l.state.read8 l.ea
  (r.1, r.2.write8 l.ea (f r.1))

/-- INC and DEC (R119, R120): read, write the result, N and Z of it; never a penalty. -/
def modifyInstr (i : Instr) (m : MemMode) (f : Byte → Byte) (s : State) : Result :=
  let r := s.modifyMem m f
  .next ((r.2.setNZ (f r.1)).retire i 0)

/-- The shifts and rotates (R125 to R128): `load; …; store(r); setNZ(r)` with C the bit shifted out. -/
def shiftInstr (i : Instr) (o : ShiftOperand) (f : Byte → Shifted) (s : State) : Result :=
  match o with
  | .acc =>
    let r := f s.a
    .next (({ s with a := r.value, c := r.carry }.setNZ r.value).retire i 0)
  | .mem m =>
    let r := s.modifyMem m (fun v => (f v).value)
    .next (({ r.2 with c := (f r.1).carry }.setNZ (f r.1).value).retire i 0)

/-- The address a branch takes: `w16(PCn + sext_16(opnd1))` with `PCn = w16(PC0 + 2)` (R79). -/
def branchTarget (pc : Word) (d : Byte) : Word := pc + 2#16 + sext16 d

/-- The common branch rule (44 R134). -/
def branchInstr (cond : Bool) (d : Byte) (s : State) : Result :=
  let pcn := s.pc + 2#16
  let target := branchTarget s.pc d
  if cond then .next { s with pc := target, cyc := 3 + (page target != page pcn).toNat }
  else .next { s with pc := pcn, cyc := 2 }

end Sys2Proof.Machine
end

