-- ==== Sys2Proof/Machine/Arith.lean ====
section
/-! DEFINITION. Add, subtract, logic and compare (42_arith_logic.md R110 to R118). -/

namespace Sys2Proof.Machine

/-- ADC, add with carry (R110). -/
def execAdc (o : Operand) (s : State) : Result := readInstr (.adc o) o State.addWithCarry s

/-- SBC, subtract with borrow (R111). -/
def execSbc (o : Operand) (s : State) : Result := readInstr (.sbc o) o State.subWithBorrow s

/-- AND: `A <- A & M; setNZ(A)` (R112). -/
def execAnd (o : Operand) (s : State) : Result :=
  readInstr (.and o) o (fun t v => State.setNZ { t with a := t.a &&& v } (t.a &&& v)) s

/-- ORA: `A <- A | M; setNZ(A)` (R113). -/
def execOra (o : Operand) (s : State) : Result :=
  readInstr (.ora o) o (fun t v => State.setNZ { t with a := t.a ||| v } (t.a ||| v)) s

/-- EOR: `A <- A ^ M; setNZ(A)` (R114). -/
def execEor (o : Operand) (s : State) : Result :=
  readInstr (.eor o) o (fun t v => State.setNZ { t with a := t.a ^^^ v } (t.a ^^^ v)) s

/-- BIT: Z of `A & M`; N and V from M (R115). -/
def execBit (m : MemMode) (s : State) : Result := readInstr (.bit m) (.mem m) State.testBits s

/-- CMP: compare A with M (R116). -/
def execCmp (o : Operand) (s : State) : Result := readInstr (.cmp o) o (fun t v => t.compareWith t.a v) s

/-- CPX: compare X with M (R117). -/
def execCpx (o : Operand) (s : State) : Result := readInstr (.cpx o) o (fun t v => t.compareWith t.x v) s

/-- CPY: compare Y with M (R118). -/
def execCpy (o : Operand) (s : State) : Result := readInstr (.cpy o) o (fun t v => t.compareWith t.y v) s

end Sys2Proof.Machine
end

