-- ==== Sys2Proof/Machine/Control.lean ====
section
/-! DEFINITION. Jumps, calls, returns, BRK and branches (44_control.md R129 to R142). -/

namespace Sys2Proof.Machine

/-- JMP: PC is the target (R129). -/
def execJmp (t : JumpOperand) (s : State) : Result :=
  let w := s.jumpTarget t
  .next { w.2 with pc := w.1, cyc := baseCycles s.cfg (.jmp t) }

/-- JSR: push the address of the instruction's last byte, `w16(PC0 + 2)`; PC is the target (R130). -/
def execJsr (a : Word) (s : State) : Result :=
  .next { s.push16 (s.pc + 2#16) with pc := a, cyc := baseCycles s.cfg (.jsr a) }

/-- RTS: PC is the pulled address plus 1 (R131). -/
def execRts (s : State) : Result :=
  let w := s.pull16
  .next { w.2 with pc := w.1 + 1#16, cyc := baseCycles s.cfg .rts }

/-- RTI: all seven flags and PC from the stack; no 1 is added (R132). -/
def execRti (s : State) : Result := .next { s.leaveHandler with cyc := baseCycles s.cfg .rti }

/-- BRK: enter the handler at the IRQ vector with `w16(PC0 + 2)` and bit 4 pushed as 1; I is set, B is not changed. The
byte after the opcode is not read (R133). -/
def execBrk (s : State) : Result := .next (s.enterHandler (s.pc + 2#16) irqVector true false true)

/-- BCC: branch if C = 0 (R135). -/
def execBcc (d : Byte) (s : State) : Result := branchInstr (!s.c) d s

/-- BCS: branch if C = 1 (R136). -/
def execBcs (d : Byte) (s : State) : Result := branchInstr s.c d s

/-- BEQ: branch if Z = 1 (R137). -/
def execBeq (d : Byte) (s : State) : Result := branchInstr s.z d s

/-- BMI: branch if N = 1 (R138). -/
def execBmi (d : Byte) (s : State) : Result := branchInstr s.n d s

/-- BNE: branch if Z = 0 (R139). -/
def execBne (d : Byte) (s : State) : Result := branchInstr (!s.z) d s

/-- BPL: branch if N = 0 (R140). -/
def execBpl (d : Byte) (s : State) : Result := branchInstr (!s.n) d s

/-- BVC: branch if V = 0 (R141). -/
def execBvc (d : Byte) (s : State) : Result := branchInstr (!s.v) d s

/-- BVS: branch if V = 1 (R142). -/
def execBvs (d : Byte) (s : State) : Result := branchInstr s.v d s

end Sys2Proof.Machine
end

