-- ==== Sys2Proof/Machine/LoadStore.lean ====
section
/-! DEFINITION. Loads, stores and register transfers (40_load_store_transfer.md R94 to R105). -/

namespace Sys2Proof.Machine

/-- LDA: `M <- operand; A <- M; setNZ(A)` (R94). -/
def execLda (o : Operand) (s : State) : Result :=
  readInstr (.lda o) o (fun t v => State.setNZ { t with a := v } v) s

/-- LDX: `M <- operand; X <- M; setNZ(X)` (R95). -/
def execLdx (o : Operand) (s : State) : Result :=
  readInstr (.ldx o) o (fun t v => State.setNZ { t with x := v } v) s

/-- LDY: `M <- operand; Y <- M; setNZ(Y)` (R96). -/
def execLdy (o : Operand) (s : State) : Result :=
  readInstr (.ldy o) o (fun t v => State.setNZ { t with y := v } v) s

/-- STA: `Write8(ea, A)`; no flag (R97). -/
def execSta (m : MemMode) (s : State) : Result := storeInstr (.sta m) m s.a s

/-- STX: `Write8(ea, X)`; no flag (R98). -/
def execStx (m : MemMode) (s : State) : Result := storeInstr (.stx m) m s.x s

/-- STY: `Write8(ea, Y)`; no flag (R99). -/
def execSty (m : MemMode) (s : State) : Result := storeInstr (.sty m) m s.y s

/-- TAX: `X <- A; setNZ(X)` (R100). -/
def execTax (s : State) : Result := .next ((State.setNZ { s with x := s.a } s.a).retire .tax 0)

/-- TAY: `Y <- A; setNZ(Y)` (R101). -/
def execTay (s : State) : Result := .next ((State.setNZ { s with y := s.a } s.a).retire .tay 0)

/-- TXA: `A <- X; setNZ(A)` (R102). -/
def execTxa (s : State) : Result := .next ((State.setNZ { s with a := s.x } s.x).retire .txa 0)

/-- TYA: `A <- Y; setNZ(A)` (R103). -/
def execTya (s : State) : Result := .next ((State.setNZ { s with a := s.y } s.y).retire .tya 0)

/-- TSX: `X <- S; setNZ(X)` (R104). -/
def execTsx (s : State) : Result := .next ((State.setNZ { s with x := s.sp } s.sp).retire .tsx 0)

/-- TXS: `S <- X`; no flag (R105). -/
def execTxs (s : State) : Result := .next (State.retire { s with sp := s.x } .txs 0)

end Sys2Proof.Machine
end

