-- ==== Sys2Proof/Machine/Misc.lean ====
section
/-! DEFINITION. Flag instructions, NOP and invalid opcodes (45_flags_misc.md R143 to R151). -/

namespace Sys2Proof.Machine

/-- CLC: `C <- 0` (R143). -/
def execClc (s : State) : Result := .next (State.retire { s with c := false } .clc 0)

/-- CLD: `D <- 0` (R144). -/
def execCld (s : State) : Result := .next (State.retire { s with d := false } .cld 0)

/-- CLI: `I <- 0` (R145). -/
def execCli (s : State) : Result := .next (State.retire { s with i := false } .cli 0)

/-- CLV: `V <- 0` (R146). -/
def execClv (s : State) : Result := .next (State.retire { s with v := false } .clv 0)

/-- SEC: `C <- 1` (R147). -/
def execSec (s : State) : Result := .next (State.retire { s with c := true } .sec 0)

/-- SED: `D <- 1` (R148). -/
def execSed (s : State) : Result := .next (State.retire { s with d := true } .sed 0)

/-- SEI: `I <- 1` (R149). -/
def execSei (s : State) : Result := .next (State.retire { s with i := true } .sei 0)

/-- NOP (R150). -/
def execNop (s : State) : Result := .next (s.retire .nop 0)

/-- An invalid opcode: `PC <- w16(PC0 + INVALID_LEN(op)); cycles <- INVALID_CYCLES(op)`; nothing else (R151). -/
def execInvalid (op : Byte) (s : State) : Result :=
  .next { s with pc := s.pc + BitVec.ofNat 16 (invalidLen s.cfg op), cyc := baseCycles s.cfg (.invalid op) }

end Sys2Proof.Machine
end

