-- ==== Sys2Proof/Machine/Shift.lean ====
section
/-! DEFINITION. Increment, decrement, shift and rotate (43_incdec_shift.md R119 to R128). -/

namespace Sys2Proof.Machine

/-- INC: `r <- w8(v + 1)` (R119). -/
def execInc (m : MemMode) (s : State) : Result := modifyInstr (.inc m) m (fun v => v + 1#8) s

/-- DEC: `r <- w8(v - 1)` (R120). -/
def execDec (m : MemMode) (s : State) : Result := modifyInstr (.dec m) m (fun v => v - 1#8) s

/-- INX: `X <- w8(X + 1); setNZ(X)` (R121). -/
def execInx (s : State) : Result :=
  .next ((State.setNZ { s with x := s.x + 1#8 } (s.x + 1#8)).retire .inx 0)

/-- INY: `Y <- w8(Y + 1); setNZ(Y)` (R122). -/
def execIny (s : State) : Result :=
  .next ((State.setNZ { s with y := s.y + 1#8 } (s.y + 1#8)).retire .iny 0)

/-- DEX: `X <- w8(X - 1); setNZ(X)` (R123). -/
def execDex (s : State) : Result :=
  .next ((State.setNZ { s with x := s.x - 1#8 } (s.x - 1#8)).retire .dex 0)

/-- DEY: `Y <- w8(Y - 1); setNZ(Y)` (R124). -/
def execDey (s : State) : Result :=
  .next ((State.setNZ { s with y := s.y - 1#8 } (s.y - 1#8)).retire .dey 0)

/-- ASL (R125). -/
def execAsl (o : ShiftOperand) (s : State) : Result := shiftInstr (.asl o) o shiftLeft s

/-- LSR (R126). -/
def execLsr (o : ShiftOperand) (s : State) : Result := shiftInstr (.lsr o) o shiftRight s

/-- ROL (R127). -/
def execRol (o : ShiftOperand) (s : State) : Result := shiftInstr (.rol o) o (rotateLeft s.c) s

/-- ROR (R128). -/
def execRor (o : ShiftOperand) (s : State) : Result := shiftInstr (.ror o) o (rotateRight s.c) s

end Sys2Proof.Machine
end

