-- ==== Sys2Proof/Machine/Stack.lean ====
section
/-! DEFINITION. The stack instructions (41_stack.md R106 to R109). -/

namespace Sys2Proof.Machine

/-- PHA: `Push8(A)` (R106). -/
def execPha (s : State) : Result := .next ((s.push8 s.a).retire .pha 0)

/-- PHP: push the status byte with bits 5 and 4 as 1 (R107). -/
def execPhp (s : State) : Result := .next ((s.push8 (s.packStatus true)).retire .php 0)

/-- PLA: `A <- Pull8(); setNZ(A)` (R108). -/
def execPla (s : State) : Result :=
  let p := s.pull8
  .next ((State.setNZ { p.2 with a := p.1 } p.1).retire .pla 0)

/-- PLP: all seven flags from the pulled byte (R109). -/
def execPlp (s : State) : Result :=
  let p := s.pull8
  .next ((p.2.unpackStatus p.1).retire .plp 0)

end Sys2Proof.Machine
end

