-- ==== Sys2Proof/Machine/Fetch.lean ====
section
/-! DEFINITION. Fetching an instruction (60_exceptions.md R153), and placing one where the next step fetches. -/

namespace Sys2Proof.Machine

/-- Fetching at PC (60 R153, 30 R86): the opcode byte, then exactly the operand bytes it asks for; PC itself does not move.
The instruction is what the decoder makes of those bytes. -/
def State.fetch (s : State) : Instr × State :=
  let op := s.read8 s.pc
  match operandCount op.1 with
  | 0 => (decodeOp op.1 0#8 0#8, op.2)
  | 1 =>
    let b1 := op.2.read8 (s.pc + 1#16)
    (decodeOp op.1 b1.1 0#8, b1.2)
  | _ =>
    let b1 := op.2.read8 (s.pc + 1#16)
    let b2 := b1.2.read8 (s.pc + 2#16)
    (decodeOp op.1 b1.1 b2.1, b2.2)

/-- The address a program placed from outside starts at: a cartridge address (log entry 7). -/
def programStart : Word := 0x8000#16

/-- The memory with `bytes` at the cartridge address `a` and after it. -/
def Memory.placeAt (m : Memory) (a : Word) : List Byte → Memory
  | [] => m
  | b :: bs => Memory.placeAt (Memory.store m a.toNat b) (a + 1#16) bs

/-- Plugging in a cartridge that holds `bytes` at `programStart`, with PC there and nothing pending, so that the next step
runs the instruction they encode. -/
def State.placeProgram (s : State) (bytes : List Byte) : State :=
  { s with
    pc := programStart, mem := Memory.placeAt s.mem programStart bytes, nmiPending := false, irqPending := false,
    resetPending := false }

end Sys2Proof.Machine
end

