-- ==== Sys2Proof/Machine/Interrupts.lean ====
section
/-! DEFINITION. The check at the instruction boundary and interrupt entry (60_exceptions.md R152, R156 to R164), and what begins and ends a step. -/

namespace Sys2Proof.Machine

/-- What a step does at the instruction boundary (R152). -/
inductive Action where
  /-- The reset sequence. -/
  | reset
  /-- NMI entry. -/
  | nmi
  /-- IRQ entry. -/
  | irq
  /-- One instruction. -/
  | instruction
  deriving DecidableEq, Repr

/-- The check at the boundary: reset, then NMI, then IRQ when I = 0, else an instruction (R152, R157). -/
def State.action (s : State) : Action :=
  if s.resetPending then .reset
  else if s.nmiPending then .nmi
  else if s.irqPending && !s.i then .irq
  else .instruction

/-- The break bit that NMI and IRQ entry push: 0, or the stored B under `IRQ_PUSHED_B = stored` (R38, R160). -/
def State.entryBit4 (s : State) : Bool :=
  match s.cfg.irqPushedB with
  | .zero => false
  | .stored => s.b

/-- NMI entry (R160). -/
def State.nmiEntry (s : State) : State :=
  State.enterHandler { s with nmiPending := false } s.pc nmiVector s.entryBit4 true s.cfg.nmiSetsI

/-- IRQ entry (R161). -/
def State.irqEntry (s : State) : State :=
  State.enterHandler { s with irqPending := false } s.pc irqVector s.entryBit4 true true

/-- What becomes of a pending IRQ found while I = 1 (R158): held, dropped, or either, by a free choice for each check. -/
def State.maskedIrq (s : State) : State :=
  if s.irqPending && s.i then
    match s.cfg.irqMasked with
    | .held => s
    | .dropped => { s with irqPending := false }
    | .either => { s with irqPending := !Config.dropMasked s.cfg.world s.draws, draws := s.draws + 1 }
  else s

/-- The start of a step: no access has been made yet. -/
def State.beginStep (s : State) : State := { s with events := [] }

/-- The end of a step: when it has returned, the devices advance by its cycle count (20 R60). -/
def State.endStep (s : State) : State := { s with clock := s.clock + s.cyc }

end Sys2Proof.Machine
end

