-- ==== Sys2Proof/Machine/Step.lean ====
section
/-! DEFINITION. The step (60_exceptions.md R152, R153): one reset, NMI or IRQ entry, or one whole instruction. -/

namespace Sys2Proof.Machine

/-- Arm 4 of R152: fetch one instruction, then its meaning. -/
def State.runInstruction (s : State) : Host.Outcome State Fault Refusal :=
  let f := s.fetch
  match exec f.1 f.2 with
  | .next t => .next t.endStep
  | .fault r => .fault r
  | .refused r => .refused r

/-- `step()` (R152). -/
def step (s : State) : Host.Outcome State Fault Refusal :=
  match s.action with
  | .reset => .next s.beginStep.resetSequence.endStep
  | .nmi => .next s.beginStep.nmiEntry.endStep
  | .irq => .next s.beginStep.irqEntry.endStep
  | .instruction => s.beginStep.maskedIrq.runInstruction

/-- `s` with the instruction whose bits are `w` placed where the next step fetches (log entry 7). -/
def State.withFetchWord (s : State) (nbits w : Nat) : State := s.placeProgram (tableBytes nbits w)

end Sys2Proof.Machine
end

