-- ==== Sys2Proof/Machine/Environment.lean ====
section
/-! DEFINITION. What the host and the other blocks do between steps (60_exceptions.md R155, R156, R159, R175, R176; 70_reset_and_hazards.md R181, R182). -/

namespace Sys2Proof.Machine

/-- The PPU enters vblank: `nmi_pending <- 1` (R156). -/
def State.raiseNmi (s : State) : State := { s with nmiPending := true }

/-- The mapper or the APU requests an IRQ: `irq_pending <- 1` (R156). -/
def State.raiseIrq (s : State) : State := { s with irqPending := true }

/-- An IRQ source withdraws its request (R159). -/
def State.withdrawIrq (s : State) : State := { s with irqPending := false }

/-- The host requests a reset: `reset_pending <- 1` (R156). -/
def State.requestReset (s : State) : State := { s with resetPending := true }

/-- `reset()` called by the host (R175): the reset sequence; it returns no cycle count, so no time passes (70 R181). -/
def State.hostReset (s : State) : State := State.resetSequence { s with events := [] }

/-- `resetMachine()`: the CPU first, through the mapper as it stands, then the PPU, the APU and the mapper (70 R182). -/
def State.resetMachine (s : State) : State :=
  let t := s.hostReset
  { t with history := (t.clock, .deviceReset) :: t.history }

/-- What serialize takes: "all mutable state" (R175). The devices' and the mapper's state is what their power-on, their
history and the device time have made it (20 R51), so those three are the saved state of the PPU, the APU and the mapper. -/
structure SaveState where
  /-- The CPU core's state, every element of R20 (R176). -/
  core : CpuState
  /-- The RAM bytes written since power-on (R45). Every other byte is what it was at the power-on `boot` (log entry 16). -/
  ram : Memory
  /-- What the devices and the mapper have seen (R51). -/
  history : History
  /-- The bus accesses of the last step (log entry 11). -/
  events : List BusEvent
  /-- The devices' time (log entry 12). -/
  clock : Nat
  /-- The free choices made so far (log entry 9), so that execution after a restore repeats (R176). -/
  draws : Nat
  /-- The power-on that the never-written RAM bytes are from (log entry 16). -/
  boot : Nat
  deriving DecidableEq, Repr

/-- The RAM cells of a memory (R45). -/
def Memory.ramPart (m : Memory) : Memory := m.filter (fun cell => decide (cell.1 < 0x2000))

/-- The cells of a memory outside RAM: the listed cartridge bytes (log entry 4). -/
def Memory.cartPart (m : Memory) : Memory := m.filter (fun cell => !decide (cell.1 < 0x2000))

/-- serialize: all mutable state, as it stands between steps (R175, R176). The parameters and the listed cartridge bytes
never change (00 R9, R48), so they are not in it. -/
def State.serialize (s : State) : SaveState where
  core := s.toCpuState
  ram := s.mem.ramPart
  history := s.history
  events := s.events
  clock := s.clock
  draws := s.draws
  boot := s.boot

/-- Whether a blob is a save-state of a machine with these parameters: its RAM cells are in canonical form and are RAM
bytes (log entry 14). Any other is corrupt (R155). -/
def SaveState.valid (cfg : Config) (saved : SaveState) : Bool :=
  Memory.wf saved.ram && saved.ram.all (fun cell => decide (cell.1 < 2 ^ cfg.ramBits.val))

/-- deserialize: all mutable state is the saved one (R175, R176); a corrupt blob changes nothing (R155, 93 U15). -/
def State.deserialize (s : State) (saved : SaveState) : State :=
  if saved.valid s.cfg then
    { s with
      toCpuState := saved.core, mem := saved.ram ++ s.mem.cartPart, history := saved.history, events := saved.events,
      clock := saved.clock, draws := saved.draws, boot := saved.boot }
  else s

/-- The input collaborator's buttons change (R47). It touches no core state: the devices answer by what they have seen, and
this is one more thing they have seen (log entry 14). -/
def State.inputChange (s : State) (n : Nat) : State :=
  { s with history := (s.clock, .inputChange n) :: s.history }

/-- A machine before its first reset, with the parameters `cfg`. Its power-on bears the environment's name (log entry 16). -/
def State.blank (cfg : Config) : State :=
  { State.reset with
    pc := 0#16, a := 0#8, x := 0#8, y := 0#8, sp := 0#8, i := false, cyc := 0, mem := [], history := [], events := [],
    boot := cfg.world, cfg := cfg }

/-- Power-on with the parameters `cfg`: the same sequence as every later reset (70 R181). -/
def State.powerOn (cfg : Config) : State := (State.blank cfg).hostReset

/-- One thing that happens between two steps (R47, R175). -/
inductive HostAction where
  /-- `nmi_pending <- 1`. -/
  | raiseNmi
  /-- `irq_pending <- 1`. -/
  | raiseIrq
  /-- `irq_pending <- 0`. -/
  | withdrawIrq
  /-- `reset_pending <- 1`. -/
  | requestReset
  /-- `reset()`. -/
  | reset
  /-- `resetMachine()`. -/
  | resetMachine
  /-- deserialize of a save-state. -/
  | deserialize (saved : SaveState)
  /-- Not done to the core: other buttons are pressed. -/
  | inputChange (n : Nat)
  deriving DecidableEq, Repr

/-- The effect of a host action on the machine (R156, R159, R175). -/
def State.host (s : State) : HostAction → State
  | .raiseNmi => s.raiseNmi
  | .raiseIrq => s.raiseIrq
  | .withdrawIrq => s.withdrawIrq
  | .requestReset => s.requestReset
  | .reset => s.hostReset
  | .resetMachine => s.resetMachine
  | .deserialize saved => s.deserialize saved
  | .inputChange n => s.inputChange n

end Sys2Proof.Machine
end

