-- ==== Sys2Proof/Safety.lean ====
section
/-! DEFINITION. The terms claims are stated in: well-formed states, frames, what an operand is, the bus accesses the spec
lists for each instruction, runs with the host's actions between steps, and the end of a run (R179). -/

namespace Sys2Proof.Machine

/-- The keys memory can hold: RAM bytes (R45) and cartridge addresses (R48). -/
def legalKey (cfg : Config) (k : Nat) : Bool :=
  decide (k < 2 ^ cfg.ramBits.val) || (decide (0x4020 ≤ k) && decide (k < 0x10000))

/-- The memory is in canonical form and holds nothing but RAM and cartridge bytes. -/
def State.wf (s : State) : Bool := Memory.wf s.mem && s.mem.all (fun cell => legalKey s.cfg cell.1)

/-- The address is in the RAM window (R44). -/
abbrev inRam (a : Word) : Prop := a.toNat < 0x2000

/-- No byte of the address space reads otherwise than before. -/
def KeepsEveryByte (s t : State) : Prop := ∀ a : Word, t.peek a = s.peek a

/-- A read of the address answers a byte the state itself holds, not a draw of a device or the mapper: a RAM byte (R45), or a
cartridge byte that is listed (log entry 4). -/
def State.isPlain (s : State) (a : Word) : Bool :=
  match route s.cfg a with
  | .ram _ => true
  | .device _ => false
  | .cart r => (Memory.lookup s.mem r.toNat).isSome

/-- No byte of plain memory (RAM and listed cartridge bytes) reads otherwise than before. The rest of the address space
answers with draws that an access outside RAM may change (R50). -/
def KeepsPlainBytes (s t : State) : Prop := ∀ a : Word, s.isPlain a = true → t.peek a = s.peek a

/-- A store of `v` at `ea` (R45, R48, R51): every RAM address that reaches the stored byte reads as `v`, every other plain
byte reads as before, and where `ea` is in RAM every other address of the whole space does. -/
def StoresExactly (s t : State) (ea : Word) (v : Byte) : Prop :=
  (inRam ea → ∀ a : Word, route s.cfg a = route s.cfg ea → t.peek a = v) ∧
  (∀ a : Word, route s.cfg a ≠ route s.cfg ea → s.isPlain a = true → t.peek a = s.peek a) ∧
  (inRam ea → ∀ a : Word, route s.cfg a ≠ route s.cfg ea → t.peek a = s.peek a) ∧
  (¬ inRam ea → t.mem = s.mem)

/-- No byte of plain memory reads otherwise than before, but for those the addresses `stored` reach. -/
def KeepsPlainBytesExcept (s t : State) (stored : List Word) : Prop :=
  ∀ a : Word, (∀ b ∈ stored, route s.cfg a ≠ route s.cfg b) → s.isPlain a = true → t.peek a = s.peek a

/-- The status byte of R38 as a sum of its bits: `N<<7 | V<<6 | 1<<5 | b<<4 | D<<3 | I<<2 | Z<<1 | C`. -/
def State.statusByte (s : State) (bit4 : Bool) : Byte :=
  BitVec.ofNat 8 (128 * s.n.toNat + 64 * s.v.toNat + 32 + 16 * bit4.toNat + 8 * s.d.toNat + 4 * s.i.toNat +
    2 * s.z.toNat + s.c.toNat)

/-- `M` (00 R17): the immediate byte, or the byte a bus read of the effective address returns. -/
def State.operandValue (s : State) : Operand → Byte
  | .imm n => n
  | .mem m => s.peek (s.locate m).ea

/-- Whether the operand's mode crosses a page (R66). -/
def State.operandCrosses (s : State) : Operand → Bool
  | .imm _ => false
  | .mem m => (s.locate m).crossed

/-- What the devices have seen after the operand's data read (R50). -/
def State.operandHistory (s : State) : Operand → History
  | .imm _ => s.history
  | .mem m => (s.noteRead (s.locate m).ea).history

/-- The pointer reads of a memory mode, low byte then high byte (R58, R76, R77). -/
def State.pointerReads (s : State) : MemMode → List BusEvent
  | .indx n => [.read (zext16 (n + s.x)), .read (secondPtrByte s.cfg (n + s.x))]
  | .indy n => [.read (zext16 n), .read (secondPtrByte s.cfg n)]
  | .zp _ | .zpx _ | .zpy _ | .abs _ | .absx _ | .absy _ => []

/-- The accesses of a reading operand: pointer reads, then the data read (R58). -/
def State.operandReads (s : State) : Operand → List BusEvent
  | .imm _ => []
  | .mem m => s.pointerReads m ++ [.read (s.locate m).ea]

/-- The accesses of a store (R58, R97). -/
def State.storeAccesses (s : State) (m : MemMode) (v : Byte) : List BusEvent :=
  s.pointerReads m ++ [.write (s.locate m).ea v]

/-- The accesses of a read-modify-write: one read, one write (R57, R61). -/
def State.modifyAccesses (s : State) (m : MemMode) (f : Byte → Byte) : List BusEvent :=
  s.pointerReads m ++ [.read (s.locate m).ea, .write (s.locate m).ea (f (s.peek (s.locate m).ea))]

/-- The accesses of a shift or rotate (R125 to R128). -/
def State.shiftAccesses (s : State) (f : Byte → Shifted) : ShiftOperand → List BusEvent
  | .acc => []
  | .mem m => s.modifyAccesses m (fun v => (f v).value)

/-- The three pushes and two vector reads of entering a handler (R58, R160). -/
def State.entryAccesses (s : State) (ret vector : Word) (bit4 : Bool) : List BusEvent :=
  [.write (stackAddr s.sp) (hiByte ret), .write (stackAddr (s.sp - 1#8)) (loByte ret),
    .write (stackAddr (s.sp - 2#8)) (s.packStatus bit4), .read vector, .read (vector + 1#16)]

/-- The bus accesses the spec lists for an instruction after its fetch, in their order (R57, R58). -/
def State.accesses (s : State) : Instr → List BusEvent
  | .lda o | .ldx o | .ldy o | .adc o | .sbc o | .and o | .ora o | .eor o | .cmp o | .cpx o | .cpy o => s.operandReads o
  | .bit m => s.operandReads (.mem m)
  | .sta m => s.storeAccesses m s.a
  | .stx m => s.storeAccesses m s.x
  | .sty m => s.storeAccesses m s.y
  | .inc m => s.modifyAccesses m (fun v => v + 1#8)
  | .dec m => s.modifyAccesses m (fun v => v - 1#8)
  | .asl o => s.shiftAccesses shiftLeft o
  | .lsr o => s.shiftAccesses shiftRight o
  | .rol o => s.shiftAccesses (rotateLeft s.c) o
  | .ror o => s.shiftAccesses (rotateRight s.c) o
  | .pha => [.write (stackAddr s.sp) s.a]
  | .php => [.write (stackAddr s.sp) (s.packStatus true)]
  | .pla | .plp => [.read (stackAddr (s.sp + 1#8))]
  | .jmp (.abs _) => []
  | .jmp (.ind ptr) => [.read ptr, .read (mkWord (page ptr) (loByte ptr + 1#8))]
  | .jsr _ =>
    [.write (stackAddr s.sp) (hiByte (s.pc + 2#16)), .write (stackAddr (s.sp - 1#8)) (loByte (s.pc + 2#16))]
  | .rts => [.read (stackAddr (s.sp + 1#8)), .read (stackAddr (s.sp + 2#8))]
  | .rti =>
    [.read (stackAddr (s.sp + 1#8)), .read (stackAddr (s.sp + 2#8)), .read (stackAddr (s.sp + 3#8))]
  | .brk => s.entryAccesses (s.pc + 2#16) irqVector true
  | .tax | .tay | .txa | .tya | .tsx | .txs | .inx | .iny | .dex | .dey => []
  | .bcc _ | .bcs _ | .beq _ | .bmi _ | .bne _ | .bpl _ | .bvc _ | .bvs _ => []
  | .clc | .cld | .cli | .clv | .sec | .sed | .sei | .nop | .invalid _ => []

/-- Where PHP and BRK push the status byte (R107, R133). -/
def State.statusPushedAt (s : State) : Instr → Option Word
  | .php => some (stackAddr s.sp)
  | .brk => some (stackAddr (s.sp - 2#8))
  | _ => none

/-- A byte without bit 3, the place of D in the status byte (R38). -/
def withoutD (v : Byte) : Byte := v &&& 0xF7#8

/-- An access, with bit 3 of the byte left out where it is a write at the address `p`. -/
def accessWithoutD (p : Option Word) : BusEvent → BusEvent
  | .write a v => if p = some a then .write a (withoutD v) else .write a v
  | .read a => .read a
  | .deviceReset => .deviceReset
  | .inputChange n => .inputChange n

/-- The instruction fetched at `pc` is one whose opcode byte is `v` (R64, R153). -/
def FetchesOpcode (s : State) (pc : Word) (v : Byte) : Prop :=
  let i := (State.fetch { s with pc := pc }).1
  i.opcode = some v ∧ ∃ b1 b2 : Byte, i = decodeOp v b1 b2

/-- The accesses of fetching the instruction `i` at PC: the opcode byte, then its operand bytes (R58, R153). -/
def State.fetchReads (s : State) (i : Instr) : List BusEvent :=
  match i.operandBytes with
  | 0 => [.read s.pc]
  | 1 => [.read s.pc, .read (s.pc + 1#16)]
  | _ => [.read s.pc, .read (s.pc + 1#16), .read (s.pc + 2#16)]

/-- The penalty of a branch (R134). -/
def State.branchPenalty (s : State) (taken : Bool) (d : Byte) : Nat :=
  if taken then 1 + (page (branchTarget s.pc d) != page (s.pc + 2#16)).toNat else 0

/-- The penalty cycles of an instruction (70 R186): a page cross of the reading instructions that pay for it (R66); a branch
taken, and once more when the target's page is not that of the next instruction (R134). -/
def State.penalty (s : State) : Instr → Nat
  | .lda o | .ldx o | .ldy o | .adc o | .sbc o | .and o | .ora o | .eor o | .cmp o => (s.operandCrosses o).toNat
  | .bcc d => s.branchPenalty (!s.c) d
  | .bcs d => s.branchPenalty s.c d
  | .beq d => s.branchPenalty s.z d
  | .bmi d => s.branchPenalty s.n d
  | .bne d => s.branchPenalty (!s.z) d
  | .bpl d => s.branchPenalty (!s.n) d
  | .bvc d => s.branchPenalty (!s.v) d
  | .bvs d => s.branchPenalty s.v d
  | _ => 0

/-- The instructions that write A (R22). -/
def instrWritesA : Instr → Bool
  | .lda _ | .pla | .txa | .tya | .adc _ | .sbc _ | .and _ | .ora _ | .eor _ => true
  | .asl .acc | .lsr .acc | .rol .acc | .ror .acc => true
  | _ => false

/-- The instructions that write X (R23). -/
def instrWritesX : Instr → Bool
  | .ldx _ | .tax | .tsx | .inx | .dex => true
  | _ => false

/-- The instructions that write Y (R24). -/
def instrWritesY : Instr → Bool
  | .ldy _ | .tay | .iny | .dey => true
  | _ => false

/-- The instructions that write S (R26). -/
def instrWritesS : Instr → Bool
  | .txs | .pha | .php | .pla | .plp | .jsr _ | .rts | .rti | .brk => true
  | _ => false

/-- The instructions that write C (R31). -/
def instrWritesC : Instr → Bool
  | .adc _ | .sbc _ | .cmp _ | .cpx _ | .cpy _ | .asl _ | .lsr _ | .rol _ | .ror _ | .clc | .sec | .plp | .rti => true
  | _ => false

/-- The instructions that write Z, which are those that write N (R32, R37). -/
def instrWritesZ : Instr → Bool
  | .lda _ | .ldx _ | .ldy _ | .tax | .tay | .txa | .tya | .tsx | .pla | .adc _ | .sbc _ | .and _ | .ora _ | .eor _ => true
  | .inc _ | .dec _ | .inx | .iny | .dex | .dey | .asl _ | .lsr _ | .rol _ | .ror _ => true
  | .bit _ | .cmp _ | .cpx _ | .cpy _ | .plp | .rti => true
  | _ => false

/-- The instructions that write I (R33). -/
def instrWritesI : Instr → Bool
  | .cli | .sei | .plp | .rti | .brk => true
  | _ => false

/-- The instructions that write D (R34). -/
def instrWritesD : Instr → Bool
  | .cld | .sed | .plp | .rti => true
  | _ => false

/-- The instructions that write the stored B (R35). -/
def instrWritesB : Instr → Bool
  | .plp | .rti => true
  | _ => false

/-- The instructions that write V (R36). -/
def instrWritesV : Instr → Bool
  | .adc _ | .sbc _ | .bit _ | .clv | .plp | .rti => true
  | _ => false

/-- The eight encodings of R94, R110 to R114 and R116: immediate, zp, zpx, abs, absx, absy, indx, indy. -/
def AccEncodings (mk : Operand → Instr) (imm zp zpx abs absx absy indx indy : Byte) : Prop :=
  ∀ (n : Byte) (a : Word),
    encode (mk (.imm n)) = [imm, n] ∧
    encode (mk (.mem (.zp n))) = [zp, n] ∧
    encode (mk (.mem (.zpx n))) = [zpx, n] ∧
    encode (mk (.mem (.abs a))) = [abs, loByte a, hiByte a] ∧
    encode (mk (.mem (.absx a))) = [absx, loByte a, hiByte a] ∧
    encode (mk (.mem (.absy a))) = [absy, loByte a, hiByte a] ∧
    encode (mk (.mem (.indx n))) = [indx, n] ∧
    encode (mk (.mem (.indy n))) = [indy, n]

/-- The four memory encodings of R119, R120 and R125 to R128: zp, zpx, abs, absx. -/
def ModifyEncodings (mk : MemMode → Instr) (zp zpx abs absx : Byte) : Prop :=
  ∀ (n : Byte) (a : Word),
    encode (mk (.zp n)) = [zp, n] ∧
    encode (mk (.zpx n)) = [zpx, n] ∧
    encode (mk (.abs a)) = [abs, loByte a, hiByte a] ∧
    encode (mk (.absx a)) = [absx, loByte a, hiByte a]

/-- The common branch rule (R134) for one branch with its condition, its opcode (R135 to R142) and its frame. -/
def BranchesWhen (mk : Byte → Instr) (opcode : Byte) (cond : State → Bool) : Prop :=
  ∀ (s : State) (d : Byte),
    encode (mk d) = [opcode, d] ∧
    (cond s = true →
      exec (mk d) s = .next
        { s with
          pc := BitVec.ofInt 16 (s.pc.toNat + 2 + d.toInt)
          cyc :=
            if (BitVec.ofInt 16 (s.pc.toNat + 2 + d.toInt)).toNat / 256 = (s.pc + 2#16).toNat / 256 then 3 else 4 }) ∧
    (cond s = false → exec (mk d) s = .next { s with pc := s.pc + 2#16, cyc := 2 })

/-- Rows of R88, 0x00 to 0x7F: opcode, length, base cycles. -/
def officialRows1 : List (Byte × Nat × Nat) :=
  [
   (0x00, 1, 7), (0x01, 2, 6), (0x05, 2, 3), (0x06, 2, 5), (0x08, 1, 3), (0x09, 2, 2), (0x0A, 1, 2), (0x0D, 3, 4),
   (0x0E, 3, 6), (0x10, 2, 2), (0x11, 2, 5), (0x15, 2, 4), (0x16, 2, 6), (0x18, 1, 2), (0x19, 3, 4), (0x1D, 3, 4),
   (0x1E, 3, 7), (0x20, 3, 6), (0x21, 2, 6), (0x24, 2, 3), (0x25, 2, 3), (0x26, 2, 5), (0x28, 1, 4), (0x29, 2, 2),
   (0x2A, 1, 2), (0x2C, 3, 4), (0x2D, 3, 4), (0x2E, 3, 6), (0x30, 2, 2), (0x31, 2, 5), (0x35, 2, 4), (0x36, 2, 6),
   (0x38, 1, 2), (0x39, 3, 4), (0x3D, 3, 4), (0x3E, 3, 7), (0x40, 1, 6), (0x41, 2, 6), (0x45, 2, 3), (0x46, 2, 5),
   (0x48, 1, 3), (0x49, 2, 2), (0x4A, 1, 2), (0x4C, 3, 3), (0x4D, 3, 4), (0x4E, 3, 6), (0x50, 2, 2), (0x51, 2, 5),
   (0x55, 2, 4), (0x56, 2, 6), (0x58, 1, 2), (0x59, 3, 4), (0x5D, 3, 4), (0x5E, 3, 7), (0x60, 1, 6), (0x61, 2, 6),
   (0x65, 2, 3), (0x66, 2, 5), (0x68, 1, 4), (0x69, 2, 2), (0x6A, 1, 2), (0x6C, 3, 5), (0x6D, 3, 4), (0x6E, 3, 6),
   (0x70, 2, 2), (0x71, 2, 5), (0x75, 2, 4), (0x76, 2, 6), (0x78, 1, 2), (0x79, 3, 4), (0x7D, 3, 4), (0x7E, 3, 7)]

/-- Rows of R88, 0x80 to 0xFF: opcode, length, base cycles. -/
def officialRows2 : List (Byte × Nat × Nat) :=
  [
   (0x81, 2, 6), (0x84, 2, 3), (0x85, 2, 3), (0x86, 2, 3), (0x88, 1, 2), (0x8A, 1, 2), (0x8C, 3, 4), (0x8D, 3, 4),
   (0x8E, 3, 4), (0x90, 2, 2), (0x91, 2, 6), (0x94, 2, 4), (0x95, 2, 4), (0x96, 2, 4), (0x98, 1, 2), (0x99, 3, 5),
   (0x9A, 1, 2), (0x9D, 3, 5), (0xA0, 2, 2), (0xA1, 2, 6), (0xA2, 2, 2), (0xA4, 2, 3), (0xA5, 2, 3), (0xA6, 2, 3),
   (0xA8, 1, 2), (0xA9, 2, 2), (0xAA, 1, 2), (0xAC, 3, 4), (0xAD, 3, 4), (0xAE, 3, 4), (0xB0, 2, 2), (0xB1, 2, 5),
   (0xB4, 2, 4), (0xB5, 2, 4), (0xB6, 2, 4), (0xB8, 1, 2), (0xB9, 3, 4), (0xBA, 1, 2), (0xBC, 3, 4), (0xBD, 3, 4),
   (0xBE, 3, 4), (0xC0, 2, 2), (0xC1, 2, 6), (0xC4, 2, 3), (0xC5, 2, 3), (0xC6, 2, 5), (0xC8, 1, 2), (0xC9, 2, 2),
   (0xCA, 1, 2), (0xCC, 3, 4), (0xCD, 3, 4), (0xCE, 3, 6), (0xD0, 2, 2), (0xD1, 2, 5), (0xD5, 2, 4), (0xD6, 2, 6),
   (0xD8, 1, 2), (0xD9, 3, 4), (0xDD, 3, 4), (0xDE, 3, 7), (0xE0, 2, 2), (0xE1, 2, 6), (0xE4, 2, 3), (0xE5, 2, 3),
   (0xE6, 2, 5), (0xE8, 1, 2), (0xE9, 2, 2), (0xEA, 1, 2), (0xEC, 3, 4), (0xED, 3, 4), (0xEE, 3, 6), (0xF0, 2, 2),
   (0xF1, 2, 5), (0xF5, 2, 4), (0xF6, 2, 6), (0xF8, 1, 2), (0xF9, 3, 4), (0xFD, 3, 4), (0xFE, 3, 7)]

/-- PC is at `END_PC` at a boundary with no flag pending (R179). -/
def State.ended (s : State) (endPc : Word) : Bool :=
  s.pc == endPc && !s.nmiPending && !s.irqPending && !s.resetPending

/-- Whether the host stops at this boundary because of the end address, if the claim names one (R179). -/
def State.atEnd (s : State) : Option Word → Bool
  | none => false
  | some endPc => s.ended endPc

/-- Runs: `RunsTo endPc n s t` says that from `s` the host has called `step()` exactly `n` times, at no boundary that is an
end, with any of its actions between the calls, and that `t` is where the machine stands (60 R156, R175, R179). -/
inductive RunsTo (endPc : Option Word) : Nat → State → State → Prop where
  /-- Nothing has happened yet. -/
  | refl (s : State) : RunsTo endPc 0 s s
  /-- The host calls `step()` once more. -/
  | step {n : Nat} {s t u : State} (h : RunsTo endPc n s t) (go : t.atEnd endPc = false)
    (hs : Machine.step t = .next u) : RunsTo endPc (n + 1) s u
  /-- The host does something between two steps. -/
  | host {n : Nat} {s t : State} (h : RunsTo endPc n s t) (act : HostAction) : RunsTo endPc n s (t.host act)

/-- The run of steps alone, the host doing nothing between them: it stops at the end address, if the claim names one, and else
after `budget` calls of `step()` (R179). -/
def State.runAlone (endPc : Option Word) : Nat → State → Host.Outcome State Fault Refusal
  | 0, s => .next s
  | budget + 1, s =>
    if s.atEnd endPc then .next s
    else
      match Machine.step s with
      | .next t => State.runAlone endPc budget t
      | .fault r => .fault r
      | .refused r => .refused r

/-- Some run leads from `s` to `t`. -/
def Reaches (s t : State) : Prop := ∃ n, RunsTo none n s t

/-- The end of a run (R179), under a step budget: where the claim names no end address, the host has stopped after the
budget; where it names one, the host has stopped there within the budget. -/
def RunEnds (budget : Nat) (s t : State) : Option Word → Prop
  | none => RunsTo none budget s t
  | some endPc => ∃ n ≤ budget, RunsTo (some endPc) n s t ∧ t.ended endPc = true

/-- "A run that never reaches `END_PC` within the budget has not ended" (R179): the budget is spent, no boundary was an end,
and `t` is none. -/
def RunNotEnded (budget : Nat) (endPc : Word) (s t : State) : Prop :=
  RunsTo (some endPc) budget s t ∧ t.ended endPc = false

end Sys2Proof.Machine
end

