-- ==== Sys2Proof/Certificates/Slice0/Obligations.lean ====
section
/-! DEFINITION. The statements for the provers, from the numbered rules of the spec: encoding, memory and bus, whole-machine
rules, the step and its entries, and the instructions family by family. -/

open Sys2Proof Sys2Proof.Machine

/-! Encoding (30_encoding.md) -/

/-- R80, R83, R85, R88, R89: decoding the bytes of a well-formed instruction gives it back, whatever bytes follow. -/
def Obligations.DecodeOfEncodeGivesTheInstructionBack : Prop :=
  ∀ (i : Instr) (rest : List Byte), i.WellFormed → decode (encode i ++ rest) = .ok (i, rest)

/-- R90: every opcode value is a row of the table, official or invalid, and its bytes are what it encodes to. -/
def Obligations.EveryOpcodeValueReencodes : Prop :=
  ∀ op b1 b2 : Byte,
    (decodeOp op b1 b2).WellFormed ∧ encode (decodeOp op b1 b2) = [op, b1, b2].take (1 + operandCount op)

/-- R86, R80: the opcode byte alone determines the length, which is 1, 2 or 3; an invalid opcode has no operand byte. -/
def Obligations.OpcodeByteAloneFixesTheLength : Prop :=
  ∀ op b1 b2 : Byte,
    (decodeOp op b1 b2).length = 1 + operandCount op ∧ operandCount op ≤ 2 ∧
    (op ∈ invalidOpcodes → operandCount op = 0 ∧ decodeOp op b1 b2 = .invalid op)

/-- R88: words of the table, written out byte by byte, are the instructions they stand for. -/
def Obligations.SampleWordsDecode : Prop :=
  decode [0xBD#8, 0xF0#8, 0x02#8] = .ok (.lda (.mem (.absx 0x02F0#16)), []) ∧
  decode [0x96#8, 0xFF#8] = .ok (.stx (.zpy 0xFF#8), []) ∧
  decode [0x71#8, 0x10#8] = .ok (.adc (.mem (.indy 0x10#8)), []) ∧
  decode [0x6A#8] = .ok (.ror .acc, []) ∧
  decode [0x6C#8, 0xFF#8, 0x02#8] = .ok (.jmp (.ind 0x02FF#16), []) ∧
  decode [0x30#8, 0x80#8] = .ok (.bmi 0x80#8, []) ∧
  decode [0x08#8] = .ok (.php, []) ∧
  decode [0xA7#8] = .ok (.invalid 0xA7#8, [])

/-- R88, R185: the length and the base cycle cost of each of the 151 official rows, none of which is an invalid opcode. -/
def Obligations.OfficialRowsHaveTheirLengthAndCycles : Prop :=
  (officialRows1 ++ officialRows2).length = 151 ∧
  ∀ row ∈ officialRows1 ++ officialRows2,
    (decodeOp row.1 0#8 0#8).length = row.2.1 ∧ baseCycles Config.default (decodeOp row.1 0#8 0#8) = row.2.2 ∧
    row.1 ∉ invalidOpcodes

/-! Memory, bus and addressing modes (20_memory.md) -/

/-- R44, R45, R46, R47, R48: where the bus takes an address. -/
def Obligations.BusRoutesEveryAddress : Prop :=
  ∀ (cfg : Config) (a : Word),
    (a.toNat < 0x2000 → route cfg a = .ram (a.toNat % 2 ^ cfg.ramBits.val)) ∧
    (0x2000 ≤ a.toNat → a.toNat < 0x4000 → route cfg a = .device (BitVec.ofNat 16 (0x2000 + a.toNat % 8))) ∧
    (0x4000 ≤ a.toNat → a.toNat < 0x4020 → route cfg a = .device a) ∧
    (0x4020 ≤ a.toNat → route cfg a = .cart a)

/-- R45: a RAM byte answers at every mirror; a read has no side effect; a byte never written is a draw, one per byte. -/
def Obligations.RamAnswersThroughEveryMirror : Prop :=
  ∀ (s : State) (a b : Word) (v : Byte), inRam a → inRam b →
    (s.write8 a v).peek b =
      (if b.toNat % 2 ^ s.cfg.ramBits.val = a.toNat % 2 ^ s.cfg.ramBits.val then v else s.peek b) ∧
    (s.noteRead a).peek b = s.peek b ∧
    (s.noteRead a).history = s.history ∧
    (Memory.lookup s.mem (a.toNat % 2 ^ s.cfg.ramBits.val) = none →
      s.peek a = Config.ramDraw s.boot (a.toNat % 2 ^ s.cfg.ramBits.val))

/-- R46, R50, R51: every read outside RAM is itself seen by what stands behind the bus, at the address it was made; in the device
window it answers a draw of the history, in which a device sees a mirror as its register; and an unlisted cartridge byte is what the cartridge answers; a write outside RAM is an event, changes no byte and no CPU
core state. That a listed cartridge byte answers itself is the model's choice (log entry 4). -/
def Obligations.BusOutsideRamAnswersByDraws : Prop :=
  ∀ (s : State) (a : Word), ¬ inRam a →
    let r := if a.toNat < 0x4000 then BitVec.ofNat 16 (0x2000 + a.toNat % 8) else a
    (s.noteRead a).history = (s.clock, .read a) :: s.history ∧
    (a.toNat < 0x4020 → s.peek a = Config.devRead s.cfg.world s.boot (deviceView s.history) s.clock r) ∧
    (a.toNat < 0x4020 → deviceView (s.noteRead a).history = (s.clock, .read r) :: deviceView s.history) ∧
    (0x4020 ≤ a.toNat →
      (Memory.lookup s.mem a.toNat = none → s.peek a = Config.cartRead s.cfg.world s.boot s.history s.clock a) ∧
      ∀ w : Byte, Memory.lookup s.mem a.toNat = some w → s.peek a = w) ∧
    ∀ v : Byte,
      (s.write8 a v).history = (s.clock, .write a v) :: s.history ∧
      (a.toNat < 0x4020 → deviceView (s.write8 a v).history = (s.clock, .write r v) :: deviceView s.history) ∧
      (s.write8 a v).mem = s.mem ∧ (s.write8 a v).toCpuState = s.toCpuState

/-- R62, R63: a push writes at `0x0100 | S`, in page one, and lowers S; a pull raises S and reads there; S wraps; a pull undoes
a push. -/
def Obligations.PushWritesAndPullReadsPageOne : Prop :=
  ∀ (s : State) (v : Byte),
    (stackAddr s.sp).toNat = 0x100 + s.sp.toNat ∧
    (s.push8 v).sp.toNat = (s.sp.toNat + 255) % 256 ∧
    StoresExactly s (s.push8 v) (stackAddr s.sp) v ∧
    s.push8 v =
      { s with
        sp := (s.push8 v).sp, mem := (s.push8 v).mem, events := s.events ++ [.write (stackAddr s.sp) v] } ∧
    s.pull8.2.sp.toNat = (s.sp.toNat + 1) % 256 ∧
    s.pull8.1 = s.peek (stackAddr s.pull8.2.sp) ∧
    s.pull8.2 = { s with sp := s.pull8.2.sp, events := s.events ++ [.read (stackAddr s.pull8.2.sp)] } ∧
    (s.push8 v).pull8.1 = v ∧ (s.push8 v).pull8.2.sp = s.sp

/-- R70 to R77, R55 and the page-cross bit of R66: the effective address of each memory mode. -/
def Obligations.MemoryModesGiveTheirEffectiveAddress : Prop :=
  ∀ (s : State) (n : Byte) (a : Word),
    let second := fun p : Nat => if s.cfg.zpPtrWrap then (p + 1) % 256 else p + 1
    let pointer := fun p : Nat => mkWord (s.peek (BitVec.ofNat 16 (second p))) (s.peek (BitVec.ofNat 16 p))
    let crosses := fun base ea : Word => decide (base.toNat / 256 ≠ ea.toNat / 256)
    ((s.locate (.zp n)).ea.toNat = n.toNat ∧ (s.locate (.zp n)).crossed = false) ∧
    ((s.locate (.zpx n)).ea.toNat = (n.toNat + s.x.toNat) % 256 ∧ (s.locate (.zpx n)).crossed = false) ∧
    ((s.locate (.zpy n)).ea.toNat = (n.toNat + s.y.toNat) % 256 ∧ (s.locate (.zpy n)).crossed = false) ∧
    ((s.locate (.abs a)).ea = a ∧ (s.locate (.abs a)).crossed = false) ∧
    ((s.locate (.absx a)).ea.toNat = (a.toNat + s.x.toNat) % 65536 ∧
      (s.locate (.absx a)).crossed = crosses a (s.locate (.absx a)).ea) ∧
    ((s.locate (.absy a)).ea.toNat = (a.toNat + s.y.toNat) % 65536 ∧
      (s.locate (.absy a)).crossed = crosses a (s.locate (.absy a)).ea) ∧
    ((s.locate (.indx n)).ea = pointer ((n.toNat + s.x.toNat) % 256) ∧ (s.locate (.indx n)).crossed = false) ∧
    ((s.locate (.indy n)).ea.toNat = ((pointer n.toNat).toNat + s.y.toNat) % 65536 ∧
      (s.locate (.indy n)).crossed = crosses (pointer n.toNat) (s.locate (.indy n)).ea)

/-! Whole-machine rules -/

/-- R56, R154, R178: the core is total: a step always completes, from every state. -/
def Obligations.EveryStepCompletes : Prop :=
  ∀ s : State, ∃ t, step s = .next t

/-- Every step keeps the memory in canonical form and holding nothing but RAM and cartridge bytes. -/
def Obligations.StepKeepsTheMemoryCanonical : Prop :=
  ∀ s t : State, s.wf = true → step s = .next t → t.wf = true

/-- The reset state's memory is canonical, and the reset state is the power-on state of the default parameters, whose register
values are the model's choice (log entry 1). -/
def Obligations.ResetStateIsThePowerOnOfTheDefaults : Prop :=
  State.reset.wf = true ∧ State.reset = State.powerOn Config.default

/-- Every run, with any host action between its steps (R156, R175), keeps the memory canonical. -/
def Obligations.EveryRunKeepsTheMemoryCanonical : Prop :=
  ∀ s t : State, s.wf = true → Reaches s t → t.wf = true

/-- No step changes a listed cartridge byte. The listed bytes are a claim's fixed premise (log entry 4, unsafe), meant for PRG
ROM, which R48 says is immutable after load (R64); of the window's other bytes (save RAM, switched banks) this says nothing. -/
def Obligations.ListedCartridgeBytesNeverChange : Prop :=
  ∀ (s t : State) (k : Nat), step s = .next t → 0x4020 ≤ k → Memory.lookup t.mem k = Memory.lookup s.mem k

/-- R9: the parameters are fixed: no step changes one, nor the name of the power-on (the model's own, log entry 16). R60: the devices' time advances by the cycle count the step returns, and
only after it (the clock that counts this is the model's own, log entry 12). -/
def Obligations.StepKeepsTheParametersAndAdvancesTheClock : Prop :=
  ∀ s t : State, step s = .next t → t.cfg = s.cfg ∧ t.boot = s.boot ∧ t.clock = s.clock + t.cyc

/-- R20, R40, R159: a step sets no pending flag, and no instruction changes one. -/
def Obligations.StepOnlyClearsPendingFlags : Prop :=
  (∀ s t : State, step s = .next t →
    (t.nmiPending = true → s.nmiPending = true) ∧ (t.irqPending = true → s.irqPending = true) ∧
    t.resetPending = false) ∧
  ∀ (i : Instr) (s t : State), exec i s = .next t →
    t.nmiPending = s.nmiPending ∧ t.irqPending = s.irqPending ∧ t.resetPending = s.resetPending

/-- R22 to R26, R31 to R37: a register or flag that an instruction changes is one the spec lists it as a writer of. -/
def Obligations.RegistersAndFlagsChangeOnlyByTheirWriters : Prop :=
  ∀ (i : Instr) (s t : State), exec i s = .next t →
    (t.a ≠ s.a → instrWritesA i = true) ∧ (t.x ≠ s.x → instrWritesX i = true) ∧
    (t.y ≠ s.y → instrWritesY i = true) ∧ (t.sp ≠ s.sp → instrWritesS i = true) ∧
    (t.c ≠ s.c → instrWritesC i = true) ∧ (t.z ≠ s.z → instrWritesZ i = true) ∧
    (t.n ≠ s.n → instrWritesZ i = true) ∧ (t.i ≠ s.i → instrWritesI i = true) ∧
    (t.d ≠ s.d → instrWritesD i = true) ∧ (t.b ≠ s.b → instrWritesB i = true) ∧
    (t.v ≠ s.v → instrWritesV i = true)

/-- R34, R3: no instruction's result depends on D: every register, flag, byte and access is the same, but for bit 3 of the status
byte that PHP and BRK push. -/
def Obligations.DecimalFlagIsInert : Prop :=
  ∀ (i : Instr) (s t : State) (d : Bool), exec i s = .next t → ∃ u, exec i { s with d := d } = .next u ∧
    u.pc = t.pc ∧ u.a = t.a ∧ u.x = t.x ∧ u.y = t.y ∧ u.sp = t.sp ∧ u.c = t.c ∧ u.z = t.z ∧ u.i = t.i ∧ u.b = t.b ∧
    u.v = t.v ∧ u.n = t.n ∧ u.cyc = t.cyc ∧ u.history = t.history ∧
    (s.statusPushedAt i = none → u.mem = t.mem ∧ u.events = t.events) ∧
    (∀ a : Word, (∀ p, s.statusPushedAt i = some p → route s.cfg a ≠ route s.cfg p) → u.peek a = t.peek a) ∧
    (∀ p, s.statusPushedAt i = some p → withoutD (u.peek p) = withoutD (t.peek p)) ∧
    u.events.map (accessWithoutD (s.statusPushedAt i)) = t.events.map (accessWithoutD (s.statusPushedAt i))

/-- R35: with `IRQ_PUSHED_B = zero` the stored B is unobservable: a step from a state with another B ends in the same state
but for B. -/
def Obligations.StoredBreakFlagIsUnobservable : Prop :=
  ∀ (s t : State) (b : Bool), s.cfg.irqPushedB = .zero → step s = .next t →
    ∃ b' : Bool, step { s with b := b } = .next { t with b := b' }

/-- R41: no rule of the core reads `cyc`. -/
def Obligations.CycleCounterIsNeverRead : Prop :=
  ∀ (s : State) (k : Nat), step { s with cyc := k } = step s

/-! The step, interrupts and reset (60_exceptions.md, 70_reset_and_hazards.md) -/

/-- R153: when the bytes at PC decode to an instruction, it is well formed and the step is its exec in the state after the
fetch; then the devices' time advances. -/
def Obligations.StepRunsTheDecodedInstruction : Prop :=
  ∀ (s : State) (i : Instr) (rest : List Byte),
    let s0 := s.beginStep.maskedIrq
    let s1 := s0.noteRead s0.pc
    let s2 := s1.noteRead (s0.pc + 1#16)
    let s3 := s2.noteRead (s0.pc + 2#16)
    let fetched := match i.operandBytes with
      | 0 => s1
      | 1 => s2
      | _ => s3
    s.action = .instruction →
    decode [s0.peek s0.pc, s1.peek (s0.pc + 1#16), s2.peek (s0.pc + 2#16)] = .ok (i, rest) →
    i.WellFormed ∧
    step s = match exec i fetched with
      | .next t => .next t.endStep
      | .fault r => .fault r
      | .refused r => .refused r

/-- R57, R58: a step makes exactly the bus accesses the rules list, in their order, and no others. -/
def Obligations.StepMakesExactlyTheListedAccesses : Prop :=
  ∀ s t : State, step s = .next t →
    match s.action with
    | .reset => t.events = [.read 0xFFFC#16, .read 0xFFFD#16]
    | .nmi => t.events = s.entryAccesses s.pc 0xFFFA#16 s.entryBit4
    | .irq => t.events = s.entryAccesses s.pc 0xFFFE#16 s.entryBit4
    | .instruction =>
      let f := s.beginStep.maskedIrq.fetch
      t.events = s.fetchReads f.1 ++ f.2.accesses f.1

/-- R152, R157: at a boundary reset goes first, then NMI whatever I is, then IRQ if I = 0, then an instruction. -/
def Obligations.BoundaryPriority : Prop :=
  ∀ s : State,
    (s.resetPending = true → step s = .next s.beginStep.resetSequence.endStep) ∧
    (s.resetPending = false → s.nmiPending = true → step s = .next s.beginStep.nmiEntry.endStep) ∧
    (s.resetPending = false → s.nmiPending = false → s.irqPending = true → s.i = false →
      step s = .next s.beginStep.irqEntry.endStep) ∧
    (s.resetPending = false → s.nmiPending = false → (s.irqPending = false ∨ s.i = true) →
      step s = s.beginStep.maskedIrq.runInstruction)

/-- R64, R190: a byte stored in RAM is the opcode that the very next fetch from any address reaching it decodes: after a bus write,
and after any instruction, for each byte it stores or pushes that it does not itself overwrite. -/
def Obligations.StoredByteIsFetchedAtOnce : Prop :=
  (∀ (s : State) (a pc : Word) (v : Byte), inRam a → route s.cfg pc = route s.cfg a → FetchesOpcode (s.write8 a v) pc v) ∧
  ∀ (i : Instr) (s t : State) (a pc : Word) (v : Byte) (before after : List BusEvent), exec i s = .next t →
    s.accesses i = before ++ .write a v :: after →
    (∀ b w, .write b w ∈ after → route s.cfg b ≠ route s.cfg a) →
    inRam a → route s.cfg pc = route s.cfg a → FetchesOpcode t pc v

/-- R156, R159, R175, R176, R181, R182: what the host and the other blocks do between steps, and all that it changes. A change of
the buttons (R47) is seen by the devices and changes nothing else (log entry 14). -/
def Obligations.HostActionsChangeOnlyTheirPart : Prop :=
  ∀ (s : State) (saved : SaveState) (n : Nat),
    s.host .raiseNmi = { s with nmiPending := true } ∧ s.host .raiseIrq = { s with irqPending := true } ∧
    s.host .withdrawIrq = { s with irqPending := false } ∧ s.host .requestReset = { s with resetPending := true } ∧
    s.host .reset = State.resetSequence { s with events := [] } ∧ (s.host .reset).clock = s.clock ∧
    s.host .resetMachine = { s.host .reset with history := (s.clock, .deviceReset) :: (s.host .reset).history } ∧
    s.host (.inputChange n) = { s with history := (s.clock, .inputChange n) :: s.history } ∧
    s.host (.deserialize saved) = s.deserialize saved ∧
    (s.wf = true → s.host (.deserialize s.serialize) = s)

/-- R175, R176, R155, R45: deserializing a save-state into any machine with the same RAM size and the same listed cartridge bytes
(log entry 4), of whatever power-on, gives exactly the state that was saved, with the parameters of the machine that takes it;
every RAM byte, a never-written one too, reads as in the saved state (log entry 16). What a save-state holds is what serialize then
takes; a corrupt one (log entry 14) changes nothing; and no listed cartridge byte changes. -/
def Obligations.DeserializeRestoresTheSavedState : Prop :=
  (∀ s t : State, s.wf = true → t.wf = true → t.cfg.ramBits = s.cfg.ramBits →
    (∀ k, 0x4020 ≤ k → Memory.lookup t.mem k = Memory.lookup s.mem k) →
    t.deserialize s.serialize = { s with cfg := t.cfg } ∧
    ∀ a : Word, inRam a → (t.deserialize s.serialize).peek a = s.peek a) ∧
  ∀ (t : State) (saved : SaveState),
    (saved.valid t.cfg = true → (t.deserialize saved).serialize = saved) ∧
    (saved.valid t.cfg = false → t.deserialize saved = t) ∧
    ∀ k, 0x4020 ≤ k → Memory.lookup (t.deserialize saved).mem k = Memory.lookup t.mem k

/-- R179: every run that has used its step budget either is at the end address with nothing pending or has not ended, never both.
The run of steps alone ends within the budget or spends it unended, never both; it ends exactly when one of the boundaries after 0
to `budget` steps is an end; and a larger budget keeps the end. -/
def Obligations.RunEndsAtEndPcOrSpendsTheBudget : Prop :=
  ∀ (s : State) (budget : Nat) (endPc : Word),
    (∀ t, RunsTo (some endPc) budget s t →
      (t.ended endPc = true ∧ ¬ RunNotEnded budget endPc s t) ∨ (t.ended endPc = false ∧ RunNotEnded budget endPc s t)) ∧
    ∃ t, State.runAlone (some endPc) budget s = .next t ∧
      ((RunEnds budget s t (some endPc) ∧ ¬ RunNotEnded budget endPc s t) ∨
        (RunNotEnded budget endPc s t ∧ ¬ RunEnds budget s t (some endPc))) ∧
      (t.ended endPc = true ↔ ∃ n ≤ budget, ∃ u, State.runAlone none n s = .next u ∧ u.ended endPc = true) ∧
      (t.ended endPc = true → ∀ more, budget ≤ more → State.runAlone (some endPc) more s = .next t)

/-- R38: the layout of the status byte, packed and unpacked; bit 5 is pushed as 1 and discarded when pulled. -/
def Obligations.StatusByteLayout : Prop :=
  ∀ (s : State) (bit4 : Bool) (p : Byte),
    s.packStatus bit4 = s.statusByte bit4 ∧
    s.unpackStatus p =
      { s with
        n := decide (p.toNat / 128 % 2 = 1), v := decide (p.toNat / 64 % 2 = 1), b := decide (p.toNat / 16 % 2 = 1)
        d := decide (p.toNat / 8 % 2 = 1), i := decide (p.toNat / 4 % 2 = 1), z := decide (p.toNat / 2 % 2 = 1)
        c := decide (p.toNat % 2 = 1) }

/-- R160, R162, R163: NMI entry pushes PC and the status byte, clears B, sets I under `NMI_SETS_I`, clears the request,
loads PC from 0xFFFA and costs 7 cycles; nothing else changes. The listed cartridge bytes of the frame are a claim's fixed
premise, the model's choice (log entry 4, unsafe). -/
def Obligations.NmiEntrySavesAndVectors : Prop :=
  ∀ s : State,
    let t := s.nmiEntry
    let bit4 := match s.cfg.irqPushedB with
      | .zero => false
      | .stored => s.b
    t.peek (stackAddr (s.sp - 2#8)) = s.statusByte bit4 ∧
    (2 ≤ s.cfg.ramBits.val →
      t.peek (stackAddr s.sp) = hiByte s.pc ∧ t.peek (stackAddr (s.sp - 1#8)) = loByte s.pc) ∧
    KeepsPlainBytesExcept s t [stackAddr s.sp, stackAddr (s.sp - 1#8), stackAddr (s.sp - 2#8)] ∧
    t =
      { s with
        pc := (s.read16 0xFFFA#16).1, sp := s.sp - 3#8, b := false, i := s.cfg.nmiSetsI || s.i, cyc := 7
        nmiPending := false, mem := t.mem, events := s.events ++ s.entryAccesses s.pc 0xFFFA#16 bit4
        history := (s.read16 0xFFFA#16).2.history }

/-- R161, R162, R163: IRQ entry pushes PC and the status byte, clears B, sets I, clears the request, loads PC from 0xFFFE
and costs 7 cycles; nothing else changes. The listed cartridge bytes of the frame are a claim's fixed premise, the model's
choice (log entry 4, unsafe). -/
def Obligations.IrqEntrySavesAndVectors : Prop :=
  ∀ s : State,
    let t := s.irqEntry
    let bit4 := match s.cfg.irqPushedB with
      | .zero => false
      | .stored => s.b
    t.peek (stackAddr (s.sp - 2#8)) = s.statusByte bit4 ∧
    (2 ≤ s.cfg.ramBits.val →
      t.peek (stackAddr s.sp) = hiByte s.pc ∧ t.peek (stackAddr (s.sp - 1#8)) = loByte s.pc) ∧
    KeepsPlainBytesExcept s t [stackAddr s.sp, stackAddr (s.sp - 1#8), stackAddr (s.sp - 2#8)] ∧
    t =
      { s with
        pc := (s.read16 0xFFFE#16).1, sp := s.sp - 3#8, b := false, i := true, cyc := 7
        irqPending := false, mem := t.mem, events := s.events ++ s.entryAccesses s.pc 0xFFFE#16 bit4
        history := (s.read16 0xFFFE#16).2.history }

/-- R158: a pending IRQ found while I = 1 is not taken; it stays pending, is dropped, or either by a free choice. -/
def Obligations.MaskedIrqIsHeldOrDropped : Prop :=
  ∀ s t : State, s.resetPending = false → s.nmiPending = false → s.irqPending = true → s.i = true →
    step s = .next t →
    s.action = .instruction ∧
    (s.cfg.irqMasked = .held → t.irqPending = true) ∧
    (s.cfg.irqMasked = .dropped → t.irqPending = false) ∧
    (s.cfg.irqMasked = .either →
      t.irqPending = !Config.dropMasked s.cfg.world s.draws ∧ t.draws = s.draws + 1)

/-- R166: what entering a handler saves, returning restores: PC, S and the flags; B takes the pushed bit 4. The premise, RAM of at
least four bytes, keeps the three stacked bytes apart. -/
def Obligations.ReturnRestoresWhatEntrySaved : Prop :=
  ∀ (s : State) (ret : Word) (vector : Word) (bit4 clearB setI : Bool), 2 ≤ s.cfg.ramBits.val →
    let t := (s.enterHandler ret vector bit4 clearB setI).leaveHandler
    t.pc = ret ∧ t.sp = s.sp ∧ t.n = s.n ∧ t.v = s.v ∧ t.d = s.d ∧ t.i = s.i ∧ t.z = s.z ∧ t.c = s.c ∧ t.b = bit4 ∧
    t.a = s.a ∧ t.x = s.x ∧ t.y = s.y

/-- R189, R192: the I that an instruction leaves governs the very next boundary: a pending IRQ is the next step if I = 0 and is
not if I = 1. -/
def Obligations.InterruptDisableTakesEffectAtOnce : Prop :=
  (∀ (i : Instr) (s t : State), exec i s = .next t → s.resetPending = false → s.nmiPending = false →
    t.endStep.action = if s.irqPending && !t.i then .irq else .instruction) ∧
  ∀ s : State, (∃ t, exec .cli s = .next t ∧ t.i = false) ∧ ∃ t, exec .sei s = .next t ∧ t.i = true

/-- R180: the reset sequence: every register and flag, the vector, the cycle count, and the two reads that are its only
accesses. -/
def Obligations.ResetSequenceLeaves : Prop :=
  ∀ s : State,
    s.resetSequence =
      { s with
        a := s.cfg.resetA, x := s.cfg.resetX, y := s.cfg.resetY, sp := s.cfg.resetS, c := s.cfg.resetC
        z := s.cfg.resetZ, d := s.cfg.resetD, v := s.cfg.resetV, n := s.cfg.resetN, b := s.cfg.resetB, i := true
        nmiPending := false, irqPending := false, resetPending := false
        pc := mkWord ((s.noteRead 0xFFFC#16).peek 0xFFFD#16) (s.peek 0xFFFC#16)
        cyc := s.cfg.resetCycles, events := s.events ++ [.read 0xFFFC#16, .read 0xFFFD#16]
        history := ((s.noteRead 0xFFFC#16).noteRead 0xFFFD#16).history }

/-- R42: the state after power-on, for all values of the parameters. -/
def Obligations.PowerOnStateHoldsTheResetValues : Prop :=
  ∀ cfg : Config,
    let t := State.powerOn cfg
    t.pc = ((State.blank cfg).read16 0xFFFC#16).1 ∧ t.a = cfg.resetA ∧ t.x = cfg.resetX ∧ t.y = cfg.resetY ∧
    t.sp = cfg.resetS ∧ t.i = true ∧ t.c = cfg.resetC ∧ t.z = cfg.resetZ ∧ t.d = cfg.resetD ∧ t.v = cfg.resetV ∧
    t.n = cfg.resetN ∧ t.b = cfg.resetB ∧ t.nmiPending = false ∧ t.irqPending = false ∧ t.resetPending = false ∧
    t.cyc = cfg.resetCycles

/-- R184, R186, R163: the cycle count of a step, by what it did. -/
def Obligations.StepReturnsItsCycleCount : Prop :=
  ∀ s t : State, step s = .next t →
    match s.action with
    | .reset => t.cyc = s.cfg.resetCycles
    | .nmi => t.cyc = 7
    | .irq => t.cyc = 7
    | .instruction =>
      let f := s.beginStep.maskedIrq.fetch
      t.cyc = baseCycles s.cfg f.1 + f.2.penalty f.1

/-! Loads, stores and transfers (40_load_store_transfer.md) -/

/-- R94, R95, R96: LDA, LDX and LDY in every mode: the register, N and Z, PC, cycles, encodings, and the frame. The listed
cartridge bytes of the frame are a claim's fixed premise, the model's choice (log entry 4, unsafe). It also speaks of modes
that are no row of the table (log entry 13). -/
def Obligations.LoadsSetTheRegisterAndNZ : Prop :=
  AccEncodings .lda 0xA9 0xA5 0xB5 0xAD 0xBD 0xB9 0xA1 0xB1 ∧
  (∀ (n : Byte) (a : Word),
    encode (.ldx (.imm n)) = [0xA2, n] ∧ encode (.ldx (.mem (.zp n))) = [0xA6, n] ∧
    encode (.ldx (.mem (.zpy n))) = [0xB6, n] ∧ encode (.ldx (.mem (.abs a))) = [0xAE, loByte a, hiByte a] ∧
    encode (.ldx (.mem (.absy a))) = [0xBE, loByte a, hiByte a] ∧
    encode (.ldy (.imm n)) = [0xA0, n] ∧ encode (.ldy (.mem (.zp n))) = [0xA4, n] ∧
    encode (.ldy (.mem (.zpx n))) = [0xB4, n] ∧ encode (.ldy (.mem (.abs a))) = [0xAC, loByte a, hiByte a] ∧
    encode (.ldy (.mem (.absx a))) = [0xBC, loByte a, hiByte a]) ∧
  ∀ (s : State) (o : Operand),
    let m := s.operandValue o
    (∃ t, exec (.lda o) s = .next t ∧ KeepsPlainBytes s t ∧
      t =
        { s with
          a := m, n := decide (128 ≤ m.toNat), z := decide (m.toNat = 0)
          pc := s.pc + BitVec.ofNat 16 (1 + o.operandBytes)
          cyc := baseCycles s.cfg (.lda o) + (s.operandCrosses o).toNat
          events := s.events ++ s.operandReads o, history := s.operandHistory o }) ∧
    (∃ t, exec (.ldx o) s = .next t ∧ KeepsPlainBytes s t ∧
      t =
        { s with
          x := m, n := decide (128 ≤ m.toNat), z := decide (m.toNat = 0)
          pc := s.pc + BitVec.ofNat 16 (1 + o.operandBytes)
          cyc := baseCycles s.cfg (.ldx o) + (s.operandCrosses o).toNat
          events := s.events ++ s.operandReads o, history := s.operandHistory o }) ∧
    ∃ t, exec (.ldy o) s = .next t ∧ KeepsPlainBytes s t ∧
      t =
        { s with
          y := m, n := decide (128 ≤ m.toNat), z := decide (m.toNat = 0)
          pc := s.pc + BitVec.ofNat 16 (1 + o.operandBytes)
          cyc := baseCycles s.cfg (.ldy o) + (s.operandCrosses o).toNat
          events := s.events ++ s.operandReads o, history := s.operandHistory o }

/-- R97, R98, R99: STA, STX and STY in every mode: the byte stored, no flag, PC, cycles without a penalty, encodings, and
the frame. The listed cartridge bytes of the frame are a claim's fixed premise, the model's choice (log entry 4, unsafe). It
also speaks of modes that are no row of the table (log entry 13). -/
def Obligations.StoresWriteTheRegister : Prop :=
  (∀ (n : Byte) (a : Word),
    encode (.sta (.zp n)) = [0x85, n] ∧ encode (.sta (.zpx n)) = [0x95, n] ∧
    encode (.sta (.abs a)) = [0x8D, loByte a, hiByte a] ∧ encode (.sta (.absx a)) = [0x9D, loByte a, hiByte a] ∧
    encode (.sta (.absy a)) = [0x99, loByte a, hiByte a] ∧ encode (.sta (.indx n)) = [0x81, n] ∧
    encode (.sta (.indy n)) = [0x91, n] ∧
    encode (.stx (.zp n)) = [0x86, n] ∧ encode (.stx (.zpy n)) = [0x96, n] ∧
    encode (.stx (.abs a)) = [0x8E, loByte a, hiByte a] ∧
    encode (.sty (.zp n)) = [0x84, n] ∧ encode (.sty (.zpx n)) = [0x94, n] ∧
    encode (.sty (.abs a)) = [0x8C, loByte a, hiByte a]) ∧
  ∀ (s : State) (m : MemMode),
    let ea := (s.locate m).ea
    (∃ t, exec (.sta m) s = .next t ∧ StoresExactly s t ea s.a ∧
      t =
        { s with
          pc := s.pc + BitVec.ofNat 16 (1 + m.operandBytes), cyc := baseCycles s.cfg (.sta m), mem := t.mem
          events := s.events ++ s.storeAccesses m s.a, history := (s.write8 ea s.a).history }) ∧
    (∃ t, exec (.stx m) s = .next t ∧ StoresExactly s t ea s.x ∧
      t =
        { s with
          pc := s.pc + BitVec.ofNat 16 (1 + m.operandBytes), cyc := baseCycles s.cfg (.stx m), mem := t.mem
          events := s.events ++ s.storeAccesses m s.x, history := (s.write8 ea s.x).history }) ∧
    ∃ t, exec (.sty m) s = .next t ∧ StoresExactly s t ea s.y ∧
      t =
        { s with
          pc := s.pc + BitVec.ofNat 16 (1 + m.operandBytes), cyc := baseCycles s.cfg (.sty m), mem := t.mem
          events := s.events ++ s.storeAccesses m s.y, history := (s.write8 ea s.y).history }

/-- R100 to R105: the transfers; TXS writes no flag. -/
def Obligations.TransfersCopyTheRegister : Prop :=
  encode .tax = [0xAA] ∧ encode .tay = [0xA8] ∧ encode .txa = [0x8A] ∧ encode .tya = [0x98] ∧ encode .tsx = [0xBA] ∧
  encode .txs = [0x9A] ∧
  ∀ s : State,
    let nz := fun (v : Byte) (t : State) =>
      { t with n := decide (128 ≤ v.toNat), z := decide (v.toNat = 0), pc := s.pc + 1#16, cyc := 2 }
    exec .tax s = .next (nz s.a { s with x := s.a }) ∧
    exec .tay s = .next (nz s.a { s with y := s.a }) ∧
    exec .txa s = .next (nz s.x { s with a := s.x }) ∧
    exec .tya s = .next (nz s.y { s with a := s.y }) ∧
    exec .tsx s = .next (nz s.sp { s with x := s.sp }) ∧
    exec .txs s = .next { s with sp := s.x, pc := s.pc + 1#16, cyc := 2 } ∧
    ∀ i ∈ [Instr.tax, .tay, .txa, .tya, .tsx, .txs], ∀ t, exec i s = .next t → KeepsEveryByte s t

/-! The stack (41_stack.md) -/

/-- R106, R107: PHA and PHP: the byte pushed, S one lower modulo 256, no flag; PHP pushes bits 5 and 4 as 1 whatever B is. -/
def Obligations.PushInstructionsStoreOnTheStack : Prop :=
  encode .pha = [0x48] ∧ encode .php = [0x08] ∧
  ∀ s : State,
    (∃ t, exec .pha s = .next t ∧ StoresExactly s t (stackAddr s.sp) s.a ∧
      t =
        { s with
          sp := s.sp - 1#8, pc := s.pc + 1#16, cyc := 3, mem := t.mem
          events := s.events ++ [.write (stackAddr s.sp) s.a] }) ∧
    ∃ t, exec .php s = .next t ∧ StoresExactly s t (stackAddr s.sp) (s.statusByte true) ∧
      t =
        { s with
          sp := s.sp - 1#8, pc := s.pc + 1#16, cyc := 3, mem := t.mem
          events := s.events ++ [.write (stackAddr s.sp) (s.statusByte true)] }

/-- R108, R109: PLA and PLP: the byte pulled, S one higher modulo 256; PLA sets N and Z, PLP all seven flags. -/
def Obligations.PullInstructionsReadTheStack : Prop :=
  encode .pla = [0x68] ∧ encode .plp = [0x28] ∧
  ∀ s : State,
    let p := s.peek (stackAddr (s.sp + 1#8))
    (∃ t, exec .pla s = .next t ∧ KeepsEveryByte s t ∧
      t =
        { s with
          a := p, n := decide (128 ≤ p.toNat), z := decide (p.toNat = 0), sp := s.sp + 1#8, pc := s.pc + 1#16, cyc := 4
          events := s.events ++ [.read (stackAddr (s.sp + 1#8))] }) ∧
    ∃ t, exec .plp s = .next t ∧ KeepsEveryByte s t ∧
      t =
        { s with
          n := p.getLsbD 7, v := p.getLsbD 6, b := p.getLsbD 4, d := p.getLsbD 3, i := p.getLsbD 2, z := p.getLsbD 1
          c := p.getLsbD 0, sp := s.sp + 1#8, pc := s.pc + 1#16, cyc := 4
          events := s.events ++ [.read (stackAddr (s.sp + 1#8))] }

/-! Arithmetic, logic and compare (42_arith_logic.md) -/

/-- R110: ADC in every mode: the exact sum modulo 256, C above 255, V by the rule's formula, which is signed overflow, N and
Z; D is not read; and the frame. The listed cartridge bytes of the frame are a claim's fixed premise, the model's choice
(log entry 4, unsafe). It also speaks of modes that are no row of the table (log entry 13). -/
def Obligations.AdcAddsWithCarry : Prop :=
  AccEncodings .adc 0x69 0x65 0x75 0x6D 0x7D 0x79 0x61 0x71 ∧
  ∀ (s : State) (o : Operand), ∃ t, exec (.adc o) s = .next t ∧ KeepsPlainBytes s t ∧
    (let m := s.operandValue o
     let sum := s.a.toNat + m.toNat + s.c.toNat
     let signed : Int := s.a.toInt + m.toInt + s.c.toNat
     t.a.toNat = sum % 256 ∧ t.c = decide (255 < sum) ∧
     t.v = (((s.a ^^^ t.a) &&& (m ^^^ t.a) &&& 0x80#8) != 0#8) ∧
     (t.v = true ↔ signed < -128 ∨ 127 < signed) ∧
     t.n = decide (128 ≤ t.a.toNat) ∧ t.z = decide (t.a.toNat = 0)) ∧
    t =
      { s with
        a := t.a, c := t.c, v := t.v, n := t.n, z := t.z, pc := s.pc + BitVec.ofNat 16 (1 + o.operandBytes)
        cyc := baseCycles s.cfg (.adc o) + (s.operandCrosses o).toNat
        events := s.events ++ s.operandReads o, history := s.operandHistory o }

/-- R111: SBC in every mode: the exact difference modulo 256, C for no borrow, V by the rule's formula, which is signed
overflow, N and Z; D is not read; and the frame. The listed cartridge bytes of the frame are a claim's fixed premise, the
model's choice (log entry 4, unsafe). It also speaks of modes that are no row of the table (log entry 13). -/
def Obligations.SbcSubtractsWithBorrow : Prop :=
  AccEncodings .sbc 0xE9 0xE5 0xF5 0xED 0xFD 0xF9 0xE1 0xF1 ∧
  ∀ (s : State) (o : Operand), ∃ t, exec (.sbc o) s = .next t ∧ KeepsPlainBytes s t ∧
    (let m := s.operandValue o
     let borrow := 1 - s.c.toNat
     let signed : Int := s.a.toInt - m.toInt - borrow
     t.a.toNat = (s.a.toNat + 256 - m.toNat - borrow) % 256 ∧ t.c = decide (m.toNat + borrow ≤ s.a.toNat) ∧
     t.v = (((s.a ^^^ m) &&& (s.a ^^^ t.a) &&& 0x80#8) != 0#8) ∧
     (t.v = true ↔ signed < -128 ∨ 127 < signed) ∧
     t.n = decide (128 ≤ t.a.toNat) ∧ t.z = decide (t.a.toNat = 0)) ∧
    t =
      { s with
        a := t.a, c := t.c, v := t.v, n := t.n, z := t.z, pc := s.pc + BitVec.ofNat 16 (1 + o.operandBytes)
        cyc := baseCycles s.cfg (.sbc o) + (s.operandCrosses o).toNat
        events := s.events ++ s.operandReads o, history := s.operandHistory o }

/-- R112, R113, R114: AND, ORA and EOR in every mode: A bit by bit, N and Z; C and V unchanged; and the frame. The listed
cartridge bytes of the frame are a claim's fixed premise, the model's choice (log entry 4, unsafe). It also speaks of modes
that are no row of the table (log entry 13). -/
def Obligations.LogicCombinesBitByBit : Prop :=
  AccEncodings .and 0x29 0x25 0x35 0x2D 0x3D 0x39 0x21 0x31 ∧
  AccEncodings .ora 0x09 0x05 0x15 0x0D 0x1D 0x19 0x01 0x11 ∧
  AccEncodings .eor 0x49 0x45 0x55 0x4D 0x5D 0x59 0x41 0x51 ∧
  ∀ (s : State) (o : Operand),
    let m := s.operandValue o
    let frame := fun (i : Instr) (t : State) =>
      KeepsPlainBytes s t ∧ t.n = decide (128 ≤ t.a.toNat) ∧ t.z = decide (t.a.toNat = 0) ∧
      t =
        { s with
          a := t.a, n := t.n, z := t.z, pc := s.pc + BitVec.ofNat 16 (1 + o.operandBytes)
          cyc := baseCycles s.cfg i + (s.operandCrosses o).toNat
          events := s.events ++ s.operandReads o, history := s.operandHistory o }
    (∃ t, exec (.and o) s = .next t ∧ frame (.and o) t ∧
      ∀ k, t.a.getLsbD k = (s.a.getLsbD k && m.getLsbD k)) ∧
    (∃ t, exec (.ora o) s = .next t ∧ frame (.ora o) t ∧
      ∀ k, t.a.getLsbD k = (s.a.getLsbD k || m.getLsbD k)) ∧
    ∃ t, exec (.eor o) s = .next t ∧ frame (.eor o) t ∧
      ∀ k, t.a.getLsbD k = (s.a.getLsbD k ^^ m.getLsbD k)

/-- R115: BIT in both modes: Z of `A & M`, N and V from M alone; A and C unchanged; and the frame. The listed cartridge
bytes of the frame are a claim's fixed premise, the model's choice (log entry 4, unsafe). -/
def Obligations.BitTestsTheOperand : Prop :=
  (∀ (n : Byte) (a : Word), encode (.bit (.zp n)) = [0x24, n] ∧ encode (.bit (.abs a)) = [0x2C, loByte a, hiByte a]) ∧
  ∀ (s : State) (m : MemMode), (Instr.bit m).WellFormed → ∃ t, exec (.bit m) s = .next t ∧ KeepsPlainBytes s t ∧
    (let v := s.peek (s.locate m).ea
     t =
       { s with
         z := decide (s.a &&& v = 0#8), n := decide (v.toNat / 128 % 2 = 1), v := decide (v.toNat / 64 % 2 = 1)
         pc := s.pc + BitVec.ofNat 16 (1 + m.operandBytes), cyc := baseCycles s.cfg (.bit m)
         events := s.events ++ s.operandReads (.mem m), history := s.operandHistory (.mem m) })

/-- R116, R117, R118: CMP, CPX and CPY in every mode: C and Z by the unsigned comparison, N by the 8-bit difference; V, the
register and the carry in unused; and the frame. The listed cartridge bytes of the frame are a claim's fixed premise, the
model's choice (log entry 4, unsafe). It also speaks of modes that are no row of the table (log entry 13). -/
def Obligations.ComparesSetTheCarryOnNoBorrow : Prop :=
  AccEncodings .cmp 0xC9 0xC5 0xD5 0xCD 0xDD 0xD9 0xC1 0xD1 ∧
  (∀ (n : Byte) (a : Word),
    encode (.cpx (.imm n)) = [0xE0, n] ∧ encode (.cpx (.mem (.zp n))) = [0xE4, n] ∧
    encode (.cpx (.mem (.abs a))) = [0xEC, loByte a, hiByte a] ∧
    encode (.cpy (.imm n)) = [0xC0, n] ∧ encode (.cpy (.mem (.zp n))) = [0xC4, n] ∧
    encode (.cpy (.mem (.abs a))) = [0xCC, loByte a, hiByte a]) ∧
  ∀ (s : State) (o : Operand),
    let m := s.operandValue o
    let after := fun (i : Instr) (r : Byte) (penalty : Nat) =>
      { s with
        c := decide (m.toNat ≤ r.toNat), z := decide (r.toNat = m.toNat)
        n := decide (128 ≤ (r.toNat + 256 - m.toNat) % 256), pc := s.pc + BitVec.ofNat 16 (1 + o.operandBytes)
        cyc := baseCycles s.cfg i + penalty
        events := s.events ++ s.operandReads o, history := s.operandHistory o }
    (exec (.cmp o) s = .next (after (.cmp o) s.a (s.operandCrosses o).toNat) ∧
      KeepsPlainBytes s (after (.cmp o) s.a (s.operandCrosses o).toNat)) ∧
    ((Instr.cpx o).WellFormed →
      exec (.cpx o) s = .next (after (.cpx o) s.x 0) ∧ KeepsPlainBytes s (after (.cpx o) s.x 0)) ∧
    ((Instr.cpy o).WellFormed →
      exec (.cpy o) s = .next (after (.cpy o) s.y 0) ∧ KeepsPlainBytes s (after (.cpy o) s.y 0))

/-! Increment, decrement, shift and rotate (43_incdec_shift.md) -/

/-- R119, R120: INC and DEC in every mode: the byte one more or one less modulo 256 is written back, N and Z of it; C and V
unchanged; never a penalty; and the frame. The listed cartridge bytes of the frame are a claim's fixed premise, the model's
choice (log entry 4, unsafe). It also speaks of modes that are no row of the table (log entry 13). -/
def Obligations.IncAndDecModifyMemory : Prop :=
  ModifyEncodings .inc 0xE6 0xF6 0xEE 0xFE ∧ ModifyEncodings .dec 0xC6 0xD6 0xCE 0xDE ∧
  ∀ (s : State) (m : MemMode),
    let ea := (s.locate m).ea
    let writes := fun (i : Instr) (r : Byte) (t : State) =>
      StoresExactly s t ea r ∧
      t =
        { s with
          n := decide (128 ≤ r.toNat), z := decide (r.toNat = 0), pc := s.pc + BitVec.ofNat 16 (1 + m.operandBytes)
          cyc := baseCycles s.cfg i, mem := t.mem
          events := s.events ++ (s.pointerReads m ++ [.read ea, .write ea r])
          history := ((s.noteRead ea).write8 ea r).history }
    (∃ t, exec (.inc m) s = .next t ∧ writes (.inc m) (BitVec.ofNat 8 ((s.peek ea).toNat + 1)) t) ∧
    ∃ t, exec (.dec m) s = .next t ∧ writes (.dec m) (BitVec.ofNat 8 ((s.peek ea).toNat + 255)) t

/-- R121 to R124: INX, INY, DEX and DEY: the register one more or one less modulo 256, N and Z of it; C untouched. -/
def Obligations.IndexRegistersCountModulo256 : Prop :=
  encode .inx = [0xE8] ∧ encode .iny = [0xC8] ∧ encode .dex = [0xCA] ∧ encode .dey = [0x88] ∧
  ∀ s : State,
    let nz := fun (v : Byte) (t : State) =>
      { t with n := decide (128 ≤ v.toNat), z := decide (v.toNat = 0), pc := s.pc + 1#16, cyc := 2 }
    let up := fun v : Byte => BitVec.ofNat 8 (v.toNat + 1)
    let down := fun v : Byte => BitVec.ofNat 8 (v.toNat + 255)
    exec .inx s = .next (nz (up s.x) { s with x := up s.x }) ∧
    exec .iny s = .next (nz (up s.y) { s with y := up s.y }) ∧
    exec .dex s = .next (nz (down s.x) { s with x := down s.x }) ∧
    exec .dey s = .next (nz (down s.y) { s with y := down s.y }) ∧
    ∀ i ∈ [Instr.inx, .iny, .dex, .dey], ∀ t, exec i s = .next t → KeepsEveryByte s t

/-- R125 to R128, accumulator form: the shifted or rotated A, C the bit shifted out, N and Z; V unchanged; no memory touched. -/
def Obligations.ShiftsOfTheAccumulator : Prop :=
  encode (.asl .acc) = [0x0A] ∧ encode (.lsr .acc) = [0x4A] ∧ encode (.rol .acc) = [0x2A] ∧ encode (.ror .acc) = [0x6A] ∧
  ∀ s : State,
    let writes := fun (i : Instr) (r : Nat) (c : Bool) =>
      ∃ t, exec i s = .next t ∧ KeepsEveryByte s t ∧
        t =
          { s with
            a := BitVec.ofNat 8 r, c := c, n := decide (128 ≤ r % 256), z := decide (r % 256 = 0), pc := s.pc + 1#16
            cyc := 2 }
    writes (.asl .acc) (2 * s.a.toNat) (decide (128 ≤ s.a.toNat)) ∧
    writes (.lsr .acc) (s.a.toNat / 2) (decide (s.a.toNat % 2 = 1)) ∧
    writes (.rol .acc) (2 * s.a.toNat + s.c.toNat) (decide (128 ≤ s.a.toNat)) ∧
    writes (.ror .acc) (s.a.toNat / 2 + 128 * s.c.toNat) (decide (s.a.toNat % 2 = 1))

/-- R125 to R128, memory forms: one read and one write of the shifted or rotated byte, C the bit shifted out, N and Z; V
unchanged; never a penalty; and the frame. The listed cartridge bytes of the frame are a claim's fixed premise, the model's
choice (log entry 4, unsafe). It also speaks of modes that are no row of the table (log entry 13). -/
def Obligations.ShiftsOfMemory : Prop :=
  ModifyEncodings (fun m => .asl (.mem m)) 0x06 0x16 0x0E 0x1E ∧
  ModifyEncodings (fun m => .lsr (.mem m)) 0x46 0x56 0x4E 0x5E ∧
  ModifyEncodings (fun m => .rol (.mem m)) 0x26 0x36 0x2E 0x3E ∧
  ModifyEncodings (fun m => .ror (.mem m)) 0x66 0x76 0x6E 0x7E ∧
  ∀ (s : State) (m : MemMode),
    let ea := (s.locate m).ea
    let v := (s.peek ea).toNat
    let writes := fun (i : Instr) (r : Nat) (c : Bool) =>
      ∃ t, exec i s = .next t ∧ StoresExactly s t ea (BitVec.ofNat 8 r) ∧
        t =
          { s with
            c := c, n := decide (128 ≤ r % 256), z := decide (r % 256 = 0)
            pc := s.pc + BitVec.ofNat 16 (1 + m.operandBytes), cyc := baseCycles s.cfg i, mem := t.mem
            events := s.events ++ (s.pointerReads m ++ [.read ea, .write ea (BitVec.ofNat 8 r)])
            history := ((s.noteRead ea).write8 ea (BitVec.ofNat 8 r)).history }
    writes (.asl (.mem m)) (2 * v) (decide (128 ≤ v)) ∧
    writes (.lsr (.mem m)) (v / 2) (decide (v % 2 = 1)) ∧
    writes (.rol (.mem m)) (2 * v + s.c.toNat) (decide (128 ≤ v)) ∧
    writes (.ror (.mem m)) (v / 2 + 128 * s.c.toNat) (decide (v % 2 = 1))

/-! Jumps, calls, returns, BRK and branches (44_control.md) -/

/-- R129, R78: JMP absolute and indirect; an indirect target's high byte is read on the pointer's own page. The listed
cartridge bytes of the frame are a claim's fixed premise, the model's choice (log entry 4, unsafe). -/
def Obligations.JumpKeepsThePointerPage : Prop :=
  (∀ a : Word, encode (.jmp (.abs a)) = [0x4C, loByte a, hiByte a] ∧ encode (.jmp (.ind a)) = [0x6C, loByte a, hiByte a]) ∧
  ∀ (s : State) (a : Word),
    let high := BitVec.ofNat 16 (a.toNat / 256 * 256 + (a.toNat + 1) % 256)
    exec (.jmp (.abs a)) s = .next { s with pc := a, cyc := 3 } ∧
    ∃ t, exec (.jmp (.ind a)) s = .next t ∧ KeepsPlainBytes s t ∧
      t =
        { s with
          pc := mkWord ((s.noteRead a).peek high) (s.peek a), cyc := 5, events := s.events ++ [.read a, .read high]
          history := ((s.noteRead a).noteRead high).history }

/-- R130: JSR pushes the address of its last byte, high byte first, and jumps; no flag; and the frame. -/
def Obligations.JsrPushesTheReturnAddress : Prop :=
  (∀ a : Word, encode (.jsr a) = [0x20, loByte a, hiByte a]) ∧
  ∀ (s : State) (a : Word), ∃ t, exec (.jsr a) s = .next t ∧
    t.peek (stackAddr (s.sp - 1#8)) = loByte (s.pc + 2#16) ∧
    (1 ≤ s.cfg.ramBits.val → t.peek (stackAddr s.sp) = hiByte (s.pc + 2#16)) ∧
    KeepsPlainBytesExcept s t [stackAddr s.sp, stackAddr (s.sp - 1#8)] ∧
    t =
      { s with
        pc := a, sp := s.sp - 2#8, cyc := 6, mem := t.mem
        events :=
          s.events ++
            [.write (stackAddr s.sp) (hiByte (s.pc + 2#16)), .write (stackAddr (s.sp - 1#8)) (loByte (s.pc + 2#16))] }

/-- R131: RTS pulls the low byte, then the high byte, and adds 1, modulo 65536. -/
def Obligations.RtsReturnsPastTheStackedAddress : Prop :=
  encode .rts = [0x60] ∧
  ∀ s : State, ∃ t, exec .rts s = .next t ∧ KeepsEveryByte s t ∧
    t.pc.toNat =
      (256 * (s.peek (stackAddr (s.sp + 2#8))).toNat + (s.peek (stackAddr (s.sp + 1#8))).toNat + 1) % 65536 ∧
    t =
      { s with
        pc := t.pc, sp := s.sp + 2#8, cyc := 6
        events := s.events ++ [.read (stackAddr (s.sp + 1#8)), .read (stackAddr (s.sp + 2#8))] }

/-- R132: RTI pulls the status byte and all seven flags from it, then PC, low byte first; no 1 is added. -/
def Obligations.RtiRestoresFlagsAndPc : Prop :=
  encode .rti = [0x40] ∧
  ∀ s : State,
    let p := s.peek (stackAddr (s.sp + 1#8))
    ∃ t, exec .rti s = .next t ∧ KeepsEveryByte s t ∧
      t.pc.toNat = 256 * (s.peek (stackAddr (s.sp + 3#8))).toNat + (s.peek (stackAddr (s.sp + 2#8))).toNat ∧
      t =
        { s with
          n := p.getLsbD 7, v := p.getLsbD 6, b := p.getLsbD 4, d := p.getLsbD 3, i := p.getLsbD 2, z := p.getLsbD 1
          c := p.getLsbD 0, pc := t.pc, sp := s.sp + 3#8, cyc := 6
          events :=
            s.events ++
              [.read (stackAddr (s.sp + 1#8)), .read (stackAddr (s.sp + 2#8)), .read (stackAddr (s.sp + 3#8))] }

/-- R133: BRK pushes `w16(PC0 + 2)` and the status byte with bit 4, whatever I is; sets I; leaves B; loads PC from 0xFFFE;
and the frame. The listed cartridge bytes of the frame are a claim's fixed premise, the model's choice (log entry 4,
unsafe). -/
def Obligations.BrkEntersTheIrqHandler : Prop :=
  encode .brk = [0x00] ∧
  ∀ s : State, ∃ t, exec .brk s = .next t ∧
    t.peek (stackAddr (s.sp - 2#8)) = s.statusByte true ∧
    (2 ≤ s.cfg.ramBits.val →
      t.peek (stackAddr s.sp) = hiByte (s.pc + 2#16) ∧ t.peek (stackAddr (s.sp - 1#8)) = loByte (s.pc + 2#16)) ∧
    KeepsPlainBytesExcept s t [stackAddr s.sp, stackAddr (s.sp - 1#8), stackAddr (s.sp - 2#8)] ∧
    t =
      { s with
        pc := (s.read16 0xFFFE#16).1, sp := s.sp - 3#8, i := true, cyc := 7, mem := t.mem
        events := s.events ++ s.entryAccesses (s.pc + 2#16) 0xFFFE#16 true
        history := (s.read16 0xFFFE#16).2.history }

/-- R134 to R142, R79: the eight branches: taken to `w16(PCn + sext_16(opnd1))` exactly on their flag, 3 cycles or 4 across a
page; else PC is the next instruction, 2 cycles; nothing else changes. -/
def Obligations.BranchesGoWhereTheirFlagSays : Prop :=
  BranchesWhen .bcc 0x90 (fun s => !s.c) ∧ BranchesWhen .bcs 0xB0 (fun s => s.c) ∧
  BranchesWhen .beq 0xF0 (fun s => s.z) ∧ BranchesWhen .bmi 0x30 (fun s => s.n) ∧
  BranchesWhen .bne 0xD0 (fun s => !s.z) ∧ BranchesWhen .bpl 0x10 (fun s => !s.n) ∧
  BranchesWhen .bvc 0x50 (fun s => !s.v) ∧ BranchesWhen .bvs 0x70 (fun s => s.v)

/-- R130, R131: after JSR, RTS goes to the instruction after the JSR and S is what it was. The premise, RAM of at least two bytes,
keeps the two stacked bytes apart. -/
def Obligations.RtsUndoesJsr : Prop :=
  ∀ (s t : State) (a : Word), 1 ≤ s.cfg.ramBits.val → exec (.jsr a) s = .next t →
    ∃ u, exec .rts t = .next u ∧ u.pc = s.pc + 3#16 ∧ u.sp = s.sp

/-! Flag instructions, NOP and invalid opcodes (45_flags_misc.md) -/

/-- R143 to R149: each flag instruction sets its flag and nothing else. -/
def Obligations.FlagInstructionsSetTheirFlag : Prop :=
  encode .clc = [0x18] ∧ encode .cld = [0xD8] ∧ encode .cli = [0x58] ∧ encode .clv = [0xB8] ∧ encode .sec = [0x38] ∧
  encode .sed = [0xF8] ∧ encode .sei = [0x78] ∧
  ∀ s : State,
    exec .clc s = .next { s with c := false, pc := s.pc + 1#16, cyc := 2 } ∧
    exec .cld s = .next { s with d := false, pc := s.pc + 1#16, cyc := 2 } ∧
    exec .cli s = .next { s with i := false, pc := s.pc + 1#16, cyc := 2 } ∧
    exec .clv s = .next { s with v := false, pc := s.pc + 1#16, cyc := 2 } ∧
    exec .sec s = .next { s with c := true, pc := s.pc + 1#16, cyc := 2 } ∧
    exec .sed s = .next { s with d := true, pc := s.pc + 1#16, cyc := 2 } ∧
    exec .sei s = .next { s with i := true, pc := s.pc + 1#16, cyc := 2 } ∧
    ∀ i ∈ [Instr.clc, .cld, .cli, .clv, .sec, .sed, .sei], ∀ t, exec i s = .next t → KeepsEveryByte s t

/-- R150, R151, R89: NOP and every invalid opcode change nothing but PC and the cycle count; an invalid opcode's are
`INVALID_LEN` and `INVALID_CYCLES`, 1 and 2 where the parameters list no other. That they are a list of which the first row of an
opcode counts is the model's choice (log entry 8); so is the meaning of a term `invalid op` with an official `op`, which is no row
of the table and which this covers too (log entry 13). -/
def Obligations.NopAndInvalidChangeNothingElse : Prop :=
  encode .nop = [0xEA] ∧ (∀ op ∈ invalidOpcodes, encode (.invalid op) = [op]) ∧
  ∀ (s : State) (op : Byte),
    exec .nop s = .next { s with pc := s.pc + 1#16, cyc := 2 } ∧
    (∃ t, exec (.invalid op) s = .next t ∧ KeepsEveryByte s t ∧ t = { s with pc := t.pc, cyc := t.cyc } ∧
      ((∀ r ∈ s.cfg.invalidRows, r.op ≠ op) → t.pc = s.pc + 1#16 ∧ t.cyc = 2) ∧
      ∀ (r : InvalidRow) (before after : List InvalidRow), s.cfg.invalidRows = before ++ r :: after → r.op = op →
        (∀ q ∈ before, q.op ≠ op) → t.pc = s.pc + BitVec.ofNat 16 r.len.val ∧ t.cyc = r.cycles)
end

