-- ==== Sys2Proof/Laws/Memory.lean ====
section
/-! SUPPORT. Laws of the memory cells: reading back, frame, and that every operation keeps the canonical form. -/

namespace Sys2Proof.Machine

/-- A stored byte reads back. -/
@[simp] theorem Memory.lookup_store_self (m : Memory) (k : Nat) (v : Byte) :
    Memory.lookup (Memory.store m k v) k = some v := by
  induction m with
  | nil => simp [Memory.store, Memory.lookup]
  | cons cell m ih =>
    obtain ⟨j, w⟩ := cell
    simp only [Memory.store]
    split
    · simp [Memory.lookup]
    · split
      · simp [Memory.lookup]
      · next h => simp [Memory.lookup, h, ih]

/-- A store leaves every other key alone. -/
theorem Memory.lookup_store_of_ne (m : Memory) {k j : Nat} (v : Byte) (h : j ≠ k) :
    Memory.lookup (Memory.store m k v) j = Memory.lookup m j := by
  induction m with
  | nil => simp [Memory.store, Memory.lookup, h]
  | cons cell m ih =>
    obtain ⟨i, w⟩ := cell
    simp only [Memory.store]
    split
    · simp [Memory.lookup, h]
    · split
      · next hk => subst hk; simp [Memory.lookup, h]
      · by_cases hj : j = i <;> simp [Memory.lookup, hj, ih]

/-- A store at a key not below `lo` keeps a memory whose keys rise from `lo`. -/
theorem Memory.wfFrom_store {lo k : Nat} {m : Memory} (v : Byte) (hk : lo ≤ k)
    (h : Memory.wfFrom lo m = true) : Memory.wfFrom lo (Memory.store m k v) = true := by
  induction m generalizing lo with
  | nil => simp [Memory.store, Memory.wfFrom, hk]
  | cons cell m ih =>
    obtain ⟨j, w⟩ := cell
    simp only [Memory.wfFrom, Bool.and_eq_true, decide_eq_true_eq] at h
    simp only [Memory.store]
    split
    · next hlt => simp [Memory.wfFrom, hk, h.2, Nat.succ_le_of_lt hlt]
    · split
      · next heq => subst heq; simp [Memory.wfFrom, h.1, h.2]
      · next hlt heq =>
        have hjk : j + 1 ≤ k := by omega
        simp [Memory.wfFrom, h.1, ih hjk h.2]

/-- A store keeps the canonical form. -/
theorem Memory.wf_store {m : Memory} (k : Nat) (v : Byte) (h : Memory.wf m = true) :
    Memory.wf (Memory.store m k v) = true :=
  Memory.wfFrom_store v (Nat.zero_le k) h

/-- The cells after a store are the old ones and the stored one. -/
theorem Memory.mem_store {m : Memory} {k : Nat} {v : Byte} {cell : Host.Cell}
    (h : cell ∈ Memory.store m k v) : cell = (k, v) ∨ cell ∈ m := by
  induction m with
  | nil => exact .inl (by simpa [Memory.store] using h)
  | cons c m ih =>
    obtain ⟨j, w⟩ := c
    simp only [Memory.store] at h
    split at h
    · simpa [or_assoc] using h
    · split at h
      · rcases List.mem_cons.1 h with h | h
        · exact .inl h
        · exact .inr (List.mem_cons_of_mem _ h)
      · rcases List.mem_cons.1 h with h | h
        · exact .inr (h ▸ List.mem_cons_self)
        · exact (ih h).imp_right (List.mem_cons_of_mem _)

/-- Keys that rise from `hi` rise from every lower bound. -/
theorem Memory.wfFrom_mono {lo hi : Nat} {m : Memory} (hle : lo ≤ hi) (h : Memory.wfFrom hi m = true) :
    Memory.wfFrom lo m = true := by
  cases m with
  | nil => rfl
  | cons cell m =>
    simp only [Memory.wfFrom, Bool.and_eq_true, decide_eq_true_eq] at h ⊢
    exact ⟨hle.trans h.1, h.2⟩

/-- A part of a memory keeps the canonical form. -/
theorem Memory.wfFrom_filter {lo : Nat} {m : Memory} (p : Host.Cell → Bool) (h : Memory.wfFrom lo m = true) :
    Memory.wfFrom lo (m.filter p) = true := by
  induction m generalizing lo with
  | nil => rfl
  | cons cell m ih =>
    simp only [Memory.wfFrom, Bool.and_eq_true, decide_eq_true_eq] at h
    simp only [List.filter_cons]
    split
    · simp [Memory.wfFrom, h.1, ih h.2]
    · exact Memory.wfFrom_mono (by omega) (ih h.2)

/-- The keys of a memory whose keys rise from `lo` are not below `lo`. -/
theorem Memory.le_of_mem {lo : Nat} {m : Memory} (h : Memory.wfFrom lo m = true) {cell : Host.Cell} (hc : cell ∈ m) :
    lo ≤ cell.1 := by
  induction m generalizing lo with
  | nil => cases hc
  | cons c m ih =>
    simp only [Memory.wfFrom, Bool.and_eq_true, decide_eq_true_eq] at h
    rcases List.mem_cons.1 hc with rfl | hc
    · exact h.1
    · have := ih h.2 hc; omega

/-- Canonical cells below `mid`, then canonical cells from `mid` up, are canonical. -/
theorem Memory.wfFrom_append {lo mid : Nat} {m n : Memory} (hlo : lo ≤ mid) (hm : Memory.wfFrom lo m = true)
    (hb : ∀ cell ∈ m, cell.1 < mid) (hn : Memory.wfFrom mid n = true) : Memory.wfFrom lo (m ++ n) = true := by
  induction m generalizing lo with
  | nil => exact Memory.wfFrom_mono hlo hn
  | cons cell m ih =>
    simp only [Memory.wfFrom, Bool.and_eq_true, decide_eq_true_eq] at hm
    simp only [List.cons_append, Memory.wfFrom, Bool.and_eq_true, decide_eq_true_eq]
    exact ⟨hm.1, ih (hb cell List.mem_cons_self) hm.2 fun c hc => hb c (List.mem_cons_of_mem _ hc)⟩

/-- Cells that are not at a key are passed over by a lookup of it. -/
theorem Memory.lookup_append {m n : Memory} {k : Nat} (h : ∀ cell ∈ m, cell.1 ≠ k) :
    Memory.lookup (m ++ n) k = Memory.lookup n k := by
  induction m with
  | nil => rfl
  | cons cell m ih =>
    have hk : k ≠ cell.1 := fun e => h cell List.mem_cons_self e.symm
    simp [Memory.lookup, hk, ih fun c hc => h c (List.mem_cons_of_mem _ hc)]

/-- A part of a memory answers as the whole does at every key whose cells it has. -/
theorem Memory.lookup_filter (m : Memory) {p : Host.Cell → Bool} {k : Nat} (h : ∀ v, p (k, v) = true) :
    Memory.lookup (m.filter p) k = Memory.lookup m k := by
  induction m with
  | nil => rfl
  | cons cell m ih =>
    obtain ⟨j, w⟩ := cell
    by_cases hj : k = j
    · subst hj; simp [h, Memory.lookup]
    · simp only [List.filter_cons]
      split <;> simp [Memory.lookup, hj, ih]

/-- Two canonical memories that answer alike at every key are equal. -/
theorem Memory.ext_of_wfFrom {lo : Nat} {m n : Memory} (hm : Memory.wfFrom lo m = true)
    (hn : Memory.wfFrom lo n = true) (h : ∀ k, Memory.lookup m k = Memory.lookup n k) : m = n := by
  have below : ∀ {lo k : Nat} {m : Memory}, Memory.wfFrom lo m = true → k < lo → Memory.lookup m k = none := by
    intro lo k m hw hk
    have := Memory.lookup_append (m := m) (n := []) (k := k) fun c hc e => by
      have := Memory.le_of_mem hw hc; omega
    simpa [Memory.lookup] using this
  induction m generalizing lo n with
  | nil =>
    cases n with
    | nil => rfl
    | cons c n => have := h c.1; simp [Memory.lookup] at this
  | cons c m ih =>
    obtain ⟨j, v⟩ := c
    cases n with
    | nil => have := h j; simp [Memory.lookup] at this
    | cons d n =>
      obtain ⟨i, w⟩ := d
      simp only [Memory.wfFrom, Bool.and_eq_true, decide_eq_true_eq] at hm hn
      obtain hlt | rfl | hlt := Nat.lt_trichotomy j i
      · have := h j
        simp [Memory.lookup, below hn.2 (show j < i + 1 by omega), Nat.ne_of_lt hlt] at this
      · have hv := h j
        simp only [Memory.lookup, if_true, Option.some.injEq] at hv
        subst hv
        rw [ih hm.2 hn.2 fun k => ?_]
        by_cases hk : k = j
        · subst hk; rw [below hm.2 (by omega), below hn.2 (by omega)]
        · have := h k; simpa [Memory.lookup, hk] using this
      · have := h i
        simp [Memory.lookup, below hm.2 (show i < j + 1 by omega), Nat.ne_of_lt hlt] at this

/-- Placing a program keeps the canonical form. -/
theorem Memory.wf_placeAt {m : Memory} (a : Word) (bs : List Byte) (h : Memory.wf m = true) :
    Memory.wf (Memory.placeAt m a bs) = true := by
  induction bs generalizing m a with
  | nil => exact h
  | cons b bs ih => exact ih _ (Memory.wf_store _ _ h)

/-- A store at a legal key keeps the whole of `State.wf`. -/
theorem State.wf_store {s : State} {k : Nat} (v : Byte) (hs : s.wf = true) (hk : legalKey s.cfg k = true) :
    State.wf { s with mem := Memory.store s.mem k v } = true := by
  simp only [State.wf, Bool.and_eq_true, List.all_eq_true] at hs ⊢
  refine ⟨Memory.wf_store _ _ hs.1, fun cell hc => ?_⟩
  rcases Memory.mem_store hc with h | h
  · rw [h]; exact hk
  · exact hs.2 cell h

/-- `State.wf` is about the memory and the parameters alone. -/
theorem State.wf_congr {s t : State} (hm : t.mem = s.mem) (hp : t.cfg = s.cfg) : t.wf = s.wf := by
  unfold State.wf; rw [hm, hp]

/-- The reset state's memory has the canonical form. -/
theorem State.wf_mem_reset : Memory.wf State.reset.mem = true := rfl

end Sys2Proof.Machine
end

