-- ==== Sys2Proof/Laws/State.lean ====
section
/-! SUPPORT. The fields of a state after each named update: one lemma per field per update. -/

namespace Sys2Proof.Machine

/-! `State.setNZ` -/

@[simp] theorem State.setNZ_pc (s : State) (r : Byte) : (s.setNZ r).pc = s.pc := rfl
@[simp] theorem State.setNZ_a (s : State) (r : Byte) : (s.setNZ r).a = s.a := rfl
@[simp] theorem State.setNZ_x (s : State) (r : Byte) : (s.setNZ r).x = s.x := rfl
@[simp] theorem State.setNZ_y (s : State) (r : Byte) : (s.setNZ r).y = s.y := rfl
@[simp] theorem State.setNZ_sp (s : State) (r : Byte) : (s.setNZ r).sp = s.sp := rfl
@[simp] theorem State.setNZ_c (s : State) (r : Byte) : (s.setNZ r).c = s.c := rfl
@[simp] theorem State.setNZ_z (s : State) (r : Byte) : (s.setNZ r).z = (r == 0#8) := rfl
@[simp] theorem State.setNZ_i (s : State) (r : Byte) : (s.setNZ r).i = s.i := rfl
@[simp] theorem State.setNZ_d (s : State) (r : Byte) : (s.setNZ r).d = s.d := rfl
@[simp] theorem State.setNZ_b (s : State) (r : Byte) : (s.setNZ r).b = s.b := rfl
@[simp] theorem State.setNZ_v (s : State) (r : Byte) : (s.setNZ r).v = s.v := rfl
@[simp] theorem State.setNZ_n (s : State) (r : Byte) : (s.setNZ r).n = r.getLsbD 7 := rfl
@[simp] theorem State.setNZ_cyc (s : State) (r : Byte) : (s.setNZ r).cyc = s.cyc := rfl
@[simp] theorem State.setNZ_nmiPending (s : State) (r : Byte) : (s.setNZ r).nmiPending = s.nmiPending := rfl
@[simp] theorem State.setNZ_irqPending (s : State) (r : Byte) : (s.setNZ r).irqPending = s.irqPending := rfl
@[simp] theorem State.setNZ_resetPending (s : State) (r : Byte) : (s.setNZ r).resetPending = s.resetPending := rfl
@[simp] theorem State.setNZ_mem (s : State) (r : Byte) : (s.setNZ r).mem = s.mem := rfl
@[simp] theorem State.setNZ_history (s : State) (r : Byte) : (s.setNZ r).history = s.history := rfl
@[simp] theorem State.setNZ_events (s : State) (r : Byte) : (s.setNZ r).events = s.events := rfl
@[simp] theorem State.setNZ_clock (s : State) (r : Byte) : (s.setNZ r).clock = s.clock := rfl
@[simp] theorem State.setNZ_draws (s : State) (r : Byte) : (s.setNZ r).draws = s.draws := rfl
@[simp] theorem State.setNZ_boot (s : State) (r : Byte) : (s.setNZ r).boot = s.boot := rfl
@[simp] theorem State.setNZ_cfg (s : State) (r : Byte) : (s.setNZ r).cfg = s.cfg := rfl

/-! `State.unpackStatus` -/

@[simp] theorem State.unpackStatus_pc (s : State) (p : Byte) : (s.unpackStatus p).pc = s.pc := rfl
@[simp] theorem State.unpackStatus_a (s : State) (p : Byte) : (s.unpackStatus p).a = s.a := rfl
@[simp] theorem State.unpackStatus_x (s : State) (p : Byte) : (s.unpackStatus p).x = s.x := rfl
@[simp] theorem State.unpackStatus_y (s : State) (p : Byte) : (s.unpackStatus p).y = s.y := rfl
@[simp] theorem State.unpackStatus_sp (s : State) (p : Byte) : (s.unpackStatus p).sp = s.sp := rfl
@[simp] theorem State.unpackStatus_c (s : State) (p : Byte) : (s.unpackStatus p).c = p.getLsbD 0 := rfl
@[simp] theorem State.unpackStatus_z (s : State) (p : Byte) : (s.unpackStatus p).z = p.getLsbD 1 := rfl
@[simp] theorem State.unpackStatus_i (s : State) (p : Byte) : (s.unpackStatus p).i = p.getLsbD 2 := rfl
@[simp] theorem State.unpackStatus_d (s : State) (p : Byte) : (s.unpackStatus p).d = p.getLsbD 3 := rfl
@[simp] theorem State.unpackStatus_b (s : State) (p : Byte) : (s.unpackStatus p).b = p.getLsbD 4 := rfl
@[simp] theorem State.unpackStatus_v (s : State) (p : Byte) : (s.unpackStatus p).v = p.getLsbD 6 := rfl
@[simp] theorem State.unpackStatus_n (s : State) (p : Byte) : (s.unpackStatus p).n = p.getLsbD 7 := rfl
@[simp] theorem State.unpackStatus_cyc (s : State) (p : Byte) : (s.unpackStatus p).cyc = s.cyc := rfl
@[simp] theorem State.unpackStatus_nmiPending (s : State) (p : Byte) : (s.unpackStatus p).nmiPending = s.nmiPending := rfl
@[simp] theorem State.unpackStatus_irqPending (s : State) (p : Byte) : (s.unpackStatus p).irqPending = s.irqPending := rfl
@[simp] theorem State.unpackStatus_resetPending (s : State) (p : Byte) : (s.unpackStatus p).resetPending = s.resetPending := rfl
@[simp] theorem State.unpackStatus_mem (s : State) (p : Byte) : (s.unpackStatus p).mem = s.mem := rfl
@[simp] theorem State.unpackStatus_history (s : State) (p : Byte) : (s.unpackStatus p).history = s.history := rfl
@[simp] theorem State.unpackStatus_events (s : State) (p : Byte) : (s.unpackStatus p).events = s.events := rfl
@[simp] theorem State.unpackStatus_clock (s : State) (p : Byte) : (s.unpackStatus p).clock = s.clock := rfl
@[simp] theorem State.unpackStatus_draws (s : State) (p : Byte) : (s.unpackStatus p).draws = s.draws := rfl
@[simp] theorem State.unpackStatus_boot (s : State) (p : Byte) : (s.unpackStatus p).boot = s.boot := rfl
@[simp] theorem State.unpackStatus_cfg (s : State) (p : Byte) : (s.unpackStatus p).cfg = s.cfg := rfl

/-! `State.addWithCarry` -/

@[simp] theorem State.addWithCarry_pc (s : State) (m : Byte) : (s.addWithCarry m).pc = s.pc := rfl
@[simp] theorem State.addWithCarry_a (s : State) (m : Byte) : (s.addWithCarry m).a = BitVec.ofNat 8 (s.a.toNat + m.toNat + s.c.toNat) := rfl
@[simp] theorem State.addWithCarry_x (s : State) (m : Byte) : (s.addWithCarry m).x = s.x := rfl
@[simp] theorem State.addWithCarry_y (s : State) (m : Byte) : (s.addWithCarry m).y = s.y := rfl
@[simp] theorem State.addWithCarry_sp (s : State) (m : Byte) : (s.addWithCarry m).sp = s.sp := rfl
@[simp] theorem State.addWithCarry_c (s : State) (m : Byte) : (s.addWithCarry m).c = decide (0xFF < s.a.toNat + m.toNat + s.c.toNat) := rfl
@[simp] theorem State.addWithCarry_z (s : State) (m : Byte) : (s.addWithCarry m).z = ((s.addWithCarry m).a == 0#8) := rfl
@[simp] theorem State.addWithCarry_i (s : State) (m : Byte) : (s.addWithCarry m).i = s.i := rfl
@[simp] theorem State.addWithCarry_d (s : State) (m : Byte) : (s.addWithCarry m).d = s.d := rfl
@[simp] theorem State.addWithCarry_b (s : State) (m : Byte) : (s.addWithCarry m).b = s.b := rfl
@[simp] theorem State.addWithCarry_n (s : State) (m : Byte) : (s.addWithCarry m).n = (s.addWithCarry m).a.getLsbD 7 := rfl
@[simp] theorem State.addWithCarry_cyc (s : State) (m : Byte) : (s.addWithCarry m).cyc = s.cyc := rfl
@[simp] theorem State.addWithCarry_nmiPending (s : State) (m : Byte) : (s.addWithCarry m).nmiPending = s.nmiPending := rfl
@[simp] theorem State.addWithCarry_irqPending (s : State) (m : Byte) : (s.addWithCarry m).irqPending = s.irqPending := rfl
@[simp] theorem State.addWithCarry_resetPending (s : State) (m : Byte) : (s.addWithCarry m).resetPending = s.resetPending := rfl
@[simp] theorem State.addWithCarry_mem (s : State) (m : Byte) : (s.addWithCarry m).mem = s.mem := rfl
@[simp] theorem State.addWithCarry_history (s : State) (m : Byte) : (s.addWithCarry m).history = s.history := rfl
@[simp] theorem State.addWithCarry_events (s : State) (m : Byte) : (s.addWithCarry m).events = s.events := rfl
@[simp] theorem State.addWithCarry_clock (s : State) (m : Byte) : (s.addWithCarry m).clock = s.clock := rfl
@[simp] theorem State.addWithCarry_draws (s : State) (m : Byte) : (s.addWithCarry m).draws = s.draws := rfl
@[simp] theorem State.addWithCarry_boot (s : State) (m : Byte) : (s.addWithCarry m).boot = s.boot := rfl
@[simp] theorem State.addWithCarry_cfg (s : State) (m : Byte) : (s.addWithCarry m).cfg = s.cfg := rfl

/-! `State.subWithBorrow` -/

@[simp] theorem State.subWithBorrow_pc (s : State) (m : Byte) : (s.subWithBorrow m).pc = s.pc := rfl
@[simp] theorem State.subWithBorrow_a (s : State) (m : Byte) : (s.subWithBorrow m).a = BitVec.ofNat 8 (s.a.toNat + (m ^^^ 0xFF#8).toNat + s.c.toNat) := rfl
@[simp] theorem State.subWithBorrow_x (s : State) (m : Byte) : (s.subWithBorrow m).x = s.x := rfl
@[simp] theorem State.subWithBorrow_y (s : State) (m : Byte) : (s.subWithBorrow m).y = s.y := rfl
@[simp] theorem State.subWithBorrow_sp (s : State) (m : Byte) : (s.subWithBorrow m).sp = s.sp := rfl
@[simp] theorem State.subWithBorrow_c (s : State) (m : Byte) : (s.subWithBorrow m).c = decide (0xFF < s.a.toNat + (m ^^^ 0xFF#8).toNat + s.c.toNat) := rfl
@[simp] theorem State.subWithBorrow_z (s : State) (m : Byte) : (s.subWithBorrow m).z = ((s.subWithBorrow m).a == 0#8) := rfl
@[simp] theorem State.subWithBorrow_i (s : State) (m : Byte) : (s.subWithBorrow m).i = s.i := rfl
@[simp] theorem State.subWithBorrow_d (s : State) (m : Byte) : (s.subWithBorrow m).d = s.d := rfl
@[simp] theorem State.subWithBorrow_b (s : State) (m : Byte) : (s.subWithBorrow m).b = s.b := rfl
@[simp] theorem State.subWithBorrow_n (s : State) (m : Byte) : (s.subWithBorrow m).n = (s.subWithBorrow m).a.getLsbD 7 := rfl
@[simp] theorem State.subWithBorrow_cyc (s : State) (m : Byte) : (s.subWithBorrow m).cyc = s.cyc := rfl
@[simp] theorem State.subWithBorrow_nmiPending (s : State) (m : Byte) : (s.subWithBorrow m).nmiPending = s.nmiPending := rfl
@[simp] theorem State.subWithBorrow_irqPending (s : State) (m : Byte) : (s.subWithBorrow m).irqPending = s.irqPending := rfl
@[simp] theorem State.subWithBorrow_resetPending (s : State) (m : Byte) : (s.subWithBorrow m).resetPending = s.resetPending := rfl
@[simp] theorem State.subWithBorrow_mem (s : State) (m : Byte) : (s.subWithBorrow m).mem = s.mem := rfl
@[simp] theorem State.subWithBorrow_history (s : State) (m : Byte) : (s.subWithBorrow m).history = s.history := rfl
@[simp] theorem State.subWithBorrow_events (s : State) (m : Byte) : (s.subWithBorrow m).events = s.events := rfl
@[simp] theorem State.subWithBorrow_clock (s : State) (m : Byte) : (s.subWithBorrow m).clock = s.clock := rfl
@[simp] theorem State.subWithBorrow_draws (s : State) (m : Byte) : (s.subWithBorrow m).draws = s.draws := rfl
@[simp] theorem State.subWithBorrow_boot (s : State) (m : Byte) : (s.subWithBorrow m).boot = s.boot := rfl
@[simp] theorem State.subWithBorrow_cfg (s : State) (m : Byte) : (s.subWithBorrow m).cfg = s.cfg := rfl

/-! `State.compareWith` -/

@[simp] theorem State.compareWith_pc (s : State) (r m : Byte) : (s.compareWith r m).pc = s.pc := rfl
@[simp] theorem State.compareWith_a (s : State) (r m : Byte) : (s.compareWith r m).a = s.a := rfl
@[simp] theorem State.compareWith_x (s : State) (r m : Byte) : (s.compareWith r m).x = s.x := rfl
@[simp] theorem State.compareWith_y (s : State) (r m : Byte) : (s.compareWith r m).y = s.y := rfl
@[simp] theorem State.compareWith_sp (s : State) (r m : Byte) : (s.compareWith r m).sp = s.sp := rfl
@[simp] theorem State.compareWith_c (s : State) (r m : Byte) : (s.compareWith r m).c = decide (m.toNat ≤ r.toNat) := rfl
@[simp] theorem State.compareWith_z (s : State) (r m : Byte) : (s.compareWith r m).z = (r == m) := rfl
@[simp] theorem State.compareWith_i (s : State) (r m : Byte) : (s.compareWith r m).i = s.i := rfl
@[simp] theorem State.compareWith_d (s : State) (r m : Byte) : (s.compareWith r m).d = s.d := rfl
@[simp] theorem State.compareWith_b (s : State) (r m : Byte) : (s.compareWith r m).b = s.b := rfl
@[simp] theorem State.compareWith_v (s : State) (r m : Byte) : (s.compareWith r m).v = s.v := rfl
@[simp] theorem State.compareWith_n (s : State) (r m : Byte) : (s.compareWith r m).n = (r - m).getLsbD 7 := rfl
@[simp] theorem State.compareWith_cyc (s : State) (r m : Byte) : (s.compareWith r m).cyc = s.cyc := rfl
@[simp] theorem State.compareWith_nmiPending (s : State) (r m : Byte) : (s.compareWith r m).nmiPending = s.nmiPending := rfl
@[simp] theorem State.compareWith_irqPending (s : State) (r m : Byte) : (s.compareWith r m).irqPending = s.irqPending := rfl
@[simp] theorem State.compareWith_resetPending (s : State) (r m : Byte) : (s.compareWith r m).resetPending = s.resetPending := rfl
@[simp] theorem State.compareWith_mem (s : State) (r m : Byte) : (s.compareWith r m).mem = s.mem := rfl
@[simp] theorem State.compareWith_history (s : State) (r m : Byte) : (s.compareWith r m).history = s.history := rfl
@[simp] theorem State.compareWith_events (s : State) (r m : Byte) : (s.compareWith r m).events = s.events := rfl
@[simp] theorem State.compareWith_clock (s : State) (r m : Byte) : (s.compareWith r m).clock = s.clock := rfl
@[simp] theorem State.compareWith_draws (s : State) (r m : Byte) : (s.compareWith r m).draws = s.draws := rfl
@[simp] theorem State.compareWith_boot (s : State) (r m : Byte) : (s.compareWith r m).boot = s.boot := rfl
@[simp] theorem State.compareWith_cfg (s : State) (r m : Byte) : (s.compareWith r m).cfg = s.cfg := rfl

/-! `State.testBits` -/

@[simp] theorem State.testBits_pc (s : State) (m : Byte) : (s.testBits m).pc = s.pc := rfl
@[simp] theorem State.testBits_a (s : State) (m : Byte) : (s.testBits m).a = s.a := rfl
@[simp] theorem State.testBits_x (s : State) (m : Byte) : (s.testBits m).x = s.x := rfl
@[simp] theorem State.testBits_y (s : State) (m : Byte) : (s.testBits m).y = s.y := rfl
@[simp] theorem State.testBits_sp (s : State) (m : Byte) : (s.testBits m).sp = s.sp := rfl
@[simp] theorem State.testBits_c (s : State) (m : Byte) : (s.testBits m).c = s.c := rfl
@[simp] theorem State.testBits_z (s : State) (m : Byte) : (s.testBits m).z = ((s.a &&& m) == 0#8) := rfl
@[simp] theorem State.testBits_i (s : State) (m : Byte) : (s.testBits m).i = s.i := rfl
@[simp] theorem State.testBits_d (s : State) (m : Byte) : (s.testBits m).d = s.d := rfl
@[simp] theorem State.testBits_b (s : State) (m : Byte) : (s.testBits m).b = s.b := rfl
@[simp] theorem State.testBits_v (s : State) (m : Byte) : (s.testBits m).v = m.getLsbD 6 := rfl
@[simp] theorem State.testBits_n (s : State) (m : Byte) : (s.testBits m).n = m.getLsbD 7 := rfl
@[simp] theorem State.testBits_cyc (s : State) (m : Byte) : (s.testBits m).cyc = s.cyc := rfl
@[simp] theorem State.testBits_nmiPending (s : State) (m : Byte) : (s.testBits m).nmiPending = s.nmiPending := rfl
@[simp] theorem State.testBits_irqPending (s : State) (m : Byte) : (s.testBits m).irqPending = s.irqPending := rfl
@[simp] theorem State.testBits_resetPending (s : State) (m : Byte) : (s.testBits m).resetPending = s.resetPending := rfl
@[simp] theorem State.testBits_mem (s : State) (m : Byte) : (s.testBits m).mem = s.mem := rfl
@[simp] theorem State.testBits_history (s : State) (m : Byte) : (s.testBits m).history = s.history := rfl
@[simp] theorem State.testBits_events (s : State) (m : Byte) : (s.testBits m).events = s.events := rfl
@[simp] theorem State.testBits_clock (s : State) (m : Byte) : (s.testBits m).clock = s.clock := rfl
@[simp] theorem State.testBits_draws (s : State) (m : Byte) : (s.testBits m).draws = s.draws := rfl
@[simp] theorem State.testBits_boot (s : State) (m : Byte) : (s.testBits m).boot = s.boot := rfl
@[simp] theorem State.testBits_cfg (s : State) (m : Byte) : (s.testBits m).cfg = s.cfg := rfl

/-! `State.noteRead` -/

@[simp] theorem State.noteRead_pc (s : State) (adr : Word) : (s.noteRead adr).pc = s.pc := rfl
@[simp] theorem State.noteRead_a (s : State) (adr : Word) : (s.noteRead adr).a = s.a := rfl
@[simp] theorem State.noteRead_x (s : State) (adr : Word) : (s.noteRead adr).x = s.x := rfl
@[simp] theorem State.noteRead_y (s : State) (adr : Word) : (s.noteRead adr).y = s.y := rfl
@[simp] theorem State.noteRead_sp (s : State) (adr : Word) : (s.noteRead adr).sp = s.sp := rfl
@[simp] theorem State.noteRead_c (s : State) (adr : Word) : (s.noteRead adr).c = s.c := rfl
@[simp] theorem State.noteRead_z (s : State) (adr : Word) : (s.noteRead adr).z = s.z := rfl
@[simp] theorem State.noteRead_i (s : State) (adr : Word) : (s.noteRead adr).i = s.i := rfl
@[simp] theorem State.noteRead_d (s : State) (adr : Word) : (s.noteRead adr).d = s.d := rfl
@[simp] theorem State.noteRead_b (s : State) (adr : Word) : (s.noteRead adr).b = s.b := rfl
@[simp] theorem State.noteRead_v (s : State) (adr : Word) : (s.noteRead adr).v = s.v := rfl
@[simp] theorem State.noteRead_n (s : State) (adr : Word) : (s.noteRead adr).n = s.n := rfl
@[simp] theorem State.noteRead_cyc (s : State) (adr : Word) : (s.noteRead adr).cyc = s.cyc := rfl
@[simp] theorem State.noteRead_nmiPending (s : State) (adr : Word) : (s.noteRead adr).nmiPending = s.nmiPending := rfl
@[simp] theorem State.noteRead_irqPending (s : State) (adr : Word) : (s.noteRead adr).irqPending = s.irqPending := rfl
@[simp] theorem State.noteRead_resetPending (s : State) (adr : Word) : (s.noteRead adr).resetPending = s.resetPending := rfl
@[simp] theorem State.noteRead_mem (s : State) (adr : Word) : (s.noteRead adr).mem = s.mem := rfl
@[simp] theorem State.noteRead_events (s : State) (adr : Word) : (s.noteRead adr).events = s.events ++ [.read adr] := rfl
@[simp] theorem State.noteRead_clock (s : State) (adr : Word) : (s.noteRead adr).clock = s.clock := rfl
@[simp] theorem State.noteRead_draws (s : State) (adr : Word) : (s.noteRead adr).draws = s.draws := rfl
@[simp] theorem State.noteRead_boot (s : State) (adr : Word) : (s.noteRead adr).boot = s.boot := rfl
@[simp] theorem State.noteRead_cfg (s : State) (adr : Word) : (s.noteRead adr).cfg = s.cfg := rfl

/-! `State.write8` -/

@[simp] theorem State.write8_pc (s : State) (adr : Word) (w : Byte) : (s.write8 adr w).pc = s.pc := rfl
@[simp] theorem State.write8_a (s : State) (adr : Word) (w : Byte) : (s.write8 adr w).a = s.a := rfl
@[simp] theorem State.write8_x (s : State) (adr : Word) (w : Byte) : (s.write8 adr w).x = s.x := rfl
@[simp] theorem State.write8_y (s : State) (adr : Word) (w : Byte) : (s.write8 adr w).y = s.y := rfl
@[simp] theorem State.write8_sp (s : State) (adr : Word) (w : Byte) : (s.write8 adr w).sp = s.sp := rfl
@[simp] theorem State.write8_c (s : State) (adr : Word) (w : Byte) : (s.write8 adr w).c = s.c := rfl
@[simp] theorem State.write8_z (s : State) (adr : Word) (w : Byte) : (s.write8 adr w).z = s.z := rfl
@[simp] theorem State.write8_i (s : State) (adr : Word) (w : Byte) : (s.write8 adr w).i = s.i := rfl
@[simp] theorem State.write8_d (s : State) (adr : Word) (w : Byte) : (s.write8 adr w).d = s.d := rfl
@[simp] theorem State.write8_b (s : State) (adr : Word) (w : Byte) : (s.write8 adr w).b = s.b := rfl
@[simp] theorem State.write8_v (s : State) (adr : Word) (w : Byte) : (s.write8 adr w).v = s.v := rfl
@[simp] theorem State.write8_n (s : State) (adr : Word) (w : Byte) : (s.write8 adr w).n = s.n := rfl
@[simp] theorem State.write8_cyc (s : State) (adr : Word) (w : Byte) : (s.write8 adr w).cyc = s.cyc := rfl
@[simp] theorem State.write8_nmiPending (s : State) (adr : Word) (w : Byte) : (s.write8 adr w).nmiPending = s.nmiPending := rfl
@[simp] theorem State.write8_irqPending (s : State) (adr : Word) (w : Byte) : (s.write8 adr w).irqPending = s.irqPending := rfl
@[simp] theorem State.write8_resetPending (s : State) (adr : Word) (w : Byte) : (s.write8 adr w).resetPending = s.resetPending := rfl
@[simp] theorem State.write8_events (s : State) (adr : Word) (w : Byte) : (s.write8 adr w).events = s.events ++ [.write adr w] := rfl
@[simp] theorem State.write8_clock (s : State) (adr : Word) (w : Byte) : (s.write8 adr w).clock = s.clock := rfl
@[simp] theorem State.write8_draws (s : State) (adr : Word) (w : Byte) : (s.write8 adr w).draws = s.draws := rfl
@[simp] theorem State.write8_boot (s : State) (adr : Word) (w : Byte) : (s.write8 adr w).boot = s.boot := rfl
@[simp] theorem State.write8_cfg (s : State) (adr : Word) (w : Byte) : (s.write8 adr w).cfg = s.cfg := rfl

/-! `State.push8` -/

@[simp] theorem State.push8_pc (s : State) (w : Byte) : (s.push8 w).pc = s.pc := rfl
@[simp] theorem State.push8_a (s : State) (w : Byte) : (s.push8 w).a = s.a := rfl
@[simp] theorem State.push8_x (s : State) (w : Byte) : (s.push8 w).x = s.x := rfl
@[simp] theorem State.push8_y (s : State) (w : Byte) : (s.push8 w).y = s.y := rfl
@[simp] theorem State.push8_sp (s : State) (w : Byte) : (s.push8 w).sp = s.sp - 1#8 := rfl
@[simp] theorem State.push8_c (s : State) (w : Byte) : (s.push8 w).c = s.c := rfl
@[simp] theorem State.push8_z (s : State) (w : Byte) : (s.push8 w).z = s.z := rfl
@[simp] theorem State.push8_i (s : State) (w : Byte) : (s.push8 w).i = s.i := rfl
@[simp] theorem State.push8_d (s : State) (w : Byte) : (s.push8 w).d = s.d := rfl
@[simp] theorem State.push8_b (s : State) (w : Byte) : (s.push8 w).b = s.b := rfl
@[simp] theorem State.push8_v (s : State) (w : Byte) : (s.push8 w).v = s.v := rfl
@[simp] theorem State.push8_n (s : State) (w : Byte) : (s.push8 w).n = s.n := rfl
@[simp] theorem State.push8_cyc (s : State) (w : Byte) : (s.push8 w).cyc = s.cyc := rfl
@[simp] theorem State.push8_nmiPending (s : State) (w : Byte) : (s.push8 w).nmiPending = s.nmiPending := rfl
@[simp] theorem State.push8_irqPending (s : State) (w : Byte) : (s.push8 w).irqPending = s.irqPending := rfl
@[simp] theorem State.push8_resetPending (s : State) (w : Byte) : (s.push8 w).resetPending = s.resetPending := rfl
@[simp] theorem State.push8_mem (s : State) (w : Byte) : (s.push8 w).mem = (s.write8 (stackAddr s.sp) w).mem := rfl
@[simp] theorem State.push8_history (s : State) (w : Byte) : (s.push8 w).history = (s.write8 (stackAddr s.sp) w).history := rfl
@[simp] theorem State.push8_events (s : State) (w : Byte) : (s.push8 w).events = s.events ++ [.write (stackAddr s.sp) w] := rfl
@[simp] theorem State.push8_clock (s : State) (w : Byte) : (s.push8 w).clock = s.clock := rfl
@[simp] theorem State.push8_draws (s : State) (w : Byte) : (s.push8 w).draws = s.draws := rfl
@[simp] theorem State.push8_boot (s : State) (w : Byte) : (s.push8 w).boot = s.boot := rfl
@[simp] theorem State.push8_cfg (s : State) (w : Byte) : (s.push8 w).cfg = s.cfg := rfl

/-! `State.retire` -/

@[simp] theorem State.retire_pc (s : State) (ins : Instr) (pen : Nat) : (s.retire ins pen).pc = s.pc + BitVec.ofNat 16 ins.length := rfl
@[simp] theorem State.retire_a (s : State) (ins : Instr) (pen : Nat) : (s.retire ins pen).a = s.a := rfl
@[simp] theorem State.retire_x (s : State) (ins : Instr) (pen : Nat) : (s.retire ins pen).x = s.x := rfl
@[simp] theorem State.retire_y (s : State) (ins : Instr) (pen : Nat) : (s.retire ins pen).y = s.y := rfl
@[simp] theorem State.retire_sp (s : State) (ins : Instr) (pen : Nat) : (s.retire ins pen).sp = s.sp := rfl
@[simp] theorem State.retire_c (s : State) (ins : Instr) (pen : Nat) : (s.retire ins pen).c = s.c := rfl
@[simp] theorem State.retire_z (s : State) (ins : Instr) (pen : Nat) : (s.retire ins pen).z = s.z := rfl
@[simp] theorem State.retire_i (s : State) (ins : Instr) (pen : Nat) : (s.retire ins pen).i = s.i := rfl
@[simp] theorem State.retire_d (s : State) (ins : Instr) (pen : Nat) : (s.retire ins pen).d = s.d := rfl
@[simp] theorem State.retire_b (s : State) (ins : Instr) (pen : Nat) : (s.retire ins pen).b = s.b := rfl
@[simp] theorem State.retire_v (s : State) (ins : Instr) (pen : Nat) : (s.retire ins pen).v = s.v := rfl
@[simp] theorem State.retire_n (s : State) (ins : Instr) (pen : Nat) : (s.retire ins pen).n = s.n := rfl
@[simp] theorem State.retire_cyc (s : State) (ins : Instr) (pen : Nat) : (s.retire ins pen).cyc = baseCycles s.cfg ins + pen := rfl
@[simp] theorem State.retire_nmiPending (s : State) (ins : Instr) (pen : Nat) : (s.retire ins pen).nmiPending = s.nmiPending := rfl
@[simp] theorem State.retire_irqPending (s : State) (ins : Instr) (pen : Nat) : (s.retire ins pen).irqPending = s.irqPending := rfl
@[simp] theorem State.retire_resetPending (s : State) (ins : Instr) (pen : Nat) : (s.retire ins pen).resetPending = s.resetPending := rfl
@[simp] theorem State.retire_mem (s : State) (ins : Instr) (pen : Nat) : (s.retire ins pen).mem = s.mem := rfl
@[simp] theorem State.retire_history (s : State) (ins : Instr) (pen : Nat) : (s.retire ins pen).history = s.history := rfl
@[simp] theorem State.retire_events (s : State) (ins : Instr) (pen : Nat) : (s.retire ins pen).events = s.events := rfl
@[simp] theorem State.retire_clock (s : State) (ins : Instr) (pen : Nat) : (s.retire ins pen).clock = s.clock := rfl
@[simp] theorem State.retire_draws (s : State) (ins : Instr) (pen : Nat) : (s.retire ins pen).draws = s.draws := rfl
@[simp] theorem State.retire_boot (s : State) (ins : Instr) (pen : Nat) : (s.retire ins pen).boot = s.boot := rfl
@[simp] theorem State.retire_cfg (s : State) (ins : Instr) (pen : Nat) : (s.retire ins pen).cfg = s.cfg := rfl

/-! `State.beginStep` -/

@[simp] theorem State.beginStep_pc (s : State) : (s.beginStep).pc = s.pc := rfl
@[simp] theorem State.beginStep_a (s : State) : (s.beginStep).a = s.a := rfl
@[simp] theorem State.beginStep_x (s : State) : (s.beginStep).x = s.x := rfl
@[simp] theorem State.beginStep_y (s : State) : (s.beginStep).y = s.y := rfl
@[simp] theorem State.beginStep_sp (s : State) : (s.beginStep).sp = s.sp := rfl
@[simp] theorem State.beginStep_c (s : State) : (s.beginStep).c = s.c := rfl
@[simp] theorem State.beginStep_z (s : State) : (s.beginStep).z = s.z := rfl
@[simp] theorem State.beginStep_i (s : State) : (s.beginStep).i = s.i := rfl
@[simp] theorem State.beginStep_d (s : State) : (s.beginStep).d = s.d := rfl
@[simp] theorem State.beginStep_b (s : State) : (s.beginStep).b = s.b := rfl
@[simp] theorem State.beginStep_v (s : State) : (s.beginStep).v = s.v := rfl
@[simp] theorem State.beginStep_n (s : State) : (s.beginStep).n = s.n := rfl
@[simp] theorem State.beginStep_cyc (s : State) : (s.beginStep).cyc = s.cyc := rfl
@[simp] theorem State.beginStep_nmiPending (s : State) : (s.beginStep).nmiPending = s.nmiPending := rfl
@[simp] theorem State.beginStep_irqPending (s : State) : (s.beginStep).irqPending = s.irqPending := rfl
@[simp] theorem State.beginStep_resetPending (s : State) : (s.beginStep).resetPending = s.resetPending := rfl
@[simp] theorem State.beginStep_mem (s : State) : (s.beginStep).mem = s.mem := rfl
@[simp] theorem State.beginStep_history (s : State) : (s.beginStep).history = s.history := rfl
@[simp] theorem State.beginStep_events (s : State) : (s.beginStep).events = [] := rfl
@[simp] theorem State.beginStep_clock (s : State) : (s.beginStep).clock = s.clock := rfl
@[simp] theorem State.beginStep_draws (s : State) : (s.beginStep).draws = s.draws := rfl
@[simp] theorem State.beginStep_boot (s : State) : (s.beginStep).boot = s.boot := rfl
@[simp] theorem State.beginStep_cfg (s : State) : (s.beginStep).cfg = s.cfg := rfl

/-! `State.endStep` -/

@[simp] theorem State.endStep_pc (s : State) : (s.endStep).pc = s.pc := rfl
@[simp] theorem State.endStep_a (s : State) : (s.endStep).a = s.a := rfl
@[simp] theorem State.endStep_x (s : State) : (s.endStep).x = s.x := rfl
@[simp] theorem State.endStep_y (s : State) : (s.endStep).y = s.y := rfl
@[simp] theorem State.endStep_sp (s : State) : (s.endStep).sp = s.sp := rfl
@[simp] theorem State.endStep_c (s : State) : (s.endStep).c = s.c := rfl
@[simp] theorem State.endStep_z (s : State) : (s.endStep).z = s.z := rfl
@[simp] theorem State.endStep_i (s : State) : (s.endStep).i = s.i := rfl
@[simp] theorem State.endStep_d (s : State) : (s.endStep).d = s.d := rfl
@[simp] theorem State.endStep_b (s : State) : (s.endStep).b = s.b := rfl
@[simp] theorem State.endStep_v (s : State) : (s.endStep).v = s.v := rfl
@[simp] theorem State.endStep_n (s : State) : (s.endStep).n = s.n := rfl
@[simp] theorem State.endStep_cyc (s : State) : (s.endStep).cyc = s.cyc := rfl
@[simp] theorem State.endStep_nmiPending (s : State) : (s.endStep).nmiPending = s.nmiPending := rfl
@[simp] theorem State.endStep_irqPending (s : State) : (s.endStep).irqPending = s.irqPending := rfl
@[simp] theorem State.endStep_resetPending (s : State) : (s.endStep).resetPending = s.resetPending := rfl
@[simp] theorem State.endStep_mem (s : State) : (s.endStep).mem = s.mem := rfl
@[simp] theorem State.endStep_history (s : State) : (s.endStep).history = s.history := rfl
@[simp] theorem State.endStep_events (s : State) : (s.endStep).events = s.events := rfl
@[simp] theorem State.endStep_clock (s : State) : (s.endStep).clock = s.clock + s.cyc := rfl
@[simp] theorem State.endStep_draws (s : State) : (s.endStep).draws = s.draws := rfl
@[simp] theorem State.endStep_boot (s : State) : (s.endStep).boot = s.boot := rfl
@[simp] theorem State.endStep_cfg (s : State) : (s.endStep).cfg = s.cfg := rfl

/-- What the devices and the mapper have seen after a read (R50). -/
theorem State.noteRead_history (s : State) (adr : Word) : (s.noteRead adr).history = s.historyAfter adr (.read adr) := rfl

/-- What the devices and the mapper have seen after a write (R51). -/
theorem State.write8_history (s : State) (adr : Word) (w : Byte) :
    (s.write8 adr w).history = s.historyAfter adr (.write adr w) := rfl

/-- Two states that agree on memory, history, clock, power-on and parameters answer every read alike. -/
theorem State.peek_congr {s t : State} (hm : t.mem = s.mem) (hh : t.history = s.history) (hc : t.clock = s.clock)
    (hb : t.boot = s.boot) (hp : t.cfg = s.cfg) (adr : Word) : t.peek adr = s.peek adr := by
  unfold State.peek; rw [hm, hh, hc, hb, hp]

/-- Who sees an access depends on the parameters alone. -/
theorem State.isSeen_congr {s t : State} (hp : t.cfg = s.cfg) (adr : Word) : t.isSeen adr = s.isSeen adr := by
  unfold State.isSeen; rw [hp]

/-- What has been seen after an access depends on what had been, the time and the parameters. -/
theorem State.historyAfter_congr {s t : State} (hh : t.history = s.history) (hc : t.clock = s.clock) (hp : t.cfg = s.cfg)
    (adr : Word) (e : BusEvent) : t.historyAfter adr e = s.historyAfter adr e := by
  unfold State.historyAfter; rw [State.isSeen_congr hp, hh, hc]

end Sys2Proof.Machine
end

