-- ==== Sys2Proof/Laws/Bus.lean ====
section
/-! SUPPORT. What the bus operations do: one lemma per operation that says everything it does. -/

namespace Sys2Proof.Machine

/-- An address below 0x2000 reaches RAM (R45). -/
theorem route_of_lt {cfg : Config} {a : Word} (h : a.toNat < 0x2000) :
    route cfg a = .ram (a.toNat % 2 ^ cfg.ramBits.val) := by
  simp [route, h]

/-- An address that reaches RAM is below 0x2000. -/
theorem lt_of_route {cfg : Config} {a : Word} {k : Nat} (h : route cfg a = .ram k) : a.toNat < 0x2000 := by
  by_contra hc
  simp only [route, hc, if_false] at h
  split at h <;> cases h

/-- A cartridge route keeps its address, which is outside RAM. -/
theorem route_cart {cfg : Config} {a r : Word} (h : route cfg a = .cart r) : r = a ∧ ¬ a.toNat < 0x2000 := by
  simp only [route] at h
  split at h
  · cases h
  · next ha => split at h <;> cases h; exact ⟨rfl, ha⟩

/-- A byte as an address is below 0x100. -/
theorem toNat_zext16 (v : Byte) : (zext16 v).toNat = v.toNat := by
  have := v.isLt
  simp [zext16, BitVec.toNat_setWidth]; omega

/-- The stack address of `S` (R26). -/
theorem toNat_stackAddr (sp : Byte) : (stackAddr sp).toNat = 0x100 + sp.toNat := by
  have := sp.isLt
  simp only [stackAddr, BitVec.toNat_append]
  rw [← Nat.shiftLeft_add_eq_or_of_lt this]; simp [Nat.shiftLeft_eq]

/-- A zero-page address reaches RAM. -/
theorem zext16_lt (v : Byte) : (zext16 v).toNat < 0x2000 := by
  have := v.isLt
  rw [toNat_zext16]; omega

/-- A stack address reaches RAM. -/
theorem stackAddr_lt (sp : Byte) : (stackAddr sp).toNat < 0x2000 := by
  have := sp.isLt
  rw [toNat_stackAddr]; omega

/-- The second byte of a zero-page pointer is in RAM whatever `ZP_PTR_WRAP` is (R76). -/
theorem secondPtrByte_lt (cfg : Config) (p : Byte) : (secondPtrByte cfg p).toNat < 0x2000 := by
  unfold secondPtrByte
  split
  · exact zext16_lt _
  · have := p.isLt
    simp only [BitVec.toNat_add, toNat_zext16]; simp; omega

/-- Nobody sees an access of RAM (R50). -/
theorem isSeen_of_lt {s : State} {a : Word} (h : a.toNat < 0x2000) : s.isSeen a = false := by
  simp [State.isSeen, route_of_lt h]

/-- Every access outside RAM is seen (R50). -/
theorem isSeen_of_not_lt {s : State} {a : Word} (h : ¬ a.toNat < 0x2000) : s.isSeen a = true := by
  unfold State.isSeen
  split
  · next hr => exact absurd (lt_of_route hr) h
  · rfl
  · rfl

/-- An access of RAM leaves no trace outside it (R45). -/
theorem historyAfter_of_lt {s : State} {a : Word} (e : BusEvent) (h : a.toNat < 0x2000) : s.historyAfter a e = s.history := by
  simp [State.historyAfter, isSeen_of_lt h]

/-- An access outside RAM is seen, with the time it came at (R51). -/
theorem historyAfter_of_not_lt {s : State} {a : Word} (e : BusEvent) (h : ¬ a.toNat < 0x2000) :
    s.historyAfter a e = (s.clock, e) :: s.history := by
  simp [State.historyAfter, isSeen_of_not_lt h]

/-- A read of RAM makes its access and changes nothing else (R45). -/
theorem noteRead_of_lt {s : State} {a : Word} (h : a.toNat < 0x2000) :
    s.noteRead a = { s with events := s.events ++ [.read a] } := by
  simp [State.noteRead, historyAfter_of_lt _ h]

/-- The accesses already made do not change what a read answers. -/
@[simp] theorem peek_events (s : State) (e : List BusEvent) (a : Word) :
    State.peek { s with events := e } a = s.peek a := rfl

/-- The accesses already made do not change what the next one adds to the history. -/
@[simp] theorem historyAfter_events (s : State) (es : List BusEvent) (a : Word) (e : BusEvent) :
    State.historyAfter { s with events := es } a e = s.historyAfter a e := rfl

/-- The accesses already made do not change what the devices have seen after a read. -/
@[simp] theorem noteRead_events_history (s : State) (e : List BusEvent) (a : Word) :
    (State.noteRead { s with events := e } a).history = (s.noteRead a).history := rfl

/-- What a plain byte answers depends on memory, power-on and parameters alone. -/
theorem peek_congr_of_plain {s t : State} {b : Word} (hm : t.mem = s.mem) (hb : t.boot = s.boot) (hp : t.cfg = s.cfg)
    (h : s.isPlain b = true) : t.peek b = s.peek b := by
  unfold State.isPlain at h
  unfold State.peek
  rw [hm, hb, hp]
  cases hr : route s.cfg b with
  | ram k => rfl
  | device r => simp [hr] at h
  | cart r =>
    rw [hr] at h
    obtain ⟨w, hw⟩ := Option.isSome_iff_exists.1 h
    simp [hw]

/-- A read leaves every plain byte as it is. -/
theorem peek_noteRead_of_plain {s : State} {b : Word} (a : Word) (h : s.isPlain b = true) :
    (s.noteRead a).peek b = s.peek b :=
  peek_congr_of_plain rfl rfl rfl h

/-- A write to RAM, as one update (R45). -/
theorem write8_of_lt {s : State} {a : Word} (v : Byte) (h : a.toNat < 0x2000) :
    s.write8 a v =
      { s with
        events := s.events ++ [.write a v], mem := Memory.store s.mem (a.toNat % 2 ^ s.cfg.ramBits.val) v } := by
  simp [State.write8, route_of_lt h, historyAfter_of_lt _ h]

/-- A write outside RAM changes no byte (R48, R51). -/
theorem write8_mem_of_not_lt {s : State} {a : Word} (v : Byte) (h : ¬ a.toNat < 0x2000) :
    (s.write8 a v).mem = s.mem := by
  simp only [State.write8]
  split
  · next hr => exact absurd (lt_of_route hr) h
  · rfl
  · rfl

/-- What an address answers after a write: the byte, if the write was to RAM and reached it; what it answered before, if the
address is plain or the write was to RAM (R45, R50). -/
theorem peek_write8_self {s : State} {a b : Word} (v : Byte) (ha : a.toNat < 0x2000)
    (hab : route s.cfg b = route s.cfg a) : (s.write8 a v).peek b = v := by
  rw [write8_of_lt v ha]
  rw [route_of_lt ha] at hab
  simp [State.peek, hab]

/-- A write to RAM leaves every address that it does not reach. -/
theorem peek_write8_of_lt {s : State} {a b : Word} (v : Byte) (ha : a.toNat < 0x2000)
    (hab : route s.cfg b ≠ route s.cfg a) : (s.write8 a v).peek b = s.peek b := by
  rw [write8_of_lt v ha]
  rw [route_of_lt ha] at hab
  unfold State.peek
  cases hb : route s.cfg b with
  | ram k =>
    have hk : k ≠ a.toNat % 2 ^ s.cfg.ramBits.val := fun h => hab (by rw [hb, h])
    simp [Memory.lookup_store_of_ne _ _ hk]
  | device r => rfl
  | cart r =>
    obtain ⟨hr, hb'⟩ := route_cart hb
    have hle : a.toNat % 2 ^ s.cfg.ramBits.val ≤ a.toNat := Nat.mod_le _ _
    have hk : r.toNat ≠ a.toNat % 2 ^ s.cfg.ramBits.val := by rw [hr]; omega
    simp [Memory.lookup_store_of_ne _ _ hk]

/-- A write leaves every plain byte that it does not reach. -/
theorem peek_write8_of_plain {s : State} {a b : Word} (v : Byte) (hb : s.isPlain b = true)
    (hab : route s.cfg b ≠ route s.cfg a) : (s.write8 a v).peek b = s.peek b := by
  by_cases ha : a.toNat < 0x2000
  · exact peek_write8_of_lt v ha hab
  · exact peek_congr_of_plain (write8_mem_of_not_lt v ha) rfl rfl hb

/-- A push, as one update: the byte at `0x0100 | S` of page one, S one lower (R62). -/
theorem push8_eq (s : State) (v : Byte) :
    s.push8 v =
      { s with
        sp := s.sp - 1#8, events := s.events ++ [.write (stackAddr s.sp) v]
        mem := Memory.store s.mem ((stackAddr s.sp).toNat % 2 ^ s.cfg.ramBits.val) v } := by
  simp [State.push8, write8_of_lt v (stackAddr_lt s.sp)]

/-- A pull: the byte at `0x0100 | w8(S + 1)`, S one higher, one access (R63). -/
theorem pull8_eq (s : State) :
    s.pull8 =
      (s.peek (stackAddr (s.sp + 1#8)),
        { s with sp := s.sp + 1#8, events := s.events ++ [.read (stackAddr (s.sp + 1#8))] }) := by
  unfold State.pull8 State.read8
  rw [noteRead_of_lt (stackAddr_lt _)]; rfl

/-- A two-byte pull (R15, R63). -/
theorem pull16_eq (s : State) :
    s.pull16 =
      (mkWord (s.peek (stackAddr (s.sp + 2#8))) (s.peek (stackAddr (s.sp + 1#8))),
        { s with
          sp := s.sp + 2#8
          events := s.events ++ [.read (stackAddr (s.sp + 1#8)), .read (stackAddr (s.sp + 2#8))] }) := by
  have h : s.sp + 1#8 + 1#8 = s.sp + 2#8 := by rw [BitVec.add_assoc]; rfl
  simp only [State.pull16, pull8_eq, h]
  simp [State.peek]

/-- A two-byte push: the high byte at S, the low byte below it (R15, R62). -/
theorem push16_eq (s : State) (w : Word) :
    s.push16 w =
      { s with
        sp := s.sp - 2#8
        events := s.events ++ [.write (stackAddr s.sp) (hiByte w), .write (stackAddr (s.sp - 1#8)) (loByte w)]
        mem :=
          Memory.store (Memory.store s.mem ((stackAddr s.sp).toNat % 2 ^ s.cfg.ramBits.val) (hiByte w))
            ((stackAddr (s.sp - 1#8)).toNat % 2 ^ s.cfg.ramBits.val) (loByte w) } := by
  have h : s.sp - 1#8 - 1#8 = s.sp - 2#8 := by rw [BitVec.sub_sub]; rfl
  simp only [State.push16, push8_eq, h]
  simp

/-- A two-byte read touches the accesses and what the devices have seen, nothing else (R14). -/
theorem read16_state (s : State) (a : Word) :
    (s.read16 a).2 =
      { s with
        events := s.events ++ [.read a, .read (a + 1#16)]
        history := ((s.noteRead a).noteRead (a + 1#16)).history } := by
  simp [State.read16, State.read8, State.noteRead]

/-- An address outside RAM is not routed where a RAM address is. -/
theorem route_ne_of_not_lt {cfg : Config} {a b : Word} (ha : a.toNat < 0x2000) (hb : ¬ b.toNat < 0x2000) :
    route cfg b ≠ route cfg a := fun h => hb (lt_of_route (h.trans (route_of_lt ha)))

/-- Two states that hold the same bytes outside RAM, and agree on history, clock, power-on and parameters, answer
alike outside RAM. -/
theorem peek_congr_outside {s t : State} (hm : ∀ k, 0x2000 ≤ k → Memory.lookup t.mem k = Memory.lookup s.mem k)
    (hh : t.history = s.history) (hc : t.clock = s.clock) (hbt : t.boot = s.boot) (hp : t.cfg = s.cfg) {b : Word}
    (hb : ¬ b.toNat < 0x2000) : t.peek b = s.peek b := by
  unfold State.peek
  rw [hp, hh, hc, hbt]
  split
  · next h => exact absurd (lt_of_route h) hb
  · rfl
  · next r h => rw [hm r.toNat (by have := route_cart h; rw [this.1]; omega)]

/-- What a two-byte read outside RAM answers and what is seen of it depend only on the bytes held outside RAM, history, clock,
power-on and parameters. -/
theorem read16_congr_outside {s t : State} (hm : ∀ k, 0x2000 ≤ k → Memory.lookup t.mem k = Memory.lookup s.mem k)
    (hh : t.history = s.history) (hc : t.clock = s.clock) (hbt : t.boot = s.boot) (hp : t.cfg = s.cfg) {a : Word}
    (h0 : ¬ a.toNat < 0x2000) (h1 : ¬ (a + 1#16).toNat < 0x2000) :
    (t.read16 a).1 = (s.read16 a).1 ∧ (t.read16 a).2.history = (s.read16 a).2.history := by
  have hn : (t.noteRead a).history = (s.noteRead a).history := State.historyAfter_congr hh hc hp _ _
  have hw := peek_congr_outside (s := s.noteRead a) (t := t.noteRead a) hm hn hc hbt hp h1
  refine ⟨?_, State.historyAfter_congr hn hc hp _ _⟩
  simp only [State.read16, State.read8, hw, peek_congr_outside hm hh hc hbt hp h0]

/-- A push leaves every byte held outside RAM. -/
theorem lookup_push8 (s : State) (v : Byte) {k : Nat} (hk : 0x2000 ≤ k) :
    Memory.lookup (s.push8 v).mem k = Memory.lookup s.mem k := by
  have hle : (stackAddr s.sp).toNat % 2 ^ s.cfg.ramBits.val ≤ (stackAddr s.sp).toNat := Nat.mod_le _ _
  have := stackAddr_lt s.sp
  rw [push8_eq]
  exact Memory.lookup_store_of_ne _ _ (by omega)

/-- Entering a handler through a vector outside RAM, as one update (R160, R161, R133). -/
theorem enterHandler_eq (s : State) {ret vector : Word} {bit4 clearB setI : Bool} (h0 : ¬ vector.toNat < 0x2000)
    (h1 : ¬ (vector + 1#16).toNat < 0x2000) :
    s.enterHandler ret vector bit4 clearB setI =
      { s with
        pc := (s.read16 vector).1, sp := s.sp - 3#8, b := s.b && !clearB, i := s.i || setI, cyc := 7
        mem := ((s.push16 ret).push8 (s.packStatus bit4)).mem
        events := s.events ++ s.entryAccesses ret vector bit4
        history := (s.read16 vector).2.history } := by
  have h : s.sp - 2#8 - 1#8 = s.sp - 3#8 := by rw [BitVec.sub_sub]; rfl
  have hm : ∀ k, 0x2000 ≤ k →
      Memory.lookup ((s.push16 ret).push8 (s.packStatus bit4)).mem k = Memory.lookup s.mem k := fun k hk => by
    rw [lookup_push8 _ _ hk, State.push16, lookup_push8 _ _ hk, lookup_push8 _ _ hk]
  have hr := read16_congr_outside (s := s)
    (t := { (s.push16 ret).push8 (s.packStatus bit4) with
      b := ((s.push16 ret).push8 (s.packStatus bit4)).b && !clearB
      i := ((s.push16 ret).push8 (s.packStatus bit4)).i || setI })
    hm (by simp [State.push16, push8_eq]) (by simp [State.push16]) (by simp [State.push16]) (by simp [State.push16]) h0 h1
  unfold State.enterHandler
  simp only [hr.1]
  rw [read16_state] at hr ⊢
  simp only at hr ⊢
  rw [hr.2]
  simp [State.push16, push8_eq, State.entryAccesses, h, BitVec.sub_sub]

/-- Returning from a handler, as one update (R132). -/
theorem leaveHandler_eq (s : State) :
    s.leaveHandler =
      { s.unpackStatus (s.peek (stackAddr (s.sp + 1#8))) with
        pc := mkWord (s.peek (stackAddr (s.sp + 3#8))) (s.peek (stackAddr (s.sp + 2#8)))
        sp := s.sp + 3#8
        events :=
          s.events ++
            [.read (stackAddr (s.sp + 1#8)), .read (stackAddr (s.sp + 2#8)), .read (stackAddr (s.sp + 3#8))] } := by
  have h2 : s.sp + 1#8 + 1#8 = s.sp + 2#8 := by rw [BitVec.add_assoc]; rfl
  have h3 : s.sp + 1#8 + 2#8 = s.sp + 3#8 := by rw [BitVec.add_assoc]; rfl
  simp only [State.leaveHandler, pull8_eq, pull16_eq, State.unpackStatus_sp, h2, h3]
  simp [State.peek, State.unpackStatus]

/-- The pointer reads of a memory mode are all a mode does to the state (R70 to R77). -/
theorem locate_state (s : State) (m : MemMode) :
    (s.locate m).state = { s with events := s.events ++ s.pointerReads m } := by
  cases m <;>
    simp [State.locate, State.pointerReads, indexed, State.readPtr, State.read8, noteRead_of_lt (zext16_lt _),
      noteRead_of_lt (secondPtrByte_lt _ _)]

/-- What reading an operand does: its value, its page-cross bit, its accesses, and what the devices see (R17, R50). -/
theorem fetchOperand_eq (s : State) (o : Operand) :
    s.fetchOperand o =
      ⟨s.operandValue o, s.operandCrosses o,
        { s with events := s.events ++ s.operandReads o, history := s.operandHistory o }⟩ := by
  cases o with
  | imm n => simp [State.fetchOperand, State.operandValue, State.operandCrosses, State.operandReads, State.operandHistory]
  | mem m =>
    simp only [State.fetchOperand, State.fetchMem, State.read8, locate_state, peek_events]
    simp [State.operandValue, State.operandCrosses, State.operandReads, State.operandHistory, State.noteRead]

/-- What a read-modify-write does: the old byte, and one read and one write of it (R61). -/
theorem modifyMem_eq (s : State) (m : MemMode) (f : Byte → Byte) :
    s.modifyMem m f =
      (s.peek (s.locate m).ea,
        { s with
          events := s.events ++ s.modifyAccesses m f
          mem := (s.write8 (s.locate m).ea (f (s.peek (s.locate m).ea))).mem
          history :=
            ((s.noteRead (s.locate m).ea).write8 (s.locate m).ea (f (s.peek (s.locate m).ea))).history }) := by
  simp only [State.modifyMem, State.read8, locate_state, peek_events]
  simp [State.modifyAccesses, State.write8, State.noteRead]
  rfl

end Sys2Proof.Machine
end

