-- ==== Sys2Proof/Laws/Decode.lean ====
section
/-! SUPPORT. What decoding does for each operand count, and that a word is its two bytes again. -/

namespace Sys2Proof

/-- A word's bytes, high then low, are the word (30_encoding.md R85). -/
@[simp] theorem bytes_append (a : Word) : a.extractLsb' 8 8 ++ a.extractLsb' 0 8 = a := by
  apply BitVec.eq_of_toNat_eq
  have := a.isLt
  rw [BitVec.toNat_append, ← Nat.shiftLeft_add_eq_or_of_lt (BitVec.isLt _)]
  simp only [BitVec.extractLsb'_toNat, Nat.shiftLeft_eq, Nat.shiftRight_eq_div_pow]
  omega

/-- The low byte of a word made of two bytes. -/
@[simp] theorem append_low (h l : Byte) : (h ++ l : Word).extractLsb' 0 8 = l := by
  apply BitVec.eq_of_toNat_eq
  have := l.isLt
  rw [BitVec.extractLsb'_toNat, BitVec.toNat_append, ← Nat.shiftLeft_add_eq_or_of_lt l.isLt, Nat.shiftLeft_eq]
  simp only [Nat.shiftRight_eq_div_pow]
  omega

/-- The high byte of a word made of two bytes. -/
@[simp] theorem append_high (h l : Byte) : (h ++ l : Word).extractLsb' 8 8 = h := by
  apply BitVec.eq_of_toNat_eq
  have := l.isLt
  have := h.isLt
  rw [BitVec.extractLsb'_toNat, BitVec.toNat_append, ← Nat.shiftLeft_add_eq_or_of_lt l.isLt, Nat.shiftLeft_eq]
  simp only [Nat.shiftRight_eq_div_pow]
  omega

/-- Decoding an opcode without an operand byte (R86). -/
theorem decode_of_count_zero {op : Byte} (h : operandCount op = 0) (rest : List Byte) :
    decode (op :: rest) = .ok (decodeOp op 0#8 0#8, rest) := by
  rw [decode.eq_2]; simp only [h]

/-- Decoding an opcode with one operand byte (R86). -/
theorem decode_of_count_one {op : Byte} (h : operandCount op = 1) (b1 : Byte) (rest : List Byte) :
    decode (op :: b1 :: rest) = .ok (decodeOp op b1 0#8, rest) := by
  simp only [decode]; generalize operandCount op = n at h; subst h; rfl

/-- Decoding an opcode with two operand bytes (R86). -/
theorem decode_of_count_two {op : Byte} (h : operandCount op = 2) (b1 b2 : Byte) (rest : List Byte) :
    decode (op :: b1 :: b2 :: rest) = .ok (decodeOp op b1 b2, rest) := by
  simp only [decode]; generalize operandCount op = n at h; subst h; rfl

end Sys2Proof
end

