-- ==== Sys2Proof/Laws/Environment.lean ====
section
/-! SUPPORT. What the host's actions do to the state, save-states above all, and the first facts of runs. -/

namespace Sys2Proof.Machine

/-! `State.serialize` and `State.inputChange`, field by field -/

@[simp] theorem State.serialize_core (s : State) : s.serialize.core = s.toCpuState := rfl
@[simp] theorem State.serialize_ram (s : State) : s.serialize.ram = s.mem.ramPart := rfl
@[simp] theorem State.serialize_history (s : State) : s.serialize.history = s.history := rfl
@[simp] theorem State.serialize_events (s : State) : s.serialize.events = s.events := rfl
@[simp] theorem State.serialize_clock (s : State) : s.serialize.clock = s.clock := rfl
@[simp] theorem State.serialize_draws (s : State) : s.serialize.draws = s.draws := rfl
@[simp] theorem State.serialize_boot (s : State) : s.serialize.boot = s.boot := rfl
@[simp] theorem State.inputChange_toCpuState (s : State) (n : Nat) : (s.inputChange n).toCpuState = s.toCpuState := rfl
@[simp] theorem State.inputChange_mem (s : State) (n : Nat) : (s.inputChange n).mem = s.mem := rfl
@[simp] theorem State.inputChange_history (s : State) (n : Nat) : (s.inputChange n).history = (s.clock, .inputChange n) :: s.history := rfl
@[simp] theorem State.inputChange_events (s : State) (n : Nat) : (s.inputChange n).events = s.events := rfl
@[simp] theorem State.inputChange_clock (s : State) (n : Nat) : (s.inputChange n).clock = s.clock := rfl
@[simp] theorem State.inputChange_draws (s : State) (n : Nat) : (s.inputChange n).draws = s.draws := rfl
@[simp] theorem State.inputChange_boot (s : State) (n : Nat) : (s.inputChange n).boot = s.boot := rfl
@[simp] theorem State.inputChange_cfg (s : State) (n : Nat) : (s.inputChange n).cfg = s.cfg := rfl

/-- A RAM byte's number is below 0x2000, whatever `RAM_SIZE` is (R45). -/
theorem ramKey_lt {cfg : Config} {k : Nat} (h : k < 2 ^ cfg.ramBits.val) : k < 0x2000 :=
  Nat.lt_of_lt_of_le h
    (Nat.pow_le_pow_right (n := 2) (by decide) (show cfg.ramBits.val ≤ 13 by have := cfg.ramBits.isLt; omega))

/-- The RAM cells of a valid save-state are canonical and RAM bytes (log entry 14). -/
theorem SaveState.valid_iff {cfg : Config} {saved : SaveState} :
    saved.valid cfg = true ↔
      Memory.wf saved.ram = true ∧ ∀ cell ∈ saved.ram, cell.1 < 2 ^ cfg.ramBits.val := by
  simp [SaveState.valid]

/-- Everything deserialize can do: restore a valid save-state, or leave the machine alone (R175, R155). -/
theorem deserialize_cases (s : State) (saved : SaveState) :
    (saved.valid s.cfg = true ∧
      s.deserialize saved =
        { s with
          toCpuState := saved.core, mem := saved.ram ++ s.mem.cartPart, history := saved.history
          events := saved.events, clock := saved.clock, draws := saved.draws, boot := saved.boot }) ∨
    (saved.valid s.cfg = false ∧ s.deserialize saved = s) := by
  unfold State.deserialize
  split
  · next h => exact .inl ⟨h, rfl⟩
  · next h => exact .inr ⟨by simpa using h, rfl⟩

/-- The cells outside RAM of a canonical memory are canonical from 0x2000 up. -/
theorem Memory.wfFrom_cartPart {lo : Nat} {m : Memory} (h : Memory.wfFrom lo m = true) :
    Memory.wfFrom 0x2000 m.cartPart = true := by
  induction m generalizing lo with
  | nil => rfl
  | cons cell m ih =>
    simp only [Memory.wfFrom, Bool.and_eq_true, decide_eq_true_eq] at h
    simp only [Memory.cartPart, List.filter_cons]
    split
    · next hc =>
      simp only [Bool.not_eq_true', decide_eq_false_iff_not, Nat.not_lt] at hc
      simp only [Memory.wfFrom, Bool.and_eq_true, decide_eq_true_eq]
      exact ⟨hc, Memory.wfFrom_filter _ h.2⟩
    · exact ih h.2

/-- The cells outside RAM answer as the whole memory does, outside RAM. -/
theorem Memory.lookup_cartPart (m : Memory) {k : Nat} (hk : 0x2000 ≤ k) :
    Memory.lookup m.cartPart k = Memory.lookup m k :=
  Memory.lookup_filter m fun _ => by simpa using hk

/-- The RAM cells answer as the whole memory does, in RAM. -/
theorem Memory.lookup_ramPart (m : Memory) {k : Nat} (hk : k < 0x2000) :
    Memory.lookup m.ramPart k = Memory.lookup m k :=
  Memory.lookup_filter m fun _ => by simpa using hk

/-- Restoring a save-state keeps a well-formed machine well formed. -/
theorem State.wf_deserialize {s : State} (saved : SaveState) (hs : s.wf = true) : (s.deserialize saved).wf = true := by
  obtain ⟨hv, he⟩ | ⟨-, he⟩ := deserialize_cases s saved
  · obtain ⟨hw, hk⟩ := SaveState.valid_iff.1 hv
    simp only [State.wf, Bool.and_eq_true, List.all_eq_true] at hs
    simp only [he, State.wf, Bool.and_eq_true, List.all_eq_true, List.mem_append]
    refine ⟨Memory.wfFrom_append (by decide) hw (fun c hc => ramKey_lt (hk c hc)) (Memory.wfFrom_cartPart hs.1), ?_⟩
    rintro c (hc | hc)
    · simp [legalKey, hk c hc]
    · exact hs.2 c (List.mem_of_mem_filter hc)
  · rw [he]; exact hs

/-- No host action lists, unlists or changes a byte, but for deserialize and RAM (R175). -/
theorem host_mem (s : State) (act : HostAction) :
    (s.host act).mem = s.mem ∧ (s.host act).cfg = s.cfg ∨
      ∃ saved, act = .deserialize saved ∧ s.host act = s.deserialize saved := by
  cases act with
  | deserialize saved => exact .inr ⟨saved, rfl, rfl⟩
  | reset | resetMachine =>
    exact .inl (by simp [State.host, State.resetMachine, State.hostReset, State.resetSequence, read16_state])
  | raiseNmi | raiseIrq | withdrawIrq | requestReset | inputChange => exact .inl ⟨rfl, rfl⟩

/-- Every host action keeps a well-formed machine well formed. -/
theorem State.wf_host {s : State} (act : HostAction) (hs : s.wf = true) : (s.host act).wf = true := by
  obtain ⟨hm, hp⟩ | ⟨saved, -, he⟩ := host_mem s act
  · rw [State.wf_congr hm hp]; exact hs
  · rw [he]; exact State.wf_deserialize saved hs

/-- An induction over runs, said once: what every step and every host action keeps holds wherever a run leads. -/
theorem RunsTo.induction {P : State → Prop} {endPc : Option Word} {n : Nat} {s t : State}
    (hstep : ∀ u v : State, P u → Machine.step u = .next v → P v) (hhost : ∀ u act, P u → P (State.host u act))
    (h : RunsTo endPc n s t) (hs : P s) : P t := by
  induction h with
  | refl => exact hs
  | step _ _ hu ih => exact hstep _ _ (ih hs) hu
  | host _ act ih => exact hhost _ act (ih hs)

/-- A run towards an end address is a run. -/
theorem RunsTo.reaches {endPc : Option Word} {n : Nat} {s t : State} (h : RunsTo endPc n s t) : Reaches s t := by
  refine ⟨n, ?_⟩
  induction h with
  | refl => exact .refl _
  | step _ _ hs ih => exact .step ih rfl hs
  | host _ act ih => exact .host ih act

end Sys2Proof.Machine
end

