-- ==== Sys2Proof/Laws/Shapes.lean ====
section
/-! SUPPORT. What the shared instruction shapes and the step do: one lemma each, to be cited instead of unfolding. -/

namespace Sys2Proof.Machine

/-- A reading instruction always completes, and this is its next state (R17, R153). -/
theorem readInstr_eq (i : Instr) (o : Operand) (f : State → Byte → State) (s : State) :
    readInstr i o f s =
      .next
        ((f { s with events := s.events ++ s.operandReads o, history := s.operandHistory o } (s.operandValue o)).retire i
          (s.operandCrosses o).toNat) := by
  simp only [readInstr, fetchOperand_eq]

/-- A storing instruction always completes, and this is its next state (R97 to R99). -/
theorem storeInstr_eq (i : Instr) (m : MemMode) (v : Byte) (s : State) :
    storeInstr i m v s =
      .next
        (State.retire
          { s with
            events := s.events ++ s.storeAccesses m v, mem := (s.write8 (s.locate m).ea v).mem
            history := (s.write8 (s.locate m).ea v).history } i 0) := by
  simp only [storeInstr, locate_state]
  simp [State.write8, State.storeAccesses]

/-- INC and DEC always complete, and this is their next state (R119, R120). -/
theorem modifyInstr_eq (i : Instr) (m : MemMode) (f : Byte → Byte) (s : State) :
    modifyInstr i m f s =
      .next
        ((State.setNZ
          { s with
            events := s.events ++ s.modifyAccesses m f
            mem := (s.write8 (s.locate m).ea (f (s.peek (s.locate m).ea))).mem
            history :=
              ((s.noteRead (s.locate m).ea).write8 (s.locate m).ea (f (s.peek (s.locate m).ea))).history }
          (f (s.peek (s.locate m).ea))).retire i 0) := by
  simp only [modifyInstr, modifyMem_eq]

/-- A shift of memory always completes, and this is its next state (R125 to R128). -/
theorem shiftInstr_mem_eq (i : Instr) (m : MemMode) (f : Byte → Shifted) (s : State) :
    shiftInstr i (.mem m) f s =
      .next
        ((State.setNZ
          { s with
            c := (f (s.peek (s.locate m).ea)).carry
            events := s.events ++ s.modifyAccesses m (fun v => (f v).value)
            mem := (s.write8 (s.locate m).ea (f (s.peek (s.locate m).ea)).value).mem
            history :=
              ((s.noteRead (s.locate m).ea).write8 (s.locate m).ea (f (s.peek (s.locate m).ea)).value).history }
          (f (s.peek (s.locate m).ea)).value).retire i 0) := by
  simp only [shiftInstr, modifyMem_eq]

/-- A branch always completes: PC and the cycle count change and nothing else (R134). -/
theorem branchInstr_eq (cond : Bool) (d : Byte) (s : State) :
    branchInstr cond d s =
      .next
        { s with
          pc := if cond then branchTarget s.pc d else s.pc + 2#16
          cyc := 2 + s.branchPenalty cond d } := by
  cases cond <;> simp [branchInstr, State.branchPenalty]; omega

/-- A state that agrees on memory, power-on and parameters has every plain byte as before. -/
theorem keepsPlainBytes_of_eq {s t : State} (hm : t.mem = s.mem) (hb : t.boot = s.boot) (hp : t.cfg = s.cfg) :
    KeepsPlainBytes s t :=
  fun _ hp' => peek_congr_of_plain hm hb hp hp'

/-- A state that agrees on memory, history, clock, power-on and parameters answers every read as before. -/
theorem keepsEveryByte_of_eq {s t : State} (hm : t.mem = s.mem) (hh : t.history = s.history) (hc : t.clock = s.clock)
    (hb : t.boot = s.boot) (hp : t.cfg = s.cfg) : KeepsEveryByte s t := fun b => State.peek_congr hm hh hc hb hp b

/-- A store's next state stores exactly its byte. -/
theorem storesExactly_of_write8 {s t : State} {a : Word} {v : Byte} (hm : t.mem = (s.write8 a v).mem)
    (hc : t.clock = s.clock) (hb : t.boot = s.boot) (hp : t.cfg = s.cfg)
    (hh : t.history = (s.write8 a v).history ∨ t.history = ((s.noteRead a).write8 a v).history) :
    StoresExactly s t a v := by
  by_cases ha : a.toNat < 0x2000
  · have hhist : t.history = (s.write8 a v).history := by
      rcases hh with h | h
      · exact h
      · rw [h, noteRead_of_lt ha, write8_of_lt v ha, write8_of_lt v ha]
    have hpk : ∀ b, t.peek b = (s.write8 a v).peek b := fun b => State.peek_congr hm hhist hc hb hp b
    refine ⟨fun _ b hab => ?_, fun b hab hs => ?_, fun _ b hab => ?_, fun h => absurd ha h⟩
    · rw [hpk]; exact peek_write8_self v ha hab
    · rw [hpk]; exact peek_write8_of_plain v hs hab
    · rw [hpk]; exact peek_write8_of_lt v ha hab
  · have hmem : t.mem = s.mem := hm.trans (write8_mem_of_not_lt v ha)
    refine ⟨fun h => absurd h ha, fun b _ hs => ?_, fun h => absurd h ha, fun _ => hmem⟩
    exact peek_congr_of_plain hmem hb hp hs

/-- What a step does: one of four things (R152). -/
theorem step_cases {s t : State} (h : step s = .next t) :
    (s.action = .reset ∧ t = s.beginStep.resetSequence.endStep) ∨
    (s.action = .nmi ∧ t = s.beginStep.nmiEntry.endStep) ∨
    (s.action = .irq ∧ t = s.beginStep.irqEntry.endStep) ∨
    (s.action = .instruction ∧
      ∃ u, exec s.beginStep.maskedIrq.fetch.1 s.beginStep.maskedIrq.fetch.2 = .next u ∧ t = u.endStep) := by
  unfold step at h
  split at h
  · next ha => cases h; exact .inl ⟨ha, rfl⟩
  · next ha => cases h; exact .inr (.inl ⟨ha, rfl⟩)
  · next ha => cases h; exact .inr (.inr (.inl ⟨ha, rfl⟩))
  · next ha =>
    refine .inr (.inr (.inr ⟨ha, ?_⟩))
    unfold State.runInstruction at h
    simp only at h
    split at h
    · next u hu => cases h; exact ⟨u, hu, rfl⟩
    · cases h
    · cases h

/-- What fetching does to the state: the accesses, and what the devices see (R153). -/
theorem fetch_frame (s : State) :
    ∃ e h, s.fetch.2 = { s with events := e, history := h } := by
  unfold State.fetch
  simp only [State.read8]
  split
  · exact ⟨_, _, rfl⟩
  · exact ⟨_, _, rfl⟩
  · exact ⟨_, _, rfl⟩

/-- What the masked check does: nothing, or to the request and the count of free choices alone (R158). -/
theorem maskedIrq_frame (s : State) :
    ∃ p d, s.maskedIrq = { s with irqPending := p, draws := d } := by
  unfold State.maskedIrq
  split
  · split <;> exact ⟨_, _, rfl⟩
  · exact ⟨_, _, rfl⟩

/-- NMI entry, as one update (R160). -/
theorem nmiEntry_eq (s : State) :
    s.nmiEntry =
      { s with
        pc := (s.read16 nmiVector).1, sp := s.sp - 3#8, b := false, i := s.i || s.cfg.nmiSetsI, cyc := 7
        nmiPending := false
        mem := ((s.push16 s.pc).push8 (s.packStatus s.entryBit4)).mem
        events := s.events ++ s.entryAccesses s.pc nmiVector s.entryBit4
        history := (s.read16 nmiVector).2.history } := by
  rw [State.nmiEntry, enterHandler_eq _ (by decide) (by decide)]
  simp only [Bool.not_true, Bool.and_false]
  rfl

/-- IRQ entry, as one update (R161). -/
theorem irqEntry_eq (s : State) :
    s.irqEntry =
      { s with
        pc := (s.read16 irqVector).1, sp := s.sp - 3#8, b := false, i := true, cyc := 7
        irqPending := false
        mem := ((s.push16 s.pc).push8 (s.packStatus s.entryBit4)).mem
        events := s.events ++ s.entryAccesses s.pc irqVector s.entryBit4
        history := (s.read16 irqVector).2.history } := by
  rw [State.irqEntry, enterHandler_eq _ (by decide) (by decide)]
  simp only [Bool.not_true, Bool.and_false, Bool.or_true]
  rfl

/-- BRK, as one update (R133). -/
theorem execBrk_eq (s : State) :
    execBrk s =
      .next
        { s with
          pc := (s.read16 irqVector).1, sp := s.sp - 3#8, i := true, cyc := 7
          mem := ((s.push16 (s.pc + 2#16)).push8 (s.packStatus true)).mem
          events := s.events ++ s.entryAccesses (s.pc + 2#16) irqVector true
          history := (s.read16 irqVector).2.history } := by
  rw [execBrk, enterHandler_eq _ (by decide) (by decide)]
  simp

end Sys2Proof.Machine
end

