-- ==== Sys2Proof/Laws/Exec.lean ====
section
/-! SUPPORT. What every instruction keeps, and how memory can change in an instruction and in a step: by bytes stored in
RAM and in no other way. -/

namespace Sys2Proof.Machine

/-- A property of memories that storing a byte in RAM keeps survives a bus write. -/
theorem write8_mem_induction {P : Memory → Prop} (s : State) (a : Word) (v : Byte)
    (hstore : ∀ m (b : Word) w, inRam b → P m → P (Memory.store m (b.toNat % 2 ^ s.cfg.ramBits.val) w)) (hs : P s.mem) :
    P (s.write8 a v).mem := by
  by_cases ha : a.toNat < 0x2000
  · rw [write8_of_lt v ha]; exact hstore _ _ _ ha hs
  · rw [write8_mem_of_not_lt v ha]; exact hs

/-- A property of memories that storing a byte in RAM keeps survives a push. -/
theorem push8_mem_induction {P : Memory → Prop} (s : State) (v : Byte)
    (hstore : ∀ m (b : Word) w, inRam b → P m → P (Memory.store m (b.toNat % 2 ^ s.cfg.ramBits.val) w)) (hs : P s.mem) :
    P (s.push8 v).mem := by
  rw [push8_eq]; exact hstore _ _ _ (stackAddr_lt _) hs

/-- A property of memories that storing a byte in RAM keeps survives entering a handler. -/
theorem enterHandler_mem_induction {P : Memory → Prop} (s : State) (ret vector : Word) (bit4 clearB setI : Bool)
    (hstore : ∀ m (b : Word) w, inRam b → P m → P (Memory.store m (b.toNat % 2 ^ s.cfg.ramBits.val) w)) (hs : P s.mem) :
    P (s.enterHandler ret vector bit4 clearB setI).mem := by
  have h : (s.enterHandler ret vector bit4 clearB setI).mem = ((s.push16 ret).push8 (s.packStatus bit4)).mem := by
    simp [State.enterHandler, read16_state]
  rw [h]
  exact push8_mem_induction _ _ hstore (push8_mem_induction _ _ hstore (push8_mem_induction _ _ hstore hs))

/-- The fields no instruction writes. -/
theorem exec_keeps {i : Instr} {s t : State} (h : exec i s = .next t) :
    t.cfg = s.cfg ∧ t.clock = s.clock ∧ t.draws = s.draws ∧ t.boot = s.boot := by
  cases i
  case lda o | ldx o | ldy o | adc o | sbc o | and o | ora o | eor o | cmp o | cpx o | cpy o =>
    simp only [exec, execLda, execLdx, execLdy, execAdc, execSbc, execAnd, execOra, execEor, execCmp, execCpx, execCpy, readInstr_eq] at h
    cases h; exact ⟨rfl, rfl, rfl, rfl⟩
  case bit m =>
    simp only [exec, execBit, readInstr_eq] at h; cases h; exact ⟨rfl, rfl, rfl, rfl⟩
  case sta m | stx m | sty m =>
    simp only [exec, execSta, execStx, execSty, storeInstr_eq] at h
    cases h; exact ⟨rfl, rfl, rfl, rfl⟩
  case inc m | dec m =>
    simp only [exec, execInc, execDec, modifyInstr_eq] at h
    cases h; exact ⟨rfl, rfl, rfl, rfl⟩
  case asl o | lsr o | rol o | ror o =>
    cases o with
    | acc => cases h; exact ⟨rfl, rfl, rfl, rfl⟩
    | mem m =>
      simp only [exec, execAsl, execLsr, execRol, execRor, shiftInstr_mem_eq] at h
      cases h; exact ⟨rfl, rfl, rfl, rfl⟩
  case bcc d | bcs d | beq d | bmi d | bne d | bpl d | bvc d | bvs d =>
    simp only [exec, execBcc, execBcs, execBeq, execBmi, execBne, execBpl, execBvc, execBvs, branchInstr_eq] at h
    cases h; exact ⟨rfl, rfl, rfl, rfl⟩
  case jmp w => cases w <;> (cases h; exact ⟨rfl, rfl, rfl, rfl⟩)
  all_goals (cases h; exact ⟨rfl, rfl, rfl, rfl⟩)

/-- A property of memories that storing a byte in RAM keeps survives every instruction. -/
theorem exec_mem_induction {P : Memory → Prop} {i : Instr} {s t : State} (h : exec i s = .next t)
    (hstore : ∀ m (b : Word) w, inRam b → P m → P (Memory.store m (b.toNat % 2 ^ s.cfg.ramBits.val) w)) (hs : P s.mem) :
    P t.mem := by
  cases i
  case lda o | ldx o | ldy o | adc o | sbc o | and o | ora o | eor o | cmp o | cpx o | cpy o =>
    simp only [exec, execLda, execLdx, execLdy, execAdc, execSbc, execAnd, execOra, execEor, execCmp, execCpx, execCpy, readInstr_eq] at h
    cases h; exact hs
  case bit m =>
    simp only [exec, execBit, readInstr_eq] at h; cases h; exact hs
  case sta m | stx m | sty m =>
    simp only [exec, execSta, execStx, execSty, storeInstr_eq] at h
    cases h; exact write8_mem_induction _ _ _ hstore hs
  case inc m | dec m =>
    simp only [exec, execInc, execDec, modifyInstr_eq] at h
    cases h; exact write8_mem_induction _ _ _ hstore hs
  case asl o | lsr o | rol o | ror o =>
    cases o with
    | acc => cases h; exact hs
    | mem m =>
      simp only [exec, execAsl, execLsr, execRol, execRor, shiftInstr_mem_eq] at h
      cases h; exact write8_mem_induction _ _ _ hstore hs
  case bcc d | bcs d | beq d | bmi d | bne d | bpl d | bvc d | bvs d =>
    simp only [exec, execBcc, execBcs, execBeq, execBmi, execBne, execBpl, execBvc, execBvs, branchInstr_eq] at h
    cases h; exact hs
  case jmp w => cases w <;> (cases h; exact hs)
  case pha | php => cases h; exact push8_mem_induction _ _ hstore hs
  case jsr a => cases h; exact push8_mem_induction _ _ hstore (push8_mem_induction _ _ hstore hs)
  case brk => cases h; exact enterHandler_mem_induction _ _ _ _ _ _ hstore hs
  all_goals (cases h; exact hs)

/-- What the boundary check and the fetch keep (R153, R158). -/
theorem fetch_keeps (s : State) :
    s.maskedIrq.fetch.2.mem = s.mem ∧ s.maskedIrq.fetch.2.cfg = s.cfg ∧ s.maskedIrq.fetch.2.clock = s.clock ∧
      s.maskedIrq.fetch.2.boot = s.boot := by
  obtain ⟨e, h, hf⟩ := fetch_frame s.maskedIrq
  obtain ⟨p, d, hm⟩ := maskedIrq_frame s
  rw [hf, hm]; exact ⟨rfl, rfl, rfl, rfl⟩

/-- A property of memories that storing a byte in RAM keeps survives every step. -/
theorem step_mem_induction {P : Memory → Prop} {s t : State} (h : step s = .next t)
    (hstore : ∀ m (b : Word) w, inRam b → P m → P (Memory.store m (b.toNat % 2 ^ s.cfg.ramBits.val) w)) (hs : P s.mem) :
    P t.mem := by
  obtain ⟨-, rfl⟩ | ⟨-, rfl⟩ | ⟨-, rfl⟩ | ⟨-, u, hu, rfl⟩ := step_cases h
  · simpa [State.resetSequence, read16_state, State.endStep, State.beginStep] using hs
  · show P (State.nmiEntry s.beginStep).mem
    unfold State.nmiEntry
    exact enterHandler_mem_induction _ _ _ _ _ _ hstore hs
  · show P (State.irqEntry s.beginStep).mem
    unfold State.irqEntry
    exact enterHandler_mem_induction _ _ _ _ _ _ hstore hs
  · have hk := fetch_keeps s.beginStep
    refine exec_mem_induction (t := u) hu ?_ (hk.1 ▸ hs)
    rw [hk.2.1]; exact hstore

end Sys2Proof.Machine
end

