-- ==== Sys2Proof/Laws/PerInstr.lean ====
section
/-! SUPPORT. A statement for all instructions, one lemma per constructor: the encoding is as long as the instruction. -/

namespace Sys2Proof.Laws.Length

/-- The encoding of a well-formed instruction has `len` bytes (30_encoding.md R80). -/
def Statement (i : Instr) : Prop := i.WellFormed → (encode i).length = i.length

theorem lda (o : Operand) : Statement (.lda o) := by
  rcases o with n | m
  · intro; rfl
  · cases m <;> first | (intro; rfl) | (intro h; cases h)

theorem ldx (o : Operand) : Statement (.ldx o) := by
  rcases o with n | m
  · intro; rfl
  · cases m <;> first | (intro; rfl) | (intro h; cases h)

theorem ldy (o : Operand) : Statement (.ldy o) := by
  rcases o with n | m
  · intro; rfl
  · cases m <;> first | (intro; rfl) | (intro h; cases h)

theorem sta (m : MemMode) : Statement (.sta m) := by
  cases m <;> first | (intro; rfl) | (intro h; cases h)

theorem stx (m : MemMode) : Statement (.stx m) := by
  cases m <;> first | (intro; rfl) | (intro h; cases h)

theorem sty (m : MemMode) : Statement (.sty m) := by
  cases m <;> first | (intro; rfl) | (intro h; cases h)

theorem tax : Statement .tax := fun _ => rfl

theorem tay : Statement .tay := fun _ => rfl

theorem txa : Statement .txa := fun _ => rfl

theorem tya : Statement .tya := fun _ => rfl

theorem tsx : Statement .tsx := fun _ => rfl

theorem txs : Statement .txs := fun _ => rfl

theorem pha : Statement .pha := fun _ => rfl

theorem php : Statement .php := fun _ => rfl

theorem pla : Statement .pla := fun _ => rfl

theorem plp : Statement .plp := fun _ => rfl

theorem adc (o : Operand) : Statement (.adc o) := by
  rcases o with n | m
  · intro; rfl
  · cases m <;> first | (intro; rfl) | (intro h; cases h)

theorem sbc (o : Operand) : Statement (.sbc o) := by
  rcases o with n | m
  · intro; rfl
  · cases m <;> first | (intro; rfl) | (intro h; cases h)

theorem and (o : Operand) : Statement (.and o) := by
  rcases o with n | m
  · intro; rfl
  · cases m <;> first | (intro; rfl) | (intro h; cases h)

theorem ora (o : Operand) : Statement (.ora o) := by
  rcases o with n | m
  · intro; rfl
  · cases m <;> first | (intro; rfl) | (intro h; cases h)

theorem eor (o : Operand) : Statement (.eor o) := by
  rcases o with n | m
  · intro; rfl
  · cases m <;> first | (intro; rfl) | (intro h; cases h)

theorem bit (m : MemMode) : Statement (.bit m) := by
  cases m <;> first | (intro; rfl) | (intro h; cases h)

theorem cmp (o : Operand) : Statement (.cmp o) := by
  rcases o with n | m
  · intro; rfl
  · cases m <;> first | (intro; rfl) | (intro h; cases h)

theorem cpx (o : Operand) : Statement (.cpx o) := by
  rcases o with n | m
  · intro; rfl
  · cases m <;> first | (intro; rfl) | (intro h; cases h)

theorem cpy (o : Operand) : Statement (.cpy o) := by
  rcases o with n | m
  · intro; rfl
  · cases m <;> first | (intro; rfl) | (intro h; cases h)

theorem inc (m : MemMode) : Statement (.inc m) := by
  cases m <;> first | (intro; rfl) | (intro h; cases h)

theorem dec (m : MemMode) : Statement (.dec m) := by
  cases m <;> first | (intro; rfl) | (intro h; cases h)

theorem inx : Statement .inx := fun _ => rfl

theorem iny : Statement .iny := fun _ => rfl

theorem dex : Statement .dex := fun _ => rfl

theorem dey : Statement .dey := fun _ => rfl

theorem asl (o : ShiftOperand) : Statement (.asl o) := by
  rcases o with _ | m
  · intro; rfl
  · cases m <;> first | (intro; rfl) | (intro h; cases h)

theorem lsr (o : ShiftOperand) : Statement (.lsr o) := by
  rcases o with _ | m
  · intro; rfl
  · cases m <;> first | (intro; rfl) | (intro h; cases h)

theorem rol (o : ShiftOperand) : Statement (.rol o) := by
  rcases o with _ | m
  · intro; rfl
  · cases m <;> first | (intro; rfl) | (intro h; cases h)

theorem ror (o : ShiftOperand) : Statement (.ror o) := by
  rcases o with _ | m
  · intro; rfl
  · cases m <;> first | (intro; rfl) | (intro h; cases h)

theorem jmp (t : JumpOperand) : Statement (.jmp t) := by
  cases t <;> intro <;> rfl

theorem jsr (a : Word) : Statement (.jsr a) := fun _ => rfl

theorem rts : Statement .rts := fun _ => rfl

theorem rti : Statement .rti := fun _ => rfl

theorem brk : Statement .brk := fun _ => rfl

theorem bcc (d : Byte) : Statement (.bcc d) := fun _ => rfl

theorem bcs (d : Byte) : Statement (.bcs d) := fun _ => rfl

theorem beq (d : Byte) : Statement (.beq d) := fun _ => rfl

theorem bmi (d : Byte) : Statement (.bmi d) := fun _ => rfl

theorem bne (d : Byte) : Statement (.bne d) := fun _ => rfl

theorem bpl (d : Byte) : Statement (.bpl d) := fun _ => rfl

theorem bvc (d : Byte) : Statement (.bvc d) := fun _ => rfl

theorem bvs (d : Byte) : Statement (.bvs d) := fun _ => rfl

theorem clc : Statement .clc := fun _ => rfl

theorem cld : Statement .cld := fun _ => rfl

theorem cli : Statement .cli := fun _ => rfl

theorem clv : Statement .clv := fun _ => rfl

theorem sec : Statement .sec := fun _ => rfl

theorem sed : Statement .sed := fun _ => rfl

theorem sei : Statement .sei := fun _ => rfl

theorem nop : Statement .nop := fun _ => rfl

theorem invalid (op : Byte) : Statement (.invalid op) := by
  intro h
  have h : invalidOpcodes.contains op = true := h
  simp only [encode, Instr.opcode, h, if_true]
  rfl

end Sys2Proof.Laws.Length
end

