-- ==== Sys2Proof/Tests/Slice0.lean ====
section
/-! SUPPORT. The model's own tests: ill-formed terms, words decoded, test vectors of 95_test_vectors.md, and a witness
for each statement's hypotheses. Every expected result is the spec's. -/

namespace Sys2Proof.Tests

open Sys2Proof.Machine

/-! Well-formedness: each check refuses a term that is no row of 30_encoding.md R88 and R89. -/

theorem test_wf_acc_modes : (Instr.lda (.mem (.zpy 0))).wellFormed = false ∧
  (Instr.adc (.mem (.zpy 0))).wellFormed = false := by
  decide
theorem test_wf_y_modes : (Instr.ldx (.mem (.zpx 0))).wellFormed = false ∧
  (Instr.ldx (.mem (.indy 0))).wellFormed = false := by
  decide
theorem test_wf_x_modes : (Instr.ldy (.mem (.absy 0))).wellFormed = false ∧
  (Instr.inc (.zpy 0)).wellFormed = false := by decide
theorem test_wf_shift_modes : (Instr.asl (.mem (.indx 0))).wellFormed = false ∧
  (Instr.ror (.mem (.absy 0))).wellFormed = false := by
  decide
theorem test_wf_sta_modes : (Instr.sta (.zpy 0)).wellFormed = false := by decide
theorem test_wf_stx_modes : (Instr.stx (.absy 0)).wellFormed = false := by decide
theorem test_wf_sty_modes : (Instr.sty (.absx 0)).wellFormed = false := by decide
theorem test_wf_plain_modes : (Instr.bit (.zpx 0)).wellFormed = false ∧
  (Instr.cpx (.mem (.absx 0))).wellFormed = false := by
  decide
theorem test_wf_invalid : (Instr.invalid 0xEA).wellFormed = false ∧ (Instr.invalid 0x02).wellFormed = true := by decide

/-! Decoding: words written out from the table of 30_encoding.md R88, one for every constructor, by family. -/

/-- Each list of bytes is one whole instruction, the one it stands beside. -/
def Decodes (l : List (List Byte × Instr)) : Prop := ∀ p ∈ l, decode p.1 = .ok (p.2, []) ∧ encode p.2 = p.1

theorem test_decode_load_store :
    Decodes
      [([0xA9, 0x7F], .lda (.imm 0x7F)), ([0xBD, 0xF0, 0x02], .lda (.mem (.absx 0x02F0))),
        ([0xA1, 0xFE], .lda (.mem (.indx 0xFE))), ([0xB1, 0x10], .lda (.mem (.indy 0x10))),
        ([0xB6, 0xF5], .ldx (.mem (.zpy 0xF5))), ([0xBE, 0xFF, 0x01], .ldx (.mem (.absy 0x01FF))),
        ([0xB4, 0x05], .ldy (.mem (.zpx 0x05))), ([0x99, 0x34, 0x12], .sta (.absy 0x1234)),
        ([0x8E, 0x00, 0x80], .stx (.abs 0x8000)),
        ([0x84, 0x01], .sty (.zp 0x01))] := by
  unfold Decodes; decide

theorem test_decode_transfer_stack :
    Decodes
      [([0xAA], .tax), ([0xA8], .tay), ([0x8A], .txa), ([0x98], .tya), ([0xBA], .tsx), ([0x9A], .txs), ([0x48], .pha),
        ([0x08], .php), ([0x68], .pla), ([0x28], .plp)] := by
  unfold Decodes; decide

theorem test_decode_arith :
    Decodes
      [([0x7D, 0xFF, 0x02], .adc (.mem (.absx 0x02FF))), ([0xE9, 0xB0], .sbc (.imm 0xB0)),
        ([0x3D, 0x00, 0x03], .and (.mem (.absx 0x0300))), ([0x01, 0x20], .ora (.mem (.indx 0x20))),
        ([0x55, 0x80], .eor (.mem (.zpx 0x80))), ([0x2C, 0x00, 0x02], .bit (.abs 0x0200)),
        ([0xD9, 0xFF, 0x02], .cmp (.mem (.absy 0x02FF))), ([0xE4, 0x10], .cpx (.mem (.zp 0x10))),
        ([0xC0, 0x01], .cpy (.imm 0x01))] := by
  unfold Decodes; decide

theorem test_decode_incdec_shift :
    Decodes
      [([0xFE, 0xFF, 0x02], .inc (.absx 0x02FF)), ([0xC6, 0x10], .dec (.zp 0x10)), ([0xE8], .inx), ([0xC8], .iny),
      ([0xCA], .dex),
        ([0x88], .dey), ([0x16, 0xFF], .asl (.mem (.zpx 0xFF))), ([0x4A], .lsr .acc),
        ([0x2E, 0x00, 0x02], .rol (.mem (.abs 0x0200))),
        ([0x7E, 0x02, 0x01], .ror (.mem (.absx 0x0102)))] := by
  unfold Decodes; decide

theorem test_decode_control :
    Decodes
      [([0x6C, 0xFF, 0x02], .jmp (.ind 0x02FF)), ([0x4C, 0x34, 0x12], .jmp (.abs 0x1234)),
      ([0x20, 0x00, 0x81], .jsr 0x8100),
        ([0x60], .rts), ([0x40], .rti), ([0x00], .brk), ([0x90, 0x04], .bcc 0x04), ([0xB0, 0x04], .bcs 0x04),
        ([0xF0, 0xFE], .beq 0xFE),
        ([0x30, 0x80], .bmi 0x80), ([0xD0, 0x7F], .bne 0x7F), ([0x10, 0xFE], .bpl 0xFE), ([0x50, 0x01], .bvc 0x01),
        ([0x70, 0x00], .bvs 0x00)] := by
  unfold Decodes; decide

theorem test_decode_flags_misc :
    Decodes
      [([0x18], .clc), ([0xD8], .cld), ([0x58], .cli), ([0xB8], .clv), ([0x38], .sec), ([0xF8], .sed),
      ([0x78], .sei), ([0xEA], .nop),
        ([0x02], .invalid 0x02), ([0xFF], .invalid 0xFF)] := by
  unfold Decodes; decide

theorem test_decode_rejects :
    decode [] = .error .noOpcode ∧ decode [0xAD, 0x00] = .error (.missingOperand 0xAD) := by decide

/-! Test vectors of 95_test_vectors.md section 2, one step each. -/

/-- What a vector's result columns show: A, X, Y, S, the flags NVBDIZC, PC, the cycles, the pending flags (nmi, irq, reset)
and the bus writes. -/
structure View where
  /-- A. -/
  a : Byte
  /-- X. -/
  x : Byte
  /-- Y. -/
  y : Byte
  /-- S. -/
  s : Byte
  /-- NVBDIZC. -/
  flags : BitVec 7
  /-- PC. -/
  pc : Word
  /-- The cycles the step returns. -/
  cycles : Nat
  /-- nmi, irq, reset. -/
  pending : BitVec 3
  /-- The bus writes in their order. -/
  writes : List (Word × Byte)
  deriving DecidableEq, Repr

/-- The bus writes among the events of a step. -/
def writesOf : List BusEvent → List (Word × Byte)
  | [] => []
  | .write a v :: es => (a, v) :: writesOf es
  | .read _ :: es => writesOf es
  | .deviceReset :: es => writesOf es
  | .inputChange _ :: es => writesOf es

/-- What a vector shows of an outcome. -/
def view : Host.Outcome State Fault Refusal → Option View
  | .next t =>
    some
      ⟨t.a, t.x, t.y, t.sp,
        BitVec.ofBool t.n ++ BitVec.ofBool t.v ++ BitVec.ofBool t.b ++ BitVec.ofBool t.d ++ BitVec.ofBool t.i ++ BitVec.ofBool t.z ++
          BitVec.ofBool t.c,
        t.pc, t.cyc, BitVec.ofBool t.nmiPending ++ BitVec.ofBool t.irqPending ++ BitVec.ofBool t.resetPending, writesOf t.events⟩
  | .fault _ => none
  | .refused _ => none

/-- A vector's start: every register and flag 0, and these bytes listed. -/
def start (mem : Memory) : State := { State.reset with i := false, mem := mem, history := [], events := [] }

/-! Loads, stores and transfers (95_test_vectors.md, vectors V40). -/

/-- V40.6: `LDA $FFFF,Y`, absy wraps at FFFF; crosses. -/
theorem test_lda_V40_6 :
    view (step
      { start [(0x0000, 0x99), (0x8000, 0xB9), (0x8001, 0xFF), (0x8002, 0xFF)] with
        pc := 0x8000, y := 0x01 }) =
      some ⟨0x99, 0x00, 0x01, 0x00, 0b1000000, 0x8003, 5, 0b000, []⟩ := by decide

/-- V40.7: `LDA ($FE,X)`, indx pointer at FF, ZP_PTR_WRAP. -/
theorem test_lda_V40_7 :
    view (step
      { start [(0x0000, 0x02), (0x00FF, 0x34), (0x0234, 0xC3), (0x8000, 0xA1), (0x8001, 0xFE)] with
        pc := 0x8000, x := 0x01 }) =
      some ⟨0xC3, 0x01, 0x00, 0x00, 0b1000000, 0x8002, 6, 0b000, []⟩ := by decide

/-- V40.12: `LDX $F5,Y`, zpy wraps. -/
theorem test_ldx_V40_12 :
    view (step { start [(0x0005, 0x05), (0x8000, 0xB6), (0x8001, 0xF5)] with pc := 0x8000, y := 0x10 }) =
      some ⟨0x00, 0x05, 0x10, 0x00, 0b0000000, 0x8002, 4, 0b000, []⟩ := by decide

/-- V40.13: `LDX $01FF,Y`, absy cross. -/
theorem test_ldx_V40_13 :
    view (step
      { start [(0x0200, 0x00), (0x8000, 0xBE), (0x8001, 0xFF), (0x8002, 0x01)] with
        pc := 0x8000, y := 0x01 }) =
      some ⟨0x00, 0x00, 0x01, 0x00, 0b0000010, 0x8003, 5, 0b000, []⟩ := by decide

/-- V40.15: `LDY $0280,X`, absx cross. -/
theorem test_ldy_V40_15 :
    view (step
      { start [(0x0300, 0x80), (0x8000, 0xBC), (0x8001, 0x80), (0x8002, 0x02)] with
        pc := 0x8000, x := 0x80 }) =
      some ⟨0x00, 0x80, 0x80, 0x00, 0b1000000, 0x8003, 5, 0b000, []⟩ := by decide

/-- V40.16: `STA $07FF,X`, no penalty on store; 0x0800 = RAM byte 0. -/
theorem test_sta_V40_16 :
    view (step { start [(0x8000, 0x9D), (0x8001, 0xFF), (0x8002, 0x07)] with pc := 0x8000, a := 0x42, x := 0x01 }) =
      some ⟨0x42, 0x01, 0x00, 0x00, 0b0000000, 0x8003, 5, 0b000, [(0x0800, 0x42)]⟩ := by decide

/-- V40.18: `STA ($FF,X)`, indx pointer wrap. -/
theorem test_sta_V40_18 :
    view (step
      { start [(0x0000, 0x03), (0x00FF, 0x00), (0x8000, 0x81), (0x8001, 0xFF)] with
        pc := 0x8000, a := 0x24, x := 0x00 }) =
      some ⟨0x24, 0x00, 0x00, 0x00, 0b0000000, 0x8002, 6, 0b000, [(0x0300, 0x24)]⟩ := by decide

/-- V40.19: `STX $FF,Y`, zpy wraps to 0x0001. -/
theorem test_stx_V40_19 :
    view (step { start [(0x8000, 0x96), (0x8001, 0xFF)] with pc := 0x8000, x := 0x7F, y := 0x02 }) =
      some ⟨0x00, 0x7F, 0x02, 0x00, 0b0000000, 0x8002, 4, 0b000, [(0x0001, 0x7F)]⟩ := by decide

/-- V40.20: `STY $FF,X`, zpx wraps to 0x0000. -/
theorem test_sty_V40_20 :
    view (step { start [(0x8000, 0x94), (0x8001, 0xFF)] with pc := 0x8000, x := 0x01, y := 0x33 }) =
      some ⟨0x00, 0x01, 0x33, 0x00, 0b0000000, 0x8002, 4, 0b000, [(0x0000, 0x33)]⟩ := by decide

/-- V40.21: `TAX`. -/
theorem test_tax_V40_21 :
    view (step { start [(0x8000, 0xAA)] with pc := 0x8000, a := 0x00, x := 0x12 }) =
      some ⟨0x00, 0x00, 0x00, 0x00, 0b0000010, 0x8001, 2, 0b000, []⟩ := by decide

/-- V40.22: `TAY`. -/
theorem test_tay_V40_22 :
    view (step { start [(0x8000, 0xA8)] with pc := 0x8000, a := 0x90 }) =
      some ⟨0x90, 0x00, 0x90, 0x00, 0b1000000, 0x8001, 2, 0b000, []⟩ := by decide

/-- V40.23: `TXA`. -/
theorem test_txa_V40_23 :
    view (step { start [(0x8000, 0x8A)] with pc := 0x8000, a := 0x01, x := 0x80 }) =
      some ⟨0x80, 0x80, 0x00, 0x00, 0b1000000, 0x8001, 2, 0b000, []⟩ := by decide

/-- V40.24: `TYA`. -/
theorem test_tya_V40_24 :
    view (step { start [(0x8000, 0x98)] with pc := 0x8000, a := 0x01, y := 0x00 }) =
      some ⟨0x00, 0x00, 0x00, 0x00, 0b0000010, 0x8001, 2, 0b000, []⟩ := by decide

/-- V40.25: `TSX`. -/
theorem test_tsx_V40_25 :
    view (step { start [(0x8000, 0xBA)] with pc := 0x8000, x := 0x12, sp := 0x00 }) =
      some ⟨0x00, 0x00, 0x00, 0x00, 0b0000010, 0x8001, 2, 0b000, []⟩ := by decide

/-- V40.26: `TXS`, no flags written. -/
theorem test_txs_V40_26 :
    view (step { start [(0x8000, 0x9A)] with pc := 0x8000, x := 0x00, sp := 0xFF, n := true }) =
      some ⟨0x00, 0x00, 0x00, 0x00, 0b1000000, 0x8001, 2, 0b000, []⟩ := by decide

/-! The stack (95_test_vectors.md, vectors V41). -/

/-- V41.2: `PHA`, S wraps to FF. -/
theorem test_pha_V41_2 :
    view (step { start [(0x8000, 0x48)] with pc := 0x8000, a := 0x5A, sp := 0x00 }) =
      some ⟨0x5A, 0x00, 0x00, 0xFF, 0b0000000, 0x8001, 3, 0b000, [(0x0100, 0x5A)]⟩ := by decide

/-- V41.3: `PHP`. -/
theorem test_php_V41_3 :
    view (step { start [(0x8000, 0x08)] with pc := 0x8000, sp := 0xFD, n := true, i := true, c := true }) =
      some ⟨0x00, 0x00, 0x00, 0xFC, 0b1000101, 0x8001, 3, 0b000, [(0x01FD, 0xB5)]⟩ := by decide

/-- V41.7: `PLA`, S wraps to 00. -/
theorem test_pla_V41_7 :
    view (step { start [(0x0100, 0x80), (0x8000, 0x68)] with pc := 0x8000, sp := 0xFF }) =
      some ⟨0x80, 0x00, 0x00, 0x00, 0b1000000, 0x8001, 4, 0b000, []⟩ := by decide

/-- V41.9: `PLP`, bit 5 discarded. -/
theorem test_plp_V41_9 :
    view (step
      { start [(0x01FD, 0x20), (0x8000, 0x28)] with
        pc := 0x8000, sp := 0xFC, n := true, v := true, b := true, d := true, i := true, z := true, c := true }) =
      some ⟨0x00, 0x00, 0x00, 0xFD, 0b0000000, 0x8001, 4, 0b000, []⟩ := by decide

/-- V41.10: `PLP`, all but bit 5. -/
theorem test_plp_V41_10 :
    view (step { start [(0x01FD, 0xDF), (0x8000, 0x28)] with pc := 0x8000, sp := 0xFC }) =
      some ⟨0x00, 0x00, 0x00, 0xFD, 0b1111111, 0x8001, 4, 0b000, []⟩ := by decide

/-! Arithmetic, logic and compare (95_test_vectors.md, vectors V42). -/

/-- V42.6: `ADC #$00`. -/
theorem test_adc_V42_6 :
    view (step { start [(0x8000, 0x69), (0x8001, 0x00)] with pc := 0x8000, a := 0x7F, c := true }) =
      some ⟨0x80, 0x00, 0x00, 0x00, 0b1100000, 0x8002, 2, 0b000, []⟩ := by decide

/-- V42.10: `ADC #$09`, D inert: binary. -/
theorem test_adc_V42_10 :
    view (step { start [(0x8000, 0x69), (0x8001, 0x09)] with pc := 0x8000, a := 0x01, d := true }) =
      some ⟨0x0A, 0x00, 0x00, 0x00, 0b0001000, 0x8002, 2, 0b000, []⟩ := by decide

/-- V42.16: `SBC #$01`. -/
theorem test_sbc_V42_16 :
    view (step { start [(0x8000, 0xE9), (0x8001, 0x01)] with pc := 0x8000, a := 0x80, c := true }) =
      some ⟨0x7F, 0x00, 0x00, 0x00, 0b0100001, 0x8002, 2, 0b000, []⟩ := by decide

/-- V42.18: `SBC #$05`. -/
theorem test_sbc_V42_18 :
    view (step { start [(0x8000, 0xE9), (0x8001, 0x05)] with pc := 0x8000, a := 0x05 }) =
      some ⟨0xFF, 0x00, 0x00, 0x00, 0b1000000, 0x8002, 2, 0b000, []⟩ := by decide

/-- V42.22: `AND #$00`, C, V kept. -/
theorem test_and_V42_22 :
    view (step { start [(0x8000, 0x29), (0x8001, 0x00)] with pc := 0x8000, a := 0xFF, v := true, c := true }) =
      some ⟨0x00, 0x00, 0x00, 0x00, 0b0100011, 0x8002, 2, 0b000, []⟩ := by decide

/-- V42.23: `ORA #$80`. -/
theorem test_ora_V42_23 :
    view (step { start [(0x8000, 0x09), (0x8001, 0x80)] with pc := 0x8000, a := 0x01 }) =
      some ⟨0x81, 0x00, 0x00, 0x00, 0b1000000, 0x8002, 2, 0b000, []⟩ := by decide

/-- V42.26: `EOR #$0F`. -/
theorem test_eor_V42_26 :
    view (step { start [(0x8000, 0x49), (0x8001, 0x0F)] with pc := 0x8000, a := 0xFF }) =
      some ⟨0xF0, 0x00, 0x00, 0x00, 0b1000000, 0x8002, 2, 0b000, []⟩ := by decide

/-- V42.27: `BIT $10`. -/
theorem test_bit_V42_27 :
    view (step { start [(0x0010, 0xC0), (0x8000, 0x24), (0x8001, 0x10)] with pc := 0x8000, a := 0x01 }) =
      some ⟨0x01, 0x00, 0x00, 0x00, 0b1100010, 0x8002, 3, 0b000, []⟩ := by decide

/-- V42.28: `BIT $0200`, N, V from M. -/
theorem test_bit_V42_28 :
    view (step
      { start [(0x0200, 0x01), (0x8000, 0x2C), (0x8001, 0x00), (0x8002, 0x02)] with
        pc := 0x8000, a := 0xFF, n := true, v := true }) =
      some ⟨0xFF, 0x00, 0x00, 0x00, 0b0000000, 0x8003, 4, 0b000, []⟩ := by decide

/-- V42.32: `CMP #$80`. -/
theorem test_cmp_V42_32 :
    view (step { start [(0x8000, 0xC9), (0x8001, 0x80)] with pc := 0x8000, a := 0x01 }) =
      some ⟨0x01, 0x00, 0x00, 0x00, 0b1000000, 0x8002, 2, 0b000, []⟩ := by decide

/-- V42.34: `CMP $02FF,Y`, absy cross; V kept. -/
theorem test_cmp_V42_34 :
    view (step
      { start [(0x0300, 0x01), (0x8000, 0xD9), (0x8001, 0xFF), (0x8002, 0x02)] with
        pc := 0x8000, a := 0x01, y := 0x01, v := true }) =
      some ⟨0x01, 0x00, 0x01, 0x00, 0b0100011, 0x8003, 5, 0b000, []⟩ := by decide

/-- V42.36: `CPX $10`. -/
theorem test_cpx_V42_36 :
    view (step { start [(0x0010, 0x05), (0x8000, 0xE4), (0x8001, 0x10)] with pc := 0x8000, x := 0x04 }) =
      some ⟨0x00, 0x04, 0x00, 0x00, 0b1000000, 0x8002, 3, 0b000, []⟩ := by decide

/-- V42.38: `CPY $0200`. -/
theorem test_cpy_V42_38 :
    view (step
      { start [(0x0200, 0x80), (0x8000, 0xCC), (0x8001, 0x00), (0x8002, 0x02)] with
        pc := 0x8000, y := 0xFF }) =
      some ⟨0x00, 0x00, 0xFF, 0x00, 0b0000001, 0x8003, 4, 0b000, []⟩ := by decide

/-! Increment, decrement, shift and rotate (95_test_vectors.md, vectors V43). -/

/-- V43.2: `INC $02FF,X`, RMW absx: no penalty, 7. -/
theorem test_inc_V43_2 :
    view (step
      { start [(0x0300, 0x7F), (0x8000, 0xFE), (0x8001, 0xFF), (0x8002, 0x02)] with
        pc := 0x8000, x := 0x01, c := true }) =
      some ⟨0x00, 0x01, 0x00, 0x00, 0b1000001, 0x8003, 7, 0b000, [(0x0300, 0x80)]⟩ := by decide

/-- V43.4: `DEC $0200,X`. -/
theorem test_dec_V43_4 :
    view (step
      { start [(0x0200, 0x00), (0x8000, 0xDE), (0x8001, 0x00), (0x8002, 0x02)] with
        pc := 0x8000, x := 0x00 }) =
      some ⟨0x00, 0x00, 0x00, 0x00, 0b1000000, 0x8003, 7, 0b000, [(0x0200, 0xFF)]⟩ := by decide

/-- V43.5: `INX`. -/
theorem test_inx_V43_5 :
    view (step { start [(0x8000, 0xE8)] with pc := 0x8000, x := 0xFF }) =
      some ⟨0x00, 0x00, 0x00, 0x00, 0b0000010, 0x8001, 2, 0b000, []⟩ := by decide

/-- V43.6: `INY`. -/
theorem test_iny_V43_6 :
    view (step { start [(0x8000, 0xC8)] with pc := 0x8000, y := 0x7F }) =
      some ⟨0x00, 0x00, 0x80, 0x00, 0b1000000, 0x8001, 2, 0b000, []⟩ := by decide

/-- V43.7: `DEX`. -/
theorem test_dex_V43_7 :
    view (step { start [(0x8000, 0xCA)] with pc := 0x8000, x := 0x00 }) =
      some ⟨0x00, 0xFF, 0x00, 0x00, 0b1000000, 0x8001, 2, 0b000, []⟩ := by decide

/-- V43.8: `DEY`. -/
theorem test_dey_V43_8 :
    view (step { start [(0x8000, 0x88)] with pc := 0x8000, y := 0x01 }) =
      some ⟨0x00, 0x00, 0x00, 0x00, 0b0000010, 0x8001, 2, 0b000, []⟩ := by decide

/-- V43.9: `ASL A`. -/
theorem test_asl_V43_9 :
    view (step { start [(0x8000, 0x0A)] with pc := 0x8000, a := 0x81 }) =
      some ⟨0x02, 0x00, 0x00, 0x00, 0b0000001, 0x8001, 2, 0b000, []⟩ := by decide

/-- V43.11: `ASL $FF,X`, zpx wraps. -/
theorem test_asl_V43_11 :
    view (step { start [(0x0001, 0x40), (0x8000, 0x16), (0x8001, 0xFF)] with pc := 0x8000, x := 0x02 }) =
      some ⟨0x00, 0x02, 0x00, 0x00, 0b1000000, 0x8002, 6, 0b000, [(0x0001, 0x80)]⟩ := by decide

/-- V43.14: `LSR $0200,X`, N cleared. -/
theorem test_lsr_V43_14 :
    view (step
      { start [(0x0200, 0xFE), (0x8000, 0x5E), (0x8001, 0x00), (0x8002, 0x02)] with
        pc := 0x8000, x := 0x00, n := true }) =
      some ⟨0x00, 0x00, 0x00, 0x00, 0b0000000, 0x8003, 7, 0b000, [(0x0200, 0x7F)]⟩ := by decide

/-- V43.15: `ROL A`. -/
theorem test_rol_V43_15 :
    view (step { start [(0x8000, 0x2A)] with pc := 0x8000, a := 0x40, c := true }) =
      some ⟨0x81, 0x00, 0x00, 0x00, 0b1000000, 0x8001, 2, 0b000, []⟩ := by decide

/-- V43.17: `ROL $0200`. -/
theorem test_rol_V43_17 :
    view (step
      { start [(0x0200, 0xFF), (0x8000, 0x2E), (0x8001, 0x00), (0x8002, 0x02)] with
        pc := 0x8000, c := true }) =
      some ⟨0x00, 0x00, 0x00, 0x00, 0b1000001, 0x8003, 6, 0b000, [(0x0200, 0xFF)]⟩ := by decide

/-- V43.18: `ROR A`. -/
theorem test_ror_V43_18 :
    view (step { start [(0x8000, 0x6A)] with pc := 0x8000, a := 0x01, c := true }) =
      some ⟨0x80, 0x00, 0x00, 0x00, 0b1000001, 0x8001, 2, 0b000, []⟩ := by decide

/-! Jumps, calls, returns, BRK and branches (95_test_vectors.md, vectors V44). -/

/-- V44.2: `JMP ($02FF)`, page-wrap bug. -/
theorem test_jmp_V44_2 :
    view (step
      { start [(0x0200, 0x12), (0x02FF, 0x34), (0x0300, 0x56), (0x8000, 0x6C), (0x8001, 0xFF), (0x8002, 0x02)] with
        pc := 0x8000 }) =
      some ⟨0x00, 0x00, 0x00, 0x00, 0b0000000, 0x1234, 5, 0b000, []⟩ := by decide

/-- V44.4: `JMP ($FFFF)`, bug at FFFF: high byte from FF00. -/
theorem test_jmp_V44_4 :
    view (step
      { start [(0x8000, 0x6C), (0x8001, 0xFF), (0x8002, 0xFF), (0xFF00, 0x80), (0xFFFF, 0x00)] with
        pc := 0x8000 }) =
      some ⟨0x00, 0x00, 0x00, 0x00, 0b0000000, 0x8000, 5, 0b000, []⟩ := by decide

/-- V44.6: `JSR $8100`, S wraps. -/
theorem test_jsr_V44_6 :
    view (step { start [(0x8000, 0x20), (0x8001, 0x00), (0x8002, 0x81)] with pc := 0x8000, sp := 0x00 }) =
      some ⟨0x00, 0x00, 0x00, 0xFE, 0b0000000, 0x8100, 6, 0b000, [(0x0100, 0x80), (0x01FF, 0x02)]⟩ := by decide

/-- V44.8: `RTS`, FFFF+1 wraps. -/
theorem test_rts_V44_8 :
    view (step { start [(0x01FE, 0xFF), (0x01FF, 0xFF), (0x8000, 0x60)] with pc := 0x8000, sp := 0xFD }) =
      some ⟨0x00, 0x00, 0x00, 0xFF, 0b0000000, 0x0000, 6, 0b000, []⟩ := by decide

/-- V44.10: `RTI`, no +1; all flags set. -/
theorem test_rti_V44_10 :
    view (step
      { start [(0x01FD, 0xFF), (0x01FE, 0x00), (0x01FF, 0x90), (0x8000, 0x40)] with
        pc := 0x8000, sp := 0xFC }) =
      some ⟨0x00, 0x00, 0x00, 0xFF, 0b1111111, 0x9000, 6, 0b000, []⟩ := by decide

/-- V44.12: `BRK`, BRK runs with I=1; stored B unchanged. -/
theorem test_brk_V44_12 :
    view (step
      { start [(0x8000, 0x00), (0xFFFE, 0x00), (0xFFFF, 0x90)] with
        pc := 0x8000, sp := 0xFF, i := true, c := true }) =
      some ⟨0x00, 0x00, 0x00, 0xFC, 0b0000101, 0x9000, 7, 0b000, [(0x01FF, 0x80), (0x01FE, 0x02),
        (0x01FD, 0x35)]⟩ := by decide

/-- V44.14: `BCC $8006`. -/
theorem test_bcc_V44_14 :
    view (step { start [(0x8000, 0x90), (0x8001, 0x04)] with pc := 0x8000, c := true }) =
      some ⟨0x00, 0x00, 0x00, 0x00, 0b0000001, 0x8002, 2, 0b000, []⟩ := by decide

/-- V44.15: `BCS $8006`. -/
theorem test_bcs_V44_15 :
    view (step { start [(0x8000, 0xB0), (0x8001, 0x04)] with pc := 0x8000, c := true }) =
      some ⟨0x00, 0x00, 0x00, 0x00, 0b0000001, 0x8006, 3, 0b000, []⟩ := by decide

/-- V44.17: `BEQ $8010`, branch to itself. -/
theorem test_beq_V44_17 :
    view (step { start [(0x8010, 0xF0), (0x8011, 0xFE)] with pc := 0x8010, z := true }) =
      some ⟨0x00, 0x00, 0x00, 0x00, 0b0000010, 0x8010, 3, 0b000, []⟩ := by decide

/-- V44.18: `BMI $7F82`, -128, cross. -/
theorem test_bmi_V44_18 :
    view (step { start [(0x8000, 0x30), (0x8001, 0x80)] with pc := 0x8000, n := true }) =
      some ⟨0x00, 0x00, 0x00, 0x00, 0b1000000, 0x7F82, 4, 0b000, []⟩ := by decide

/-- V44.19: `BNE $8081`, +127. -/
theorem test_bne_V44_19 :
    view (step { start [(0x8000, 0xD0), (0x8001, 0x7F)] with pc := 0x8000 }) =
      some ⟨0x00, 0x00, 0x00, 0x00, 0b0000000, 0x8081, 3, 0b000, []⟩ := by decide

/-- V44.21: `BPL $C000`. -/
theorem test_bpl_V44_21 :
    view (step { start [(0xC000, 0x10), (0xC001, 0xFE)] with pc := 0xC000 }) =
      some ⟨0x00, 0x00, 0x00, 0x00, 0b0000000, 0xC000, 3, 0b000, []⟩ := by decide

/-- V44.23: `BVC $8100`, target 8100 vs PCn 80FF: cross. -/
theorem test_bvc_V44_23 :
    view (step { start [(0x80FD, 0x50), (0x80FE, 0x01)] with pc := 0x80FD }) =
      some ⟨0x00, 0x00, 0x00, 0x00, 0b0000000, 0x8100, 4, 0b000, []⟩ := by decide

/-- V44.24: `BVS $8100`, target = PCn = 8100: no cross. -/
theorem test_bvs_V44_24 :
    view (step { start [(0x80FE, 0x70), (0x80FF, 0x00)] with pc := 0x80FE, v := true }) =
      some ⟨0x00, 0x00, 0x00, 0x00, 0b0100000, 0x8100, 3, 0b000, []⟩ := by decide

/-- V44.25: `BVS $0071`, wraps past FFFF. -/
theorem test_bvs_V44_25 :
    view (step { start [(0xFFF0, 0x70), (0xFFF1, 0x7F)] with pc := 0xFFF0, v := true }) =
      some ⟨0x00, 0x00, 0x00, 0x00, 0b0100000, 0x0071, 4, 0b000, []⟩ := by decide

/-! Flag instructions, NOP and invalid opcodes (95_test_vectors.md, vectors V45). -/

/-- V45.1: `CLC`. -/
theorem test_clc_V45_1 :
    view (step { start [(0x8000, 0x18)] with pc := 0x8000, c := true }) =
      some ⟨0x00, 0x00, 0x00, 0x00, 0b0000000, 0x8001, 2, 0b000, []⟩ := by decide

/-- V45.2: `CLD`. -/
theorem test_cld_V45_2 :
    view (step { start [(0x8000, 0xD8)] with pc := 0x8000, d := true }) =
      some ⟨0x00, 0x00, 0x00, 0x00, 0b0000000, 0x8001, 2, 0b000, []⟩ := by decide

/-- V45.3: `CLI`. -/
theorem test_cli_V45_3 :
    view (step { start [(0x8000, 0x58)] with pc := 0x8000, i := true }) =
      some ⟨0x00, 0x00, 0x00, 0x00, 0b0000000, 0x8001, 2, 0b000, []⟩ := by decide

/-- V45.4: `CLV`. -/
theorem test_clv_V45_4 :
    view (step { start [(0x8000, 0xB8)] with pc := 0x8000, v := true }) =
      some ⟨0x00, 0x00, 0x00, 0x00, 0b0000000, 0x8001, 2, 0b000, []⟩ := by decide

/-- V45.5: `SEC`. -/
theorem test_sec_V45_5 :
    view (step { start [(0x8000, 0x38)] with pc := 0x8000 }) =
      some ⟨0x00, 0x00, 0x00, 0x00, 0b0000001, 0x8001, 2, 0b000, []⟩ := by decide

/-- V45.6: `SED`. -/
theorem test_sed_V45_6 :
    view (step { start [(0x8000, 0xF8)] with pc := 0x8000 }) =
      some ⟨0x00, 0x00, 0x00, 0x00, 0b0001000, 0x8001, 2, 0b000, []⟩ := by decide

/-- V45.7: `SEI`. -/
theorem test_sei_V45_7 :
    view (step { start [(0x8000, 0x78)] with pc := 0x8000 }) =
      some ⟨0x00, 0x00, 0x00, 0x00, 0b0000100, 0x8001, 2, 0b000, []⟩ := by decide

/-- V45.8: `NOP`. -/
theorem test_nop_V45_8 :
    view (step { start [(0x8000, 0xEA)] with pc := 0x8000, a := 0x12 }) =
      some ⟨0x12, 0x00, 0x00, 0x00, 0b0000000, 0x8001, 2, 0b000, []⟩ := by decide

/-- V45.10: `invalid $FF`, operands not read. -/
theorem test_invalid_V45_10 :
    view (step
      { start [(0x8000, 0xFF), (0x8001, 0x34), (0x8002, 0x12)] with
        pc := 0x8000, a := 0x12, cfg := { Config.default with invalidRows := [⟨0xFF, 3, 4⟩] } }) =
      some ⟨0x12, 0x00, 0x00, 0x00, 0b0000000, 0x8003, 4, 0b000, []⟩ := by decide

/-- V45.11: `invalid $80`, stall: PC unchanged. -/
theorem test_invalid_V45_11 :
    view (step
      { start [(0x8000, 0x80)] with
        pc := 0x8000, cfg := { Config.default with invalidRows := [⟨0x80, 0, 2⟩] } }) =
      some ⟨0x00, 0x00, 0x00, 0x00, 0b0000000, 0x8000, 2, 0b000, []⟩ := by decide

/-! Interrupt entry and masking (95_test_vectors.md, vectors V60). -/

/-- V60.1: `NMI entry`, defaults IRQ_PUSHED_B=zero, NMI_SETS_I=true; B cleared. -/
theorem test_nmi_V60_1 :
    view (step
      { start [(0x8000, 0xEA), (0xFFFA, 0x00), (0xFFFB, 0x91)] with
        pc := 0x8000, sp := 0xFF, b := true, c := true, nmiPending := true }) =
      some ⟨0x00, 0x00, 0x00, 0xFC, 0b0000101, 0x9100, 7, 0b000, [(0x01FF, 0x80), (0x01FE, 0x00),
        (0x01FD, 0x21)]⟩ := by decide

/-- V60.3: `NMI entry`, NMI_SETS_I=false leaves I=0; stored B pushed as bit 4. -/
theorem test_nmi_V60_3 :
    view (step
      { start [(0x8000, 0xEA), (0xFFFA, 0x00), (0xFFFB, 0x91)] with
        pc := 0x8000, sp := 0xFF, b := true, nmiPending := true,
        cfg := { Config.default with nmiSetsI := false, irqPushedB := .stored } }) =
      some ⟨0x00, 0x00, 0x00, 0xFC, 0b0000000, 0x9100, 7, 0b000, [(0x01FF, 0x80), (0x01FE, 0x00),
        (0x01FD, 0x30)]⟩ := by decide

/-- V60.4: `NMI entry`, stack wraps below 0x0100. -/
theorem test_nmi_V60_4 :
    view (step
      { start [(0x8000, 0xEA), (0xFFFA, 0x00), (0xFFFB, 0x91)] with
        pc := 0x8000, sp := 0x01, nmiPending := true }) =
      some ⟨0x00, 0x00, 0x00, 0xFE, 0b0000100, 0x9100, 7, 0b000, [(0x0101, 0x80), (0x0100, 0x00),
        (0x01FF, 0x20)]⟩ := by decide

/-- V60.5: `IRQ entry`. -/
theorem test_irq_V60_5 :
    view (step
      { start [(0x8000, 0xEA), (0xFFFE, 0x00), (0xFFFF, 0x92)] with
        pc := 0x8000, sp := 0xFF, z := true, irqPending := true }) =
      some ⟨0x00, 0x00, 0x00, 0xFC, 0b0000110, 0x9200, 7, 0b000, [(0x01FF, 0x80), (0x01FE, 0x00),
        (0x01FD, 0x22)]⟩ := by decide

/-- V60.6: `IRQ entry`, IRQ_PUSHED_B=stored. -/
theorem test_irq_V60_6 :
    view (step
      { start [(0x8000, 0xEA), (0xFFFE, 0x00), (0xFFFF, 0x92)] with
        pc := 0x8000, sp := 0xFF, b := true, irqPending := true,
        cfg := { Config.default with irqPushedB := .stored } }) =
      some ⟨0x00, 0x00, 0x00, 0xFC, 0b0000100, 0x9200, 7, 0b000, [(0x01FF, 0x80), (0x01FE, 0x00),
        (0x01FD, 0x30)]⟩ := by decide

/-- V60.7: `NOP`, IRQ_MASKED=held: NOP executes, irq_pending stays set. -/
theorem test_masked_irq_V60_7 :
    view (step
      { start [(0x8000, 0xEA), (0xFFFE, 0x00), (0xFFFF, 0x92)] with
        pc := 0x8000, sp := 0xFF, i := true, irqPending := true }) =
      some ⟨0x00, 0x00, 0x00, 0xFF, 0b0000100, 0x8001, 2, 0b010, []⟩ := by decide

/-- V60.8: `NOP`, IRQ_MASKED=dropped: NOP executes, irq_pending cleared. -/
theorem test_masked_irq_V60_8 :
    view (step
      { start [(0x8000, 0xEA), (0xFFFE, 0x00), (0xFFFF, 0x92)] with
        pc := 0x8000, sp := 0xFF, i := true, irqPending := true,
        cfg := { Config.default with irqMasked := .dropped } }) =
      some ⟨0x00, 0x00, 0x00, 0xFF, 0b0000100, 0x8001, 2, 0b000, []⟩ := by decide

/-- V60.9: `NMI entry`, NMI wins; irq_pending stays set; I=1 now masks it. -/
theorem test_nmi_V60_9 :
    view (step
      { start [(0x8000, 0xEA), (0xFFFA, 0x00), (0xFFFB, 0x91), (0xFFFE, 0x00), (0xFFFF, 0x92)] with
        pc := 0x8000, sp := 0xFF, nmiPending := true, irqPending := true }) =
      some ⟨0x00, 0x00, 0x00, 0xFC, 0b0000100, 0x9100, 7, 0b010, [(0x01FF, 0x80), (0x01FE, 0x00),
        (0x01FD, 0x20)]⟩ := by decide

/-! Reset (95_test_vectors.md, vectors V70). -/

/-- V70.1: `reset`, reset wins and clears all three flags; RESET_* shown as 0; RESET_CYCLES=7; no push. -/
theorem test_reset_V70_1 :
    view (step
      { start [(0x8123, 0xEA), (0xFFFA, 0x00), (0xFFFB, 0x91), (0xFFFC, 0x00), (0xFFFD, 0x80), (0xFFFE, 0x00),
        (0xFFFF, 0x92)] with
        pc := 0x8123, sp := 0xFF, nmiPending := true, irqPending := true, resetPending := true }) =
      some ⟨0x00, 0x00, 0x00, 0x00, 0b0000100, 0x8000, 7, 0b000, []⟩ := by decide

/-! Witnesses: for each statement with hypotheses, a state and operands that meet them, clause by clause. -/

/-- A program byte NOP at 0x8000, one RAM byte, and the vectors. -/
def idle : State :=
  { start [(0x0005, 0x11), (0x8000, 0xEA), (0xFFFA, 0x00), (0xFFFB, 0x91), (0xFFFE, 0x00), (0xFFFF, 0x92)] with
    pc := 0x8000, sp := 0xFF }

/-- DecodeOfEncodeGivesTheInstructionBack, BitTestsTheOperand, ComparesSetTheCarryOnNoBorrow: well-formed terms. -/
theorem test_witness_wellFormed :
    (Instr.lda (.mem (.indy 0x10))).WellFormed ∧ (Instr.bit (.zp 0xFF)).WellFormed ∧
      (Instr.bit (.abs 0xFFFF)).WellFormed ∧
      (Instr.cpx (.imm 0x00)).WellFormed ∧ (Instr.cpx (.mem (.zp 0x10))).WellFormed ∧
      (Instr.cpx (.mem (.abs 0x0200))).WellFormed ∧
      (Instr.cpy (.imm 0x00)).WellFormed ∧ (Instr.cpy (.mem (.zp 0x10))).WellFormed ∧
      (Instr.cpy (.mem (.abs 0x0200))).WellFormed := by
  decide

/-- OpcodeByteAloneFixesTheLength, NopAndInvalidChangeNothingElse: the first and the last invalid opcode. -/
theorem test_witness_invalid : (0x02 : Byte) ∈ invalidOpcodes ∧ (0xFF : Byte) ∈ invalidOpcodes := by decide

/-- BusRoutesEveryAddress: each clause at both ends of its range. -/
theorem test_witness_route :
    route Config.default 0x0000 = .ram 0 ∧ route Config.default 0x1FFF = .ram 0x7FF ∧
      route Config.default 0x2000 = .device 0x2000 ∧ route Config.default 0x3FFF = .device 0x2007 ∧
      route Config.default 0x4000 = .device 0x4000 ∧ route Config.default 0x401F = .device 0x401F ∧
      route Config.default 0x4020 = .cart 0x4020 ∧ route Config.default 0xFFFF = .cart 0xFFFF := by
  decide

/-- RamAnswersThroughEveryMirror: both ends of the window, a mirror of a listed byte, and a byte never written. -/
theorem test_witness_ram :
    inRam 0x0000 ∧ inRam 0x1FFF ∧ idle.peek 0x0805 = 0x11 ∧
      Memory.lookup idle.mem ((0x0006 : Word).toNat % 2 ^ idle.cfg.ramBits.val) = none := by
  decide

/-- BusOutsideRamAnswersByDraws: both windows at their ends, and in the cartridge an unlisted and a listed byte. -/
theorem test_witness_outside_ram :
    ¬ inRam 0x2000 ∧ ¬ inRam 0x401F ∧ ¬ inRam 0x4020 ∧ Memory.lookup idle.mem 0x4020 = none ∧
      Memory.lookup idle.mem 0xFFFF = some 0x92 := by
  decide

/-- Every statement whose hypothesis is a step's next state: one that is taken. -/
theorem test_witness_step : ∃ t, step idle = .next t ∧ t.pc = 0x8001 := ⟨_, rfl, rfl⟩

/-- StepKeepsTheMemoryCanonical, EveryRunKeepsTheMemoryCanonical: a well-formed state that is not the reset state, and one
that is not well formed. -/
theorem test_witness_wf : idle.wf = true ∧ State.wf { idle with mem := [(0x0800, 0x00)] } = false := by decide

/-- EveryRunKeepsTheMemoryCanonical: a run with a host action. -/
theorem test_witness_reaches : Reaches idle (idle.host .raiseNmi) := ⟨0, .host (.refl _) _⟩

/-- A save-state of `idle` with one more RAM byte, taken at a later time. -/
def saved : SaveState :=
  { State.serialize idle with ram := [(0x0005, 0x22), (0x07FF, 0x33)], clock := 100, history := [(90, .read 0x2002)] }

/-- DeserializeRestoresTheSavedState: a machine that has gone on from `idle` (another RAM byte, other registers, time and
history, the same cartridge bytes), and a save-state that is valid and one that is corrupt, RAM_SIZE being no RAM byte. -/
theorem test_witness_deserialize :
    let later := State.deserialize idle saved
    later.wf = true ∧ later ≠ idle ∧ later.cfg.ramBits = idle.cfg.ramBits ∧ later.mem.cartPart = idle.mem.cartPart ∧
      saved.valid idle.cfg = true ∧ SaveState.valid idle.cfg { saved with ram := [(0x0800, 0x00)] } = false := by
  decide

/-- R175: a save-state of another power-on brings its never-written RAM bytes with it (R45). -/
theorem test_deserialize_other_boot :
    (State.deserialize { idle with boot := 1 } (State.serialize idle)).peek 0x0006 = Config.ramDraw 0 6 := rfl

/-- R44, R46, R51: a write to a mirror is recorded at its address, and the devices see the register. -/
theorem test_mirror_write :
    (idle.write8 0x3FF9 0x01).history = (0, .write 0x3FF9 0x01) :: idle.history ∧
      deviceView (idle.write8 0x3FF9 0x01).history = [(0, .write 0x2001 0x01)] := by decide

/-- R175 "restores all mutable state": going back to an older save-state takes back a RAM byte, the time and the history. -/
theorem test_deserialize_takes_back :
    let later := State.deserialize idle saved
    later.peek 0x0005 = 0x22 ∧ later.clock = 100 ∧ later.peek 0xFFFF = 0x92 ∧
      later.deserialize (State.serialize idle) = idle := by
  decide

/-- RunEndsAtEndPcOrSpendsTheBudget: a run that has used a budget of 1 and is at its end, and one that has spent it without one. -/
theorem test_witness_run_end :
    (∃ t, RunsTo (some 0x8001) 1 idle t ∧ t.ended 0x8001 = true) ∧ ∃ t, RunNotEnded 1 0x9000 idle t :=
  ⟨⟨_, .step (.refl _) (by decide) rfl, by decide⟩, _, .step (.refl _) (by decide) rfl, by decide⟩

/-- R179: under a budget of 3 the run of steps alone stops at END_PC, after its first step. -/
theorem test_run_alone_stops_at_end :
    ∃ t, State.runAlone (some 0x8001) 3 idle = .next t ∧ t.pc = 0x8001 ∧ t.clock = idle.clock + 2 := ⟨_, rfl, rfl, rfl⟩

/-- R179: PC at END_PC is no end while a flag is pending. -/
theorem test_no_end_while_pending :
    idle.ended 0x8000 = true ∧ (idle.host .raiseNmi).ended 0x8000 = false := by decide

/-- R50: a read of a listed cartridge byte is seen by the mapper; a read of RAM is seen by nobody. -/
theorem test_cartridge_read_is_seen :
    (idle.noteRead 0xFFFA).history = (idle.clock, .read 0xFFFA) :: idle.history ∧
      (idle.noteRead 0x0005).history = idle.history := ⟨rfl, rfl⟩

/-- ListedCartridgeBytesNeverChange: a cartridge byte that is held, at the window's last address. -/
theorem test_witness_cart : 0x4020 ≤ 0xFFFF ∧ Memory.lookup idle.mem 0xFFFF = some 0x92 := by decide

/-- A masked request, under a value of `IRQ_MASKED`. -/
def masked (m : IrqMasked) : State :=
  { idle with i := true, irqPending := true, cfg := { Config.default with irqMasked := m } }

/-- StepOnlyClearsPendingFlags, MaskedIrqIsHeldOrDropped: the premises are met under each of the three values. -/
theorem test_witness_masked (m : IrqMasked) :
    (masked m).resetPending = false ∧ (masked m).nmiPending = false ∧ (masked m).irqPending = true ∧
      (masked m).i = true ∧
      (masked m).cfg.irqMasked = m ∧ (masked m).action = .instruction := by
  cases m <;> decide

/-- MaskedIrqIsHeldOrDropped: and the step is taken. -/
theorem test_witness_masked_step (m : IrqMasked) : ∃ t, step (masked m) = .next t := by cases m <;> exact ⟨_, rfl⟩

/-- Whether an instruction changes what `f` shows of the state. -/
def changes (f : State → Nat) (i : Instr) (s : State) : Bool :=
  match exec i s with
  | .next t => f t != f s
  | .fault _ => false
  | .refused _ => false

/-- RegistersAndFlagsChangeOnlyByTheirWriters: an instruction for each register and flag that does change it. -/
theorem test_witness_writers :
    changes (fun t => t.a.toNat) (.lda (.imm 0x80)) idle ∧ changes (fun t => t.x.toNat) (.tsx) idle ∧
      changes (fun t => t.y.toNat) .dey idle ∧ changes (fun t => t.sp.toNat) .pha idle ∧
      changes (fun t => t.c.toNat) .sec idle ∧
      changes (fun t => t.z.toNat) (.ldx (.imm 0)) idle ∧ changes (fun t => t.n.toNat) (.ldy (.imm 0xFF)) idle ∧
      changes (fun t => t.i.toNat) .brk idle ∧ changes (fun t => t.d.toNat) .sed idle ∧
      changes (fun t => t.b.toNat) .plp { idle with sp := 0x04, mem := [(0x105, 0x10)] } ∧
      changes (fun t => t.v.toNat) (.bit (.zp 0x05)) { idle with mem := [(0x05, 0x40)] } := by
  decide

/-- DecimalFlagIsInert, RtsUndoesJsr and every statement whose hypothesis is an instruction's next state. -/
theorem test_witness_exec :
    (∃ t, exec (.adc (.imm 0x09)) idle = .next t) ∧ ∃ t, exec (.jsr 0x8100) idle = .next t ∧ t.pc = 0x8100 :=
  ⟨⟨_, rfl⟩, _, rfl, rfl⟩

/-- StoredBreakFlagIsUnobservable: the parameter's value. -/
theorem test_witness_pushed_b : idle.cfg.irqPushedB = .zero := by decide

/-- StepRunsTheDecodedInstruction: a boundary with nothing pending, and bytes at PC that decode. -/
theorem test_witness_decoded :
    idle.action = .instruction ∧ decode [idle.peek 0x8000, 0x00, 0x00] = .ok (.nop, [0x00, 0x00]) := by
  decide

/-- StepMakesExactlyTheListedAccesses, StepReturnsItsCycleCount, BoundaryPriority: a state for each of the four actions. -/
theorem test_witness_actions :
    State.action { idle with resetPending := true, nmiPending := true } = .reset ∧
      State.action { idle with nmiPending := true, i := true } = .nmi ∧
      State.action { idle with irqPending := true } = .irq ∧
      State.action { idle with irqPending := true, i := true } = .instruction ∧ idle.action = .instruction := by
  decide

/-- The entry, JSR and return statements: the smallest RAM their premises admit, and a plain address outside the pushed
bytes. -/
theorem test_witness_stack :
    (2 ≤ (Config.default.ramBits).val) ∧ 2 ≤ (2 : Fin 14).val ∧ 1 ≤ (1 : Fin 14).val ∧ idle.isPlain 0x0300 = true ∧
      route idle.cfg 0x0300 ≠ route idle.cfg (stackAddr idle.sp) ∧
      route idle.cfg 0x0300 ≠ route idle.cfg (stackAddr (idle.sp - 1#8)) ∧
      route idle.cfg 0x0300 ≠ route idle.cfg (stackAddr (idle.sp - 2#8)) := by
  decide

/-- The store statements: an effective address in RAM with its mirror and with another plain byte, and one outside RAM. -/
theorem test_witness_store :
    inRam (idle.locate (.abs 0x0805)).ea ∧ route idle.cfg 0x0005 = route idle.cfg 0x0805 ∧
      route idle.cfg 0x0006 ≠ route idle.cfg 0x0805 ∧
      idle.isPlain 0x8000 = true ∧ ¬ inRam (idle.locate (.abs 0x2000)).ea := by
  decide

/-- StoredByteIsFetchedAtOnce: a store through one mirror, fetched through another; the first of the two bytes JSR pushes, which
the second does not overwrite. -/
theorem test_witness_fetch_coherence :
    (inRam 0x0805 ∧ route idle.cfg 0x0005 = route idle.cfg 0x0805 ∧
      State.accesses { idle with a := 0xE8 } (.sta (.abs 0x0805)) = [] ++ .write 0x0805 0xE8 :: [] ∧
      ∃ t, exec (.sta (.abs 0x0805)) { idle with a := 0xE8 } = .next t ∧
        (State.fetch { t with pc := 0x0005 }).1 = .inx) ∧
      inRam (stackAddr 0xFF) ∧
      idle.accesses (.jsr 0x9000) = [] ++ .write (stackAddr 0xFF) 0x80 :: [.write (stackAddr 0xFE) 0x02] ∧
      route idle.cfg (stackAddr 0xFE) ≠ route idle.cfg (stackAddr 0xFF) ∧ ∃ t, exec (.jsr 0x9000) idle = .next t :=
  ⟨⟨by decide, by decide, by decide, _, rfl, by decide⟩, by decide, by decide, by decide, _, rfl⟩

/-- DecimalFlagIsInert: an instruction that pushes the status byte, whose bit 3 alone follows D, and one that does not. -/
theorem test_witness_decimal :
    idle.statusPushedAt .brk = some 0x01FD ∧ idle.statusPushedAt .pha = none ∧
      route idle.cfg 0x01FE ≠ route idle.cfg 0x01FD ∧
      State.packStatus { idle with d := true } true ^^^ idle.packStatus true = 0x08 := by
  decide

/-- BranchesGoWhereTheirFlagSays: each condition met and not met, within a page and across one. -/
theorem test_witness_branch :
    (!idle.c) = true ∧ ({ idle with c := true } : State).c = true ∧ idle.z = false ∧ idle.n = false ∧ idle.v = false ∧
      page (branchTarget 0x80FD 0x01) ≠ page (0x80FD + 2#16) ∧
      page (branchTarget 0x80FE 0x00) = page (0x80FE + 2#16) := by
  decide

/-- NopAndInvalidChangeNothingElse: no row listed, and a row listed that is the first of its opcode. -/
theorem test_witness_invalid_rows :
    (∀ r ∈ idle.cfg.invalidRows, r.op ≠ 0x80) ∧
      [(⟨0xFF, 3, 4⟩ : InvalidRow), ⟨0x80, 0, 2⟩] = [⟨0xFF, 3, 4⟩] ++ ⟨0x80, 0, 2⟩ :: [] ∧
      ∀ q ∈ [(⟨0xFF, 3, 4⟩ : InvalidRow)], q.op ≠ 0x80 := by
  decide

/-- InterruptDisableTakesEffectAtOnce: nothing but an IRQ pending when CLI ends, which is then the next action. -/
theorem test_witness_cli :
    ∃ t, exec .cli { idle with i := true, irqPending := true } = .next t ∧ t.endStep.action = .irq := ⟨_, rfl, rfl⟩

/-- `withFetchWord` (log entry 7): the first step after reset runs the placed instruction, NOP. -/
theorem test_placed_nop : ∃ t, step (State.reset.withFetchWord 8 0xEA) = .next t ∧ t.pc = 0x8001 := ⟨_, rfl, rfl⟩

end Sys2Proof.Tests
end

section
/-! The whole-machine rules of 00_scope.md: a step keeps the parameters and advances the clock (R9, R60), and no
instruction's result depends on D (R3, R34), but for bit 3 of the status byte that PHP and BRK push (R38). -/

namespace Sys2Proof.Machine

/-! The parameters and the clock. -/

/-- A step is an update that keeps the parameters, the power-on and the clock, then `endStep` (R9, R60). -/
theorem step_eq_endStep {s t : State} (h : step s = .next t) :
    ∃ u : State, t = u.endStep ∧ u.cfg = s.cfg ∧ u.boot = s.boot ∧ u.clock = s.clock := by
  obtain ⟨-, rfl⟩ | ⟨-, rfl⟩ | ⟨-, rfl⟩ | ⟨-, u, hu, rfl⟩ := step_cases h
  · exact ⟨_, rfl, rfl, rfl, rfl⟩
  · exact ⟨_, rfl, by rw [nmiEntry_eq]; exact ⟨rfl, rfl, rfl⟩⟩
  · exact ⟨_, rfl, by rw [irqEntry_eq]; exact ⟨rfl, rfl, rfl⟩⟩
  · obtain ⟨hcfg, hclock, -, hboot⟩ := exec_keeps hu
    obtain ⟨-, fcfg, fclock, fboot⟩ := fetch_keeps s.beginStep
    exact ⟨u, rfl, hcfg.trans fcfg, hboot.trans fboot, hclock.trans fclock⟩

/-- Settles O16: only the `endStep` that ends every step moves the clock, by the cycle count. -/
theorem stepKeepsTheParametersAndAdvancesTheClock : Obligations.StepKeepsTheParametersAndAdvancesTheClock := by
  intro s t h
  obtain ⟨u, rfl, hcfg, hboot, hclock⟩ := step_eq_endStep h
  exact ⟨hcfg, hboot, by simp [hclock]⟩

/-! The shared instruction shapes carry D through unread. -/

/-- No addressing mode reads D. -/
theorem locate_setDecimal (s : State) (m : MemMode) (d : Bool) :
    State.locate { s with d := d } m =
      ⟨(s.locate m).ea, (s.locate m).crossed, { (s.locate m).state with d := d }⟩ := by
  cases m <;> rfl

/-- No operand's value depends on D. -/
theorem fetchOperand_setDecimal (s : State) (o : Operand) (d : Bool) :
    State.fetchOperand { s with d := d } o =
      ⟨(s.fetchOperand o).value, (s.fetchOperand o).crossed, { (s.fetchOperand o).state with d := d }⟩ := by
  cases o with
  | imm n => rfl
  | mem m => simp only [State.fetchOperand, State.fetchMem, locate_setDecimal]; rfl

/-- No read-modify-write depends on D. -/
theorem modifyMem_setDecimal (s : State) (m : MemMode) (f : Byte → Byte) (d : Bool) :
    State.modifyMem { s with d := d } m f = ((s.modifyMem m f).1, { (s.modifyMem m f).2 with d := d }) := by
  simp only [State.modifyMem, locate_setDecimal]; rfl

/-- A reading instruction whose effect `f` carries D through does so itself. -/
theorem readInstr_setDecimal {i : Instr} {o : Operand} {f : State → Byte → State} {s t : State} {d : Bool}
    (hf : ∀ u v, f { u with d := d } v = { f u v with d := d }) (h : readInstr i o f s = .next t) :
    readInstr i o f { s with d := d } = .next { t with d := d } := by
  cases h
  simp only [readInstr, fetchOperand_setDecimal, hf]; rfl

/-- A store carries D through. -/
theorem storeInstr_setDecimal {i : Instr} {m : MemMode} {v : Byte} {s t : State} (d : Bool)
    (h : storeInstr i m v s = .next t) : storeInstr i m v { s with d := d } = .next { t with d := d } := by
  cases h
  simp only [storeInstr, locate_setDecimal]; rfl

/-- INC and DEC carry D through. -/
theorem modifyInstr_setDecimal {i : Instr} {m : MemMode} {f : Byte → Byte} {s t : State} (d : Bool)
    (h : modifyInstr i m f s = .next t) : modifyInstr i m f { s with d := d } = .next { t with d := d } := by
  cases h
  simp only [modifyInstr, modifyMem_setDecimal]; rfl

/-- The shifts and rotates carry D through. -/
theorem shiftInstr_setDecimal {i : Instr} {o : ShiftOperand} {f : Byte → Shifted} {s t : State} (d : Bool)
    (h : shiftInstr i o f s = .next t) : shiftInstr i o f { s with d := d } = .next { t with d := d } := by
  cases o with
  | acc => cases h; rfl
  | mem m =>
    cases h
    simp only [shiftInstr, modifyMem_setDecimal]; rfl

/-- A branch carries D through. -/
theorem branchInstr_setDecimal {cond : Bool} {disp : Byte} {s t : State} (d : Bool)
    (h : branchInstr cond disp s = .next t) : branchInstr cond disp { s with d := d } = .next { t with d := d } := by
  cases cond <;> (cases h; rfl)

/-- An instruction that does not push the status byte does the same whatever D is; it leaves D as it was unless it is a
writer of D (R34). -/
theorem exec_setDecimal {i : Instr} {s t : State} (d : Bool) (hi : s.statusPushedAt i = none)
    (h : exec i s = .next t) :
    exec i { s with d := d } = .next { t with d := if instrWritesD i then t.d else d } := by
  cases i
  case php | brk => cases hi
  case lda o | ldx o | ldy o | adc o | sbc o | and o | ora o | eor o | cmp o | cpx o | cpy o | bit m =>
    simp only [exec, execLda, execLdx, execLdy, execAdc, execSbc, execAnd, execOra, execEor, execCmp, execCpx, execCpy,
      execBit] at h ⊢
    exact readInstr_setDecimal (fun _ _ => rfl) h
  case sta m | stx m | sty m =>
    simp only [exec, execSta, execStx, execSty] at h ⊢
    exact storeInstr_setDecimal d h
  case inc m | dec m =>
    simp only [exec, execInc, execDec] at h ⊢
    exact modifyInstr_setDecimal d h
  case asl o | lsr o | rol o | ror o =>
    simp only [exec, execAsl, execLsr, execRol, execRor] at h ⊢
    exact shiftInstr_setDecimal d h
  case bcc e | bcs e | beq e | bmi e | bne e | bpl e | bvc e | bvs e =>
    simp only [exec, execBcc, execBcs, execBeq, execBmi, execBne, execBpl, execBvc, execBvs] at h ⊢
    exact branchInstr_setDecimal d h
  case jmp w => cases w <;> (cases h; rfl)
  all_goals (cases h; rfl)

/-! The instructions that push the status byte. -/

/-- Where the status byte is pushed is in RAM. -/
theorem inRam_of_statusPushedAt {i : Instr} {s : State} {p : Word} (h : s.statusPushedAt i = some p) : inRam p := by
  cases i
  case php | brk => cases h; exact stackAddr_lt _
  all_goals cases h

/-- Without bit 3 the status byte is that of D = 0 (R38). -/
theorem withoutD_packStatus (s : State) (bit4 : Bool) :
    withoutD (s.packStatus bit4) = State.packStatus { s with d := false } bit4 := by
  have bits : ∀ n v b d i z c : Bool,
      withoutD (BitVec.ofBool n ++ BitVec.ofBool v ++ 1#1 ++ BitVec.ofBool b ++ BitVec.ofBool d ++ BitVec.ofBool i ++
        BitVec.ofBool z ++ BitVec.ofBool c) =
      BitVec.ofBool n ++ BitVec.ofBool v ++ 1#1 ++ BitVec.ofBool b ++ BitVec.ofBool false ++ BitVec.ofBool i ++
        BitVec.ofBool z ++ BitVec.ofBool c := by decide
  exact bits _ _ _ _ _ _ _

/-- `u` is `t` but for D and for the byte `w` in the place of the byte `v` that `t` had stored last, at the RAM address `p`: the
memory `m` under the two stores is one, and so are the accesses before and after the two writes. -/
def SameButPushed (p : Word) (v w : Byte) (t u : State) : Prop :=
  ∃ (m : Memory) (before after accesses : List BusEvent) (d : Bool),
    t.mem = Memory.store m (p.toNat % 2 ^ t.cfg.ramBits.val) v ∧
    t.events = before ++ .write p v :: after ∧ accesses = before ++ .write p w :: after ∧
    u = { t with d := d, mem := Memory.store m (p.toNat % 2 ^ t.cfg.ramBits.val) w, events := accesses }

/-- A state whose memory is that of `r` after a store at a RAM address, all that reads depend on else being as in `r`, answers as
`r` does after the bus write. -/
theorem peek_eq_peek_write8 {r s : State} {p : Word} {v : Byte} (hp : inRam p)
    (hm : s.mem = Memory.store r.mem (p.toNat % 2 ^ r.cfg.ramBits.val) v) (hh : s.history = r.history)
    (hc : s.clock = r.clock) (hb : s.boot = r.boot) (hcfg : s.cfg = r.cfg) (a : Word) :
    s.peek a = (r.write8 p v).peek a := by
  have hmem : s.mem = (r.write8 p v).mem := by rw [hm, write8_of_lt v hp]
  have hhist : s.history = (r.write8 p v).history := hh.trans (historyAfter_of_lt _ hp).symm
  exact State.peek_congr hmem hhist hc hb hcfg a

/-- Either state answers as one and the same state does after the write of its own byte. -/
theorem SameButPushed.exists_write8 {p : Word} {v w : Byte} {t u : State} (h : SameButPushed p v w t u) (hp : inRam p) :
    ∃ r : State, r.cfg = t.cfg ∧ (∀ a, t.peek a = (r.write8 p v).peek a) ∧ ∀ a, u.peek a = (r.write8 p w).peek a := by
  obtain ⟨m, -, -, accesses, d, hm, -, -, rfl⟩ := h
  exact ⟨{ t with mem := m }, rfl, peek_eq_peek_write8 hp hm rfl rfl rfl rfl,
    peek_eq_peek_write8 hp rfl rfl rfl rfl rfl⟩

/-- Every address that does not reach the pushed byte answers alike. -/
theorem SameButPushed.peek_eq {p a : Word} {v w : Byte} {t u : State} (h : SameButPushed p v w t u) (hp : inRam p)
    (ha : route t.cfg a ≠ route t.cfg p) : u.peek a = t.peek a := by
  obtain ⟨r, hcfg, ht, hu⟩ := h.exists_write8 hp
  rw [← hcfg] at ha
  rw [ht, hu, peek_write8_of_lt v hp ha, peek_write8_of_lt w hp ha]

/-- The address of the pushed byte answers that byte, in either state. -/
theorem SameButPushed.peek_pushed {p : Word} {v w : Byte} {t u : State} (h : SameButPushed p v w t u) (hp : inRam p) :
    t.peek p = v ∧ u.peek p = w := by
  obtain ⟨r, -, ht, hu⟩ := h.exists_write8 hp
  exact ⟨(ht p).trans (peek_write8_self v hp rfl), (hu p).trans (peek_write8_self w hp rfl)⟩

/-- Where the two bytes differ in bit 3 alone, so do the accesses. -/
theorem SameButPushed.events_eq {p : Word} {v w : Byte} {t u : State} (h : SameButPushed p v w t u)
    (hvw : withoutD w = withoutD v) :
    u.events.map (accessWithoutD (some p)) = t.events.map (accessWithoutD (some p)) := by
  obtain ⟨m, before, after, accesses, d, -, ht, hu, rfl⟩ := h
  simp [ht, hu, accessWithoutD, hvw]

/-- The write of the status byte among the accesses of entering a handler (R58). -/
theorem append_entryAccesses (s : State) (ret vector : Word) (bit4 : Bool) :
    s.events ++ s.entryAccesses ret vector bit4 =
      (s.push16 ret).events ++
        BusEvent.write (stackAddr (s.sp - 2#8)) (s.packStatus bit4) :: [.read vector, .read (vector + 1#16)] := by
  simp [push16_eq, State.entryAccesses]

/-- PHP and BRK with another D push the other status byte in its place, and do the same in all else (R107, R133). -/
theorem exec_setDecimal_of_statusPushed {i : Instr} {s t : State} {p : Word} (d : Bool)
    (hi : s.statusPushedAt i = some p) (h : exec i s = .next t) :
    ∃ u, exec i { s with d := d } = .next u ∧
      SameButPushed p (s.packStatus true) (State.packStatus { s with d := d } true) t u := by
  cases i
  case php =>
    cases hi
    simp only [exec, execPhp, push8_eq] at h ⊢
    cases h
    exact ⟨_, rfl, _, _, _, _, d, rfl, rfl, rfl, rfl⟩
  case brk =>
    cases hi
    simp only [exec, execBrk_eq, push16_eq, push8_eq] at h ⊢
    cases h
    exact ⟨_, rfl, _, _, _, _, d, rfl, append_entryAccesses s (s.pc + 2#16) irqVector true,
      append_entryAccesses { s with d := d } (s.pc + 2#16) irqVector true, rfl⟩
  all_goals cases hi

/-- Settles O19: an instruction that does not push the status byte ends in the same state but for D; PHP and BRK in the same
but for D and the pushed byte, which is `packStatus` with the other D. -/
theorem decimalFlagIsInert : Obligations.DecimalFlagIsInert := by
  intro i s t d h
  cases hi : s.statusPushedAt i with
  | none =>
    refine ⟨_, exec_setDecimal d hi h, rfl, rfl, rfl, rfl, rfl, rfl, rfl, rfl, rfl, rfl, rfl, rfl, rfl,
      fun _ => ⟨rfl, rfl⟩, fun a _ => rfl, fun p hp => ?_, rfl⟩
    cases hp
  | some p =>
    obtain ⟨u, hu, hsame⟩ := exec_setDecimal_of_statusPushed d hi h
    have hp := inRam_of_statusPushedAt hi
    have hcfg : t.cfg = s.cfg := (exec_keeps h).1
    have hbyte : withoutD (State.packStatus { s with d := d } true) = withoutD (s.packStatus true) := by
      rw [withoutD_packStatus, withoutD_packStatus]
    obtain ⟨htp, hup⟩ := hsame.peek_pushed hp
    have hother : ∀ a, route s.cfg a ≠ route s.cfg p → u.peek a = t.peek a := fun a ha =>
      hsame.peek_eq hp (hcfg ▸ ha)
    have hevents := hsame.events_eq hbyte
    obtain ⟨m, -, -, accesses, d', -, -, -, rfl⟩ := hsame
    refine ⟨_, hu, rfl, rfl, rfl, rfl, rfl, rfl, rfl, rfl, rfl, rfl, rfl, rfl, rfl, fun hn => ?_,
      fun a ha => hother a (ha p rfl), fun q hq => ?_, hevents⟩
    · cases hn
    · cases hq
      rw [htp, hup, hbyte]

end Sys2Proof.Machine
end

section
/-! The frame of an instruction: the registers and flags by their lists of writers (10_state.md R22 to R26, R31 to R37), and the
pending flags, which only the boundary check and the host move (R40). -/

namespace Sys2Proof.Machine

/-- All that an instruction can change: PC, `cyc`, memory, the record of the bus, and the registers and flags it is a listed
writer of (R20 to R41). -/
theorem exec_frame {i : Instr} {s t : State} (h : exec i s = .next t) :
    t =
      { s with
        pc := t.pc, cyc := t.cyc, mem := t.mem, history := t.history, events := t.events
        a := if instrWritesA i then t.a else s.a
        x := if instrWritesX i then t.x else s.x
        y := if instrWritesY i then t.y else s.y
        sp := if instrWritesS i then t.sp else s.sp
        c := if instrWritesC i then t.c else s.c
        z := if instrWritesZ i then t.z else s.z
        n := if instrWritesZ i then t.n else s.n
        i := if instrWritesI i then t.i else s.i
        d := if instrWritesD i then t.d else s.d
        b := if instrWritesB i then t.b else s.b
        v := if instrWritesV i then t.v else s.v } := by
  cases i
  case lda o | ldx o | ldy o | adc o | sbc o | and o | ora o | eor o | cmp o | cpx o | cpy o | bit m =>
    simp only [exec, execLda, execLdx, execLdy, execAdc, execSbc, execAnd, execOra, execEor, execCmp, execCpx, execCpy,
      execBit, readInstr_eq] at h
    cases h; rfl
  case sta m | stx m | sty m =>
    simp only [exec, execSta, execStx, execSty, storeInstr_eq] at h
    cases h; rfl
  case inc m | dec m =>
    simp only [exec, execInc, execDec, modifyInstr_eq] at h
    cases h; rfl
  case asl o | lsr o | rol o | ror o =>
    cases o with
    | acc => cases h; rfl
    | mem m =>
      simp only [exec, execAsl, execLsr, execRol, execRor, shiftInstr_mem_eq] at h
      cases h; rfl
  case bcc e | bcs e | beq e | bmi e | bne e | bpl e | bvc e | bvs e =>
    simp only [exec, execBcc, execBcs, execBeq, execBmi, execBne, execBpl, execBvc, execBvs, branchInstr_eq] at h
    cases h; rfl
  case jmp w => cases w <;> (cases h; rfl)
  case brk =>
    simp only [exec, execBrk_eq] at h
    cases h; rfl
  all_goals (cases h; rfl)

/-- No instruction changes a pending flag (R40). -/
theorem exec_keeps_pending {i : Instr} {s t : State} (h : exec i s = .next t) :
    t.nmiPending = s.nmiPending ∧ t.irqPending = s.irqPending ∧ t.resetPending = s.resetPending := by
  rw [exec_frame h]; exact ⟨rfl, rfl, rfl⟩

/-- The masked check sets no request, and leaves the other two alone (R158). -/
theorem maskedIrq_pending (s : State) :
    s.maskedIrq.nmiPending = s.nmiPending ∧ (s.maskedIrq.irqPending = true → s.irqPending = true) ∧
      s.maskedIrq.resetPending = s.resetPending := by
  unfold State.maskedIrq
  split
  · next hmasked =>
    have hirq : s.irqPending = true := (Bool.and_eq_true_iff.1 hmasked).1
    split <;> exact ⟨rfl, fun _ => hirq, rfl⟩
  · exact ⟨rfl, id, rfl⟩

/-- Fetching changes no pending flag (R153). -/
theorem fetch_pending (s : State) :
    s.fetch.2.nmiPending = s.nmiPending ∧ s.fetch.2.irqPending = s.irqPending ∧
      s.fetch.2.resetPending = s.resetPending := by
  obtain ⟨e, h, hf⟩ := fetch_frame s
  rw [hf]; exact ⟨rfl, rfl, rfl⟩

/-- The boundary check takes any other action than the reset only when no reset is requested (R152). -/
theorem resetPending_of_action_ne {s : State} (h : s.action ≠ .reset) : s.resetPending = false := by
  by_contra hr
  exact h (by simp [State.action, hr])

/-- Settles O17: a reset clears the three flags, an entry clears the request it serves, and an instruction keeps what the masked
check leaves; the reset comes first, so none is requested after any other action. -/
theorem stepOnlyClearsPendingFlags : Obligations.StepOnlyClearsPendingFlags := by
  refine ⟨fun s t h => ?_, fun i s t => exec_keeps_pending⟩
  obtain ⟨-, rfl⟩ | ⟨ha, rfl⟩ | ⟨ha, rfl⟩ | ⟨ha, u, hu, rfl⟩ := step_cases h
  · simp [State.resetSequence, read16_state]
  · have hr : s.resetPending = false := resetPending_of_action_ne (by simp [ha])
    simp [nmiEntry_eq, hr]
  · have hr : s.resetPending = false := resetPending_of_action_ne (by simp [ha])
    simp [irqEntry_eq, hr]
  · have hr : s.resetPending = false := resetPending_of_action_ne (by simp [ha])
    obtain ⟨mnmi, mirq, mreset⟩ := maskedIrq_pending s.beginStep
    obtain ⟨fnmi, firq, freset⟩ := fetch_pending s.beginStep.maskedIrq
    obtain ⟨unmi, uirq, ureset⟩ := exec_keeps_pending hu
    exact ⟨fun hn => mnmi ▸ fnmi ▸ unmi ▸ hn, fun hi => mirq (firq ▸ uirq ▸ hi),
      (ureset.trans freset).trans (mreset.trans hr)⟩

/-- What keeps its value unless `w`, and has another, has `w`. -/
theorem writes_of_ne {α : Type} {new old : α} {w : Bool} (h : new = if w then new else old) (hne : new ≠ old) :
    w = true := by
  cases w with
  | true => rfl
  | false => exact absurd h hne

/-- Settles O18: `exec_frame`, read register by register. -/
theorem registersAndFlagsChangeOnlyByTheirWriters : Obligations.RegistersAndFlagsChangeOnlyByTheirWriters := by
  intro i s t h
  have hframe := exec_frame h
  exact ⟨writes_of_ne (congrArg (·.a) hframe), writes_of_ne (congrArg (·.x) hframe),
    writes_of_ne (congrArg (·.y) hframe), writes_of_ne (congrArg (·.sp) hframe),
    writes_of_ne (congrArg (·.c) hframe), writes_of_ne (congrArg (·.z) hframe),
    writes_of_ne (congrArg (·.n) hframe), writes_of_ne (congrArg (·.i) hframe),
    writes_of_ne (congrArg (·.d) hframe), writes_of_ne (congrArg (·.b) hframe),
    writes_of_ne (congrArg (·.v) hframe)⟩

end Sys2Proof.Machine
end

section
/-! Two fields that no rule of the core lets through: the stored B, which nothing reads but the entries under
`IRQ_PUSHED_B = stored` (10_state.md R35, R38), and `cyc`, which nothing reads and every step writes (R41). Both are carried
through each operation in one lemma. -/

namespace Sys2Proof.Machine

/-! The shared instruction shapes. -/

/-- No addressing mode reads B or `cyc`. -/
theorem locate_setBreakCyc (s : State) (m : MemMode) (b : Bool) (k : Nat) :
    State.locate { s with b := b, cyc := k } m =
      ⟨(s.locate m).ea, (s.locate m).crossed, { (s.locate m).state with b := b, cyc := k }⟩ := by
  cases m <;> rfl

/-- No operand's value depends on B or `cyc`. -/
theorem fetchOperand_setBreakCyc (s : State) (o : Operand) (b : Bool) (k : Nat) :
    State.fetchOperand { s with b := b, cyc := k } o =
      ⟨(s.fetchOperand o).value, (s.fetchOperand o).crossed, { (s.fetchOperand o).state with b := b, cyc := k }⟩ := by
  cases o with
  | imm n => rfl
  | mem m => simp only [State.fetchOperand, State.fetchMem, locate_setBreakCyc]; rfl

/-- No read-modify-write depends on B or `cyc`. -/
theorem modifyMem_setBreakCyc (s : State) (m : MemMode) (f : Byte → Byte) (b : Bool) (k : Nat) :
    State.modifyMem { s with b := b, cyc := k } m f =
      ((s.modifyMem m f).1, { (s.modifyMem m f).2 with b := b, cyc := k }) := by
  simp only [State.modifyMem, locate_setBreakCyc]; rfl

/-- A reading instruction whose effect `f` carries B and `cyc` through keeps B and writes `cyc`. -/
theorem readInstr_setBreakCyc {i : Instr} {o : Operand} {f : State → Byte → State} {s t : State} {b : Bool} {k : Nat}
    (hf : ∀ u v, f { u with b := b, cyc := k } v = { f u v with b := b, cyc := k }) (h : readInstr i o f s = .next t) :
    readInstr i o f { s with b := b, cyc := k } = .next { t with b := b } := by
  cases h
  simp only [readInstr, fetchOperand_setBreakCyc, hf]; rfl

/-- A store keeps B and writes `cyc`. -/
theorem storeInstr_setBreakCyc {i : Instr} {m : MemMode} {v : Byte} {s t : State} (b : Bool) (k : Nat)
    (h : storeInstr i m v s = .next t) : storeInstr i m v { s with b := b, cyc := k } = .next { t with b := b } := by
  cases h
  simp only [storeInstr, locate_setBreakCyc]; rfl

/-- INC and DEC keep B and write `cyc`. -/
theorem modifyInstr_setBreakCyc {i : Instr} {m : MemMode} {f : Byte → Byte} {s t : State} (b : Bool) (k : Nat)
    (h : modifyInstr i m f s = .next t) : modifyInstr i m f { s with b := b, cyc := k } = .next { t with b := b } := by
  cases h
  simp only [modifyInstr, modifyMem_setBreakCyc]; rfl

/-- The shifts and rotates keep B and write `cyc`. -/
theorem shiftInstr_setBreakCyc {i : Instr} {o : ShiftOperand} {f : Byte → Shifted} {s t : State} (b : Bool) (k : Nat)
    (h : shiftInstr i o f s = .next t) : shiftInstr i o f { s with b := b, cyc := k } = .next { t with b := b } := by
  cases o with
  | acc => cases h; rfl
  | mem m =>
    cases h
    simp only [shiftInstr, modifyMem_setBreakCyc]; rfl

/-- A branch keeps B and writes `cyc`. -/
theorem branchInstr_setBreakCyc {cond : Bool} {disp : Byte} {s t : State} (b : Bool) (k : Nat)
    (h : branchInstr cond disp s = .next t) :
    branchInstr cond disp { s with b := b, cyc := k } = .next { t with b := b } := by
  cases cond <;> (cases h; rfl)

/-! The instructions. -/

/-- An instruction does the same whatever B and `cyc` are; it writes `cyc`, and leaves B as it was unless it is a writer of B
(R35, R41). -/
theorem exec_setBreakCyc {i : Instr} {s t : State} (b : Bool) (k : Nat) (h : exec i s = .next t) :
    exec i { s with b := b, cyc := k } = .next { t with b := if instrWritesB i then t.b else b } := by
  cases i
  case lda o | ldx o | ldy o | adc o | sbc o | and o | ora o | eor o | cmp o | cpx o | cpy o | bit m =>
    simp only [exec, execLda, execLdx, execLdy, execAdc, execSbc, execAnd, execOra, execEor, execCmp, execCpx, execCpy,
      execBit] at h ⊢
    exact readInstr_setBreakCyc (fun _ _ => rfl) h
  case sta m | stx m | sty m =>
    simp only [exec, execSta, execStx, execSty] at h ⊢
    exact storeInstr_setBreakCyc b k h
  case inc m | dec m =>
    simp only [exec, execInc, execDec] at h ⊢
    exact modifyInstr_setBreakCyc b k h
  case asl o | lsr o | rol o | ror o =>
    simp only [exec, execAsl, execLsr, execRol, execRor] at h ⊢
    exact shiftInstr_setBreakCyc b k h
  case bcc e | bcs e | beq e | bmi e | bne e | bpl e | bvc e | bvs e =>
    simp only [exec, execBcc, execBcs, execBeq, execBmi, execBne, execBpl, execBvc, execBvs] at h ⊢
    exact branchInstr_setBreakCyc b k h
  case jmp w => cases w <;> (cases h; rfl)
  case brk =>
    simp only [exec, execBrk_eq] at h ⊢
    cases h; rfl
  all_goals (cases h; rfl)

/-- No instruction faults or is refused (R154, R178). -/
theorem exec_completes (i : Instr) (s : State) : ∃ t, exec i s = .next t := by
  cases i
  case asl o | lsr o | rol o | ror o => cases o <;> exact ⟨_, rfl⟩
  case bcc d | bcs d | beq d | bmi d | bne d | bpl d | bvc d | bvs d =>
    exact ⟨_, branchInstr_eq _ d s⟩
  all_goals exact ⟨_, rfl⟩

/-! The step. -/

/-- The masked check carries B and `cyc` through. -/
theorem maskedIrq_setBreakCyc (s : State) (b : Bool) (k : Nat) :
    State.maskedIrq { s with b := b, cyc := k } = { s.maskedIrq with b := b, cyc := k } := by
  simp only [State.maskedIrq]
  split
  · split <;> rfl
  · rfl

/-- No bus read's answer depends on B or `cyc`. -/
theorem peek_setBreakCyc (s : State) (b : Bool) (k : Nat) (a : Word) :
    State.peek { s with b := b, cyc := k } a = s.peek a := rfl

/-- Fetching reads neither B nor `cyc`. -/
theorem fetch_setBreakCyc (s : State) (b : Bool) (k : Nat) :
    State.fetch { s with b := b, cyc := k } = (s.fetch.1, { s.fetch.2 with b := b, cyc := k }) := by
  simp only [State.fetch, State.read8, peek_setBreakCyc]
  split <;> rfl

/-- The state an instruction starts in has the B and `cyc` that its step starts with. -/
theorem maskedIrq_fetch_setBreakCyc (s : State) (b : Bool) (k : Nat) :
    (State.beginStep { s with b := b, cyc := k }).maskedIrq.fetch =
      (s.beginStep.maskedIrq.fetch.1, { s.beginStep.maskedIrq.fetch.2 with b := b, cyc := k }) := by
  have hbegin : State.beginStep { s with b := b, cyc := k } = { s.beginStep with b := b, cyc := k } := rfl
  rw [hbegin, maskedIrq_setBreakCyc, fetch_setBreakCyc]

/-- The boundary check and the fetch leave B as it is. -/
theorem maskedIrq_fetch_b (s : State) : s.beginStep.maskedIrq.fetch.2.b = s.b := by
  obtain ⟨e, h, hf⟩ := fetch_frame s.beginStep.maskedIrq
  obtain ⟨p, d, hm⟩ := maskedIrq_frame s.beginStep
  rw [hf, hm]; rfl

/-- A step that runs an instruction answers what its `exec` does, with the devices' time advanced (R153). -/
theorem step_of_exec {s u : State} (ha : s.action = .instruction)
    (hu : exec s.beginStep.maskedIrq.fetch.1 s.beginStep.maskedIrq.fetch.2 = .next u) : step s = .next u.endStep := by
  simp only [step, ha, State.runInstruction, hu]

/-- A step that runs an instruction does the same whatever B and `cyc` are, and carries B through unless the instruction is a
writer of B (R35, R41). -/
theorem step_setBreakCyc {s u : State} (b : Bool) (k : Nat) (ha : s.action = .instruction)
    (hu : exec s.beginStep.maskedIrq.fetch.1 s.beginStep.maskedIrq.fetch.2 = .next u) :
    step { s with b := b, cyc := k } =
      .next { u.endStep with b := if instrWritesB s.beginStep.maskedIrq.fetch.1 then u.b else b } := by
  have haction : State.action { s with b := b, cyc := k } = .instruction := ha
  refine step_of_exec haction (u := { u with b := if instrWritesB s.beginStep.maskedIrq.fetch.1 then u.b else b }) ?_
  rw [maskedIrq_fetch_setBreakCyc]
  exact exec_setBreakCyc b k hu

/-- Under `IRQ_PUSHED_B = zero` the break bit pushed on entry does not depend on B (R38). -/
theorem entryBit4_setBreak {s : State} (b : Bool) (hzero : s.cfg.irqPushedB = .zero) :
    State.entryBit4 { s with b := b } = s.entryBit4 := by
  simp [State.entryBit4, hzero]

/-- Under `IRQ_PUSHED_B = zero` NMI entry, which clears B, does not depend on it (R160). -/
theorem nmiEntry_setBreak {s : State} (b : Bool) (hzero : s.cfg.irqPushedB = .zero) :
    State.nmiEntry { s with b := b } = s.nmiEntry := by
  simp only [nmiEntry_eq, entryBit4_setBreak b hzero]; rfl

/-- Under `IRQ_PUSHED_B = zero` IRQ entry, which clears B, does not depend on it (R161). -/
theorem irqEntry_setBreak {s : State} (b : Bool) (hzero : s.cfg.irqPushedB = .zero) :
    State.irqEntry { s with b := b } = s.irqEntry := by
  simp only [irqEntry_eq, entryBit4_setBreak b hzero]; rfl

/-- Settles O20: the reset sequence and the entries write B, and under `IRQ_PUSHED_B = zero` an entry pushes 0 for it; an
instruction carries it through. -/
theorem storedBreakFlagIsUnobservable : Obligations.StoredBreakFlagIsUnobservable := by
  intro s t b hzero h
  have haction : State.action { s with b := b } = s.action := rfl
  have hbegin : State.beginStep { s with b := b } = { s.beginStep with b := b } := rfl
  obtain ⟨ha, rfl⟩ | ⟨ha, rfl⟩ | ⟨ha, rfl⟩ | ⟨ha, u, hu, rfl⟩ := step_cases h
  · exact ⟨s.cfg.resetB, by simp only [step, haction, ha]; rfl⟩
  · exact ⟨s.beginStep.nmiEntry.endStep.b, by
      simp only [step, haction, ha, hbegin, nmiEntry_setBreak (s := s.beginStep) b hzero]⟩
  · exact ⟨s.beginStep.irqEntry.endStep.b, by
      simp only [step, haction, ha, hbegin, irqEntry_setBreak (s := s.beginStep) b hzero]⟩
  · exact ⟨_, step_setBreakCyc b s.cyc ha hu⟩

/-- Settles O21: the reset sequence, the entries and every instruction write `cyc`, and none reads it. -/
theorem cycleCounterIsNeverRead : Obligations.CycleCounterIsNeverRead := by
  intro s k
  have haction : State.action { s with cyc := k } = s.action := rfl
  cases ha : s.action with
  | reset | nmi | irq => simp only [step, haction, ha]; rfl
  | instruction =>
    obtain ⟨u, hu⟩ := exec_completes s.beginStep.maskedIrq.fetch.1 s.beginStep.maskedIrq.fetch.2
    have hs : s.beginStep.maskedIrq.fetch.2.b = s.b := maskedIrq_fetch_b s
    have hb : u.b = if instrWritesB s.beginStep.maskedIrq.fetch.1 then u.b else s.b :=
      hs ▸ congrArg (·.b) (exec_frame hu)
    calc step { s with cyc := k }
        = .next { u.endStep with b := if instrWritesB s.beginStep.maskedIrq.fetch.1 then u.b else s.b } :=
          step_setBreakCyc s.b k ha hu
      _ = .next u.endStep := by rw [← hb]; rfl
      _ = step s := (step_of_exec ha hu).symm

end Sys2Proof.Machine
end

section
/-! The status byte (10_state.md R38), what a handler's entry saves and its return restores (60_exceptions.md R166), and the
state after power-on (R42). -/

namespace Sys2Proof.Machine

/-- Bit `k` of a byte, by division. -/
theorem getLsbD_eq_decide (p : Byte) (k : Nat) : p.getLsbD k = decide (p.toNat / 2 ^ k % 2 = 1) := by
  rw [BitVec.getLsbD, Nat.testBit_eq_decide_div_mod_eq]

/-- The packed status byte is the sum of its bits (R38). -/
theorem packStatus_eq_statusByte (s : State) (bit4 : Bool) : s.packStatus bit4 = s.statusByte bit4 := by
  have bits : ∀ n v b d i z c : Bool,
      BitVec.ofBool n ++ BitVec.ofBool v ++ 1#1 ++ BitVec.ofBool b ++ BitVec.ofBool d ++ BitVec.ofBool i ++
        BitVec.ofBool z ++ BitVec.ofBool c =
      BitVec.ofNat 8 (128 * n.toNat + 64 * v.toNat + 32 + 16 * b.toNat + 8 * d.toNat + 4 * i.toNat + 2 * z.toNat +
        c.toNat) := by decide
  exact bits _ _ _ _ _ _ _

/-- Settles O29: the packed byte as a sum, the unpacked bits as quotients. -/
theorem statusByteLayout : Obligations.StatusByteLayout := by
  intro s bit4 p
  refine ⟨packStatus_eq_statusByte s bit4, ?_⟩
  simp only [State.unpackStatus, getLsbD_eq_decide, Nat.reducePow, Nat.div_one]

/-- Unpacking a packed status byte gives its flags back, and the pushed break bit as B (R38). -/
theorem unpackStatus_packStatus (s t : State) (bit4 : Bool) :
    t.unpackStatus (s.packStatus bit4) =
      { t with n := s.n, v := s.v, b := bit4, d := s.d, i := s.i, z := s.z, c := s.c } := by
  simp only [State.unpackStatus, State.packStatus, BitVec.getLsbD_append, BitVec.getLsbD_ofBool]
  simp

/-- With RAM of four bytes or more, stack addresses that differ modulo 4 reach different bytes (R26, R45). -/
theorem route_stackAddr_ne {cfg : Config} (hram : 2 ≤ cfg.ramBits.val) {p q : Byte} (h : p.toNat % 4 ≠ q.toNat % 4) :
    route cfg (stackAddr p) ≠ route cfg (stackAddr q) := by
  rw [route_of_lt (stackAddr_lt p), route_of_lt (stackAddr_lt q), toNat_stackAddr, toNat_stackAddr]
  intro heq
  have hdvd : 4 ∣ 2 ^ cfg.ramBits.val := Nat.pow_dvd_pow 2 hram
  have hmod := congrArg (· % 4) (Route.ram.inj heq)
  simp only [Nat.mod_mod_of_dvd _ hdvd] at hmod
  omega

/-- The bus answers after a push as after its write: S is not its business (R62). -/
theorem peek_push8 (s : State) (v : Byte) (a : Word) :
    (s.push8 v).peek a = (s.write8 (stackAddr s.sp) v).peek a := rfl

/-- The pushed byte reads back (R62). -/
theorem peek_push8_self (s : State) (v : Byte) : (s.push8 v).peek (stackAddr s.sp) = v := by
  rw [peek_push8, peek_write8_self v (stackAddr_lt s.sp) rfl]

/-- A push leaves every address that it does not reach (R62). -/
theorem peek_push8_of_ne {s : State} {a : Word} (v : Byte) (h : route s.cfg a ≠ route s.cfg (stackAddr s.sp)) :
    (s.push8 v).peek a = s.peek a := by
  rw [peek_push8, peek_write8_of_lt v (stackAddr_lt s.sp) h]

/-- A handler is entered with the three pushes on the stack, wherever the vector is: the vector reads change no byte of
page one (R58). -/
theorem peek_enterHandler_stackAddr (s : State) (ret vector : Word) (bit4 clearB setI : Bool) (p : Byte) :
    (s.enterHandler ret vector bit4 clearB setI).peek (stackAddr p) =
      ((s.push16 ret).push8 (s.packStatus bit4)).peek (stackAddr p) := by
  refine peek_congr_of_plain ?_ ?_ ?_ ?_
  · simp [State.enterHandler, read16_state]
  · simp [State.enterHandler, read16_state]
  · simp [State.enterHandler, read16_state]
  · simp [State.isPlain, route_of_lt (stackAddr_lt p)]

/-- With RAM of four bytes or more, the three stacked bytes are there when the handler is entered (R160). -/
theorem enterHandler_stacked (s : State) (ret vector : Word) (bit4 clearB setI : Bool) (hram : 2 ≤ s.cfg.ramBits.val) :
    let t := s.enterHandler ret vector bit4 clearB setI
    t.peek (stackAddr s.sp) = hiByte ret ∧ t.peek (stackAddr (s.sp - 1#8)) = loByte ret ∧
      t.peek (stackAddr (s.sp - 2#8)) = s.packStatus bit4 := by
  have hsp : s.sp - 1#8 - 1#8 = s.sp - 2#8 := by bv_omega
  have h01 : route s.cfg (stackAddr s.sp) ≠ route s.cfg (stackAddr (s.sp - 1#8)) :=
    route_stackAddr_ne hram (by bv_omega)
  have h02 : route s.cfg (stackAddr s.sp) ≠ route s.cfg (stackAddr (s.sp - 2#8)) :=
    route_stackAddr_ne hram (by bv_omega)
  have h12 : route s.cfg (stackAddr (s.sp - 1#8)) ≠ route s.cfg (stackAddr (s.sp - 2#8)) :=
    route_stackAddr_ne hram (by bv_omega)
  simp only [peek_enterHandler_stackAddr, State.push16]
  refine ⟨?_, ?_, ?_⟩
  · rw [peek_push8_of_ne _ (by simpa [hsp] using h02), peek_push8_of_ne _ h01, peek_push8_self]
  · rw [peek_push8_of_ne _ (by simpa [hsp] using h12)]
    exact peek_push8_self _ _
  · rw [← hsp]
    exact peek_push8_self _ _

/-- Entering a handler takes three bytes off S and touches no other register (R160). -/
theorem enterHandler_registers (s : State) (ret vector : Word) (bit4 clearB setI : Bool) :
    let t := s.enterHandler ret vector bit4 clearB setI
    t.sp = s.sp - 3#8 ∧ t.a = s.a ∧ t.x = s.x ∧ t.y = s.y := by
  simp [State.enterHandler, read16_state, State.push16, BitVec.sub_sub]

/-- Settles O33: the return pulls the three stacked bytes, status byte first, and unpacks what was packed. -/
theorem returnRestoresWhatEntrySaved : Obligations.ReturnRestoresWhatEntrySaved := by
  intro s ret vector bit4 clearB setI hram
  obtain ⟨hhi, hlo, hstatus⟩ := enterHandler_stacked s ret vector bit4 clearB setI hram
  obtain ⟨hsp, ha, hx, hy⟩ := enterHandler_registers s ret vector bit4 clearB setI
  have h1 : s.sp - 3#8 + 1#8 = s.sp - 2#8 := by bv_omega
  have h2 : s.sp - 3#8 + 2#8 = s.sp - 1#8 := by bv_omega
  have h3 : s.sp - 3#8 + 3#8 = s.sp := by bv_omega
  simp only [leaveHandler_eq, hsp, h1, h2, h3, hhi, hlo, hstatus, unpackStatus_packStatus, ha, hx, hy]
  simp [mkWord, hiByte, loByte]

/-- Settles O36: power-on is the reset sequence on a blank machine, and the sequence sets every register and flag. -/
theorem powerOnStateHoldsTheResetValues : Obligations.PowerOnStateHoldsTheResetValues := by
  intro cfg
  exact ⟨rfl, rfl, rfl, rfl, rfl, rfl, rfl, rfl, rfl, rfl, rfl, rfl, rfl, rfl, rfl, rfl⟩

end Sys2Proof.Machine
end

section
/-! Memory stays canonical along every run (20_memory.md R45, R48): a step stores RAM bytes and nothing else, the host's
actions keep what they find, and so no listed cartridge byte ever changes. -/

namespace Sys2Proof.Machine

/-- A RAM byte's number is below 0x2000 (R45). -/
theorem ramKey_of_inRam (cfg : Config) {a : Word} (ha : inRam a) : a.toNat % 2 ^ cfg.ramBits.val < 0x2000 :=
  Nat.lt_of_le_of_lt (Nat.mod_le _ _) ha

/-- A RAM byte's number is a key that memory can hold (R45). -/
theorem legalKey_ram (cfg : Config) (n : Nat) : legalKey cfg (n % 2 ^ cfg.ramBits.val) = true := by
  have hlt : n % 2 ^ cfg.ramBits.val < 2 ^ cfg.ramBits.val := Nat.mod_lt _ (Nat.two_pow_pos _)
  simp [legalKey, hlt]

/-- Settles O12: a step only stores bytes at RAM byte numbers, which are legal keys. -/
theorem stepKeepsTheMemoryCanonical : Obligations.StepKeepsTheMemoryCanonical := by
  intro s t hs h
  have hmem : State.wf { s with mem := t.mem } = true :=
    step_mem_induction (P := fun m => State.wf { s with mem := m } = true) h
      (fun m b w _ hm => State.wf_store (s := { s with mem := m }) w hm (legalKey_ram s.cfg b.toNat)) hs
  obtain ⟨u, rfl, hcfg, -, -⟩ := step_eq_endStep h
  rw [State.wf_congr (s := { s with mem := u.mem }) (t := u.endStep) rfl hcfg]
  exact hmem

/-- Settles O14, by induction over the run: O12 for the steps, `State.wf_host` for the host's actions. -/
theorem everyRunKeepsTheMemoryCanonical : Obligations.EveryRunKeepsTheMemoryCanonical := by
  rintro s t hs ⟨n, hrun⟩
  exact hrun.induction (P := fun u => u.wf = true) (fun u v => stepKeepsTheMemoryCanonical u v)
    (fun _ act => State.wf_host act) hs

/-- Settles O15: the keys a step stores at are RAM byte numbers, below every cartridge address. -/
theorem listedCartridgeBytesNeverChange : Obligations.ListedCartridgeBytesNeverChange := by
  intro s t k h hk
  refine step_mem_induction (P := fun m => Memory.lookup m k = Memory.lookup s.mem k) h (fun m b w hb hm => ?_) rfl
  have hlt := ramKey_of_inRam s.cfg hb
  rw [Memory.lookup_store_of_ne m w (by omega), hm]

end Sys2Proof.Machine
end

section
/-! The bus (20_memory.md R44 to R51): where each address is routed, what RAM answers through its mirrors, and what is answered
and seen outside it. -/

namespace Sys2Proof.Machine

/-- The window from 0x2000 to 0x401F reaches a device register (R46, R47). -/
theorem route_of_device (cfg : Config) {a : Word} (hlo : ¬ inRam a) (hhi : a.toNat < 0x4020) :
    route cfg a = .device (deviceRegister a) := by
  simp [route, hlo, hhi]

/-- From 0x4020 up the cartridge is reached (R48). -/
theorem route_of_cart (cfg : Config) {a : Word} (h : 0x4020 ≤ a.toNat) : route cfg a = .cart a := by
  have hram : ¬ a.toNat < 0x2000 := by omega
  simp [route, hram, Nat.not_lt.2 h]

/-- Settles O6, window by window. -/
theorem busRoutesEveryAddress : Obligations.BusRoutesEveryAddress := by
  intro cfg a
  refine ⟨fun h => route_of_lt h, fun hlo hhi => ?_, fun hlo hhi => ?_, fun h => route_of_cart cfg h⟩
  · rw [route_of_device cfg (Nat.not_lt.2 hlo) (by omega), deviceRegister, if_pos hhi]
  · rw [route_of_device cfg (by omega) hhi, deviceRegister, if_neg (Nat.not_lt.2 hlo)]

/-- Two RAM addresses are routed alike exactly when they are mirrors of one byte (R45). -/
theorem route_eq_iff_of_inRam (cfg : Config) {a b : Word} (ha : inRam a) (hb : inRam b) :
    route cfg b = route cfg a ↔ b.toNat % 2 ^ cfg.ramBits.val = a.toNat % 2 ^ cfg.ramBits.val := by
  rw [route_of_lt ha, route_of_lt hb, Route.ram.injEq]

/-- RAM is plain memory. -/
theorem isPlain_of_inRam (s : State) {a : Word} (h : inRam a) : s.isPlain a = true := by
  simp [State.isPlain, route_of_lt h]

/-- What RAM answers: the byte last written, or the power-on draw (R45). -/
theorem peek_of_inRam (s : State) {a : Word} (h : inRam a) :
    s.peek a =
      (Memory.lookup s.mem (a.toNat % 2 ^ s.cfg.ramBits.val)).getD
        (Config.ramDraw s.boot (a.toNat % 2 ^ s.cfg.ramBits.val)) := by
  simp [State.peek, route_of_lt h]

/-- What the device window answers: the device draw of the history as the devices see it (R51). -/
theorem peek_of_device (s : State) {a : Word} (hlo : ¬ inRam a) (hhi : a.toNat < 0x4020) :
    s.peek a = Config.devRead s.cfg.world s.boot (deviceView s.history) s.clock (deviceRegister a) := by
  simp [State.peek, route_of_device s.cfg hlo hhi]

/-- What the cartridge window answers: the listed byte, or the cartridge draw (R48, R51). -/
theorem peek_of_cart (s : State) {a : Word} (h : 0x4020 ≤ a.toNat) :
    s.peek a =
      (Memory.lookup s.mem a.toNat).getD (Config.cartRead s.cfg.world s.boot s.history s.clock a) := by
  simp [State.peek, route_of_cart s.cfg h]

/-- Settles O7: the addresses that reach the byte are those routed as `a` is, and an access of RAM is seen by nobody. -/
theorem ramAnswersThroughEveryMirror : Obligations.RamAnswersThroughEveryMirror := by
  intro s a b v ha hb
  refine ⟨?_, peek_noteRead_of_plain a (isPlain_of_inRam s hb), historyAfter_of_lt _ ha, fun hnone => ?_⟩
  · split
    · next hmirror => exact peek_write8_self v ha ((route_eq_iff_of_inRam s.cfg ha hb).2 hmirror)
    · next hother => exact peek_write8_of_lt v ha (mt (route_eq_iff_of_inRam s.cfg ha hb).1 hother)
  · rw [peek_of_inRam s ha, hnone, Option.getD_none]

/-- Settles O8: an access outside RAM is one entry of the history, and what it answers depends on its window. -/
theorem busOutsideRamAnswersByDraws : Obligations.BusOutsideRamAnswersByDraws := by
  intro s a ha r
  have hseen : ∀ e : BusEvent, s.historyAfter a e = (s.clock, e) :: s.history := fun e => historyAfter_of_not_lt e ha
  refine ⟨hseen _, fun hdev => peek_of_device s ha hdev, fun _ => ?_, fun hcart => ⟨fun hnone => ?_, fun w hw => ?_⟩,
    fun v => ⟨hseen _, fun _ => ?_, write8_mem_of_not_lt v ha, rfl⟩⟩
  · rw [State.noteRead_history, hseen]; rfl
  · rw [peek_of_cart s hcart, hnone, Option.getD_none]
  · rw [peek_of_cart s hcart, hw, Option.getD_some]
  · rw [State.write8_history, hseen]; rfl

end Sys2Proof.Machine
end

section
/-! Page one and the addressing modes (20_memory.md R62, R63, R70 to R77). -/

namespace Sys2Proof.Machine

/-- A push stores its byte at `0x0100 | S`, exactly there (R62). -/
theorem storesExactly_push8 (s : State) (v : Byte) : StoresExactly s (s.push8 v) (stackAddr s.sp) v :=
  storesExactly_of_write8 rfl rfl rfl rfl (.inl rfl)

/-- Settles O9: `push8_eq` and `pull8_eq` say all that the two change; the pull after a push reads where the push stored. -/
theorem pushWritesAndPullReadsPageOne : Obligations.PushWritesAndPullReadsPageOne := by
  intro s v
  have hback : s.sp - 1#8 + 1#8 = s.sp := BitVec.sub_add_cancel s.sp 1#8
  refine ⟨toNat_stackAddr s.sp, ?_, storesExactly_push8 s v, ?_, ?_, ?_, ?_, ?_, ?_⟩
  · rw [State.push8_sp, BitVec.toNat_sub, Nat.add_comm]; rfl
  · rw [push8_eq]
  · rw [pull8_eq, BitVec.toNat_add]; rfl
  · rw [pull8_eq]
  · rw [pull8_eq]
  · rw [pull8_eq, State.push8_sp, hback, peek_push8_self]
  · rw [pull8_eq, State.push8_sp, hback]

/-- A byte as an address, by its number (R12). -/
theorem zext16_eq_ofNat (p : Byte) : zext16 p = BitVec.ofNat 16 p.toNat := by
  apply BitVec.eq_of_toNat_eq
  have := p.isLt
  rw [toNat_zext16, BitVec.toNat_ofNat]; omega

/-- The address of a pointer's second byte, by its number (R76). -/
theorem secondPtrByte_eq_ofNat (cfg : Config) (p : Byte) :
    secondPtrByte cfg p = BitVec.ofNat 16 (if cfg.zpPtrWrap then (p.toNat + 1) % 256 else p.toNat + 1) := by
  unfold secondPtrByte
  split
  · rw [zext16_eq_ofNat, BitVec.toNat_add]; rfl
  · rw [zext16_eq_ofNat, ← BitVec.ofNat_add]

/-- A zero-page pointer is made of the bytes at its two addresses: the first read changes no byte of RAM (R76, R77). -/
theorem readPtr_fst (s : State) (p : Byte) :
    (s.readPtr p).1 = mkWord (s.peek (secondPtrByte s.cfg p)) (s.peek (zext16 p)) := by
  simp only [State.readPtr, State.read8]
  rw [peek_noteRead_of_plain _ (isPlain_of_inRam s (secondPtrByte_lt _ _))]

/-- An address's page, by division (R11). -/
theorem toNat_page (a : Word) : (page a).toNat = a.toNat / 256 := by
  have := a.isLt
  simp only [page, hiByte, BitVec.extractLsb'_toNat, Nat.shiftRight_eq_div_pow]
  omega

/-- Whether two addresses are on different pages, by division (R66). -/
theorem page_bne_eq_decide (a b : Word) : (page a != page b) = decide (a.toNat / 256 ≠ b.toNat / 256) := by
  simp only [ne_eq, ← toNat_page, BitVec.toNat_inj, decide_not]
  rfl

/-- An indexed address and its page-cross bit (R66, R74, R75). -/
theorem indexed_eq (base : Word) (ix : Byte) (s : State) :
    (indexed base ix s).ea.toNat = (base.toNat + ix.toNat) % 65536 ∧
      (indexed base ix s).crossed = decide (base.toNat / 256 ≠ (indexed base ix s).ea.toNat / 256) := by
  refine ⟨?_, page_bne_eq_decide _ _⟩
  rw [indexed, BitVec.toNat_add, toNat_zext16]

/-- Settles O10: the zero-page modes wrap in a byte, the indexed ones in a word, and a pointer is two bytes of page zero. -/
theorem memoryModesGiveTheirEffectiveAddress : Obligations.MemoryModesGiveTheirEffectiveAddress := by
  intro s n a second pointer crosses
  have hptr : ∀ p : Byte, (s.readPtr p).1 = pointer p.toNat := fun p => by
    rw [readPtr_fst, secondPtrByte_eq_ofNat, zext16_eq_ofNat]
  have hzp : ∀ ix : Byte, (zext16 (n + ix)).toNat = (n.toNat + ix.toNat) % 256 := fun ix => by
    rw [toNat_zext16, BitVec.toNat_add]
  refine ⟨⟨toNat_zext16 n, rfl⟩, ⟨hzp s.x, rfl⟩, ⟨hzp s.y, rfl⟩, ⟨rfl, rfl⟩, indexed_eq a s.x s, indexed_eq a s.y s,
    ⟨?_, rfl⟩, ?_⟩
  · rw [← BitVec.toNat_add (x := n) (y := s.x), ← hptr]; rfl
  · rw [← hptr]; exact indexed_eq _ _ _

end Sys2Proof.Machine
end

section
/-! The bus accesses of a step (20_memory.md R57, R58): what each instruction accesses, and that memory after it is memory with its
accesses replayed. -/

namespace Sys2Proof.Machine

/-- Memory after one access of the bus: a write to RAM stores its byte, and nothing else does (R45, R48, R51). -/
def Memory.afterAccess (cfg : Config) (m : Memory) : BusEvent → Memory
  | .write a v =>
    match route cfg a with
    | .ram k => Memory.store m k v
    | .device _ => m
    | .cart _ => m
  | .read _ => m
  | .deviceReset => m
  | .inputChange _ => m

/-- Memory after some accesses, oldest first. -/
def Memory.replay (cfg : Config) (m : Memory) (es : List BusEvent) : Memory := es.foldl (Memory.afterAccess cfg) m

/-- Memory after a bus write, as the replay's step. -/
theorem write8_mem_eq (s : State) (a : Word) (v : Byte) :
    (s.write8 a v).mem = Memory.afterAccess s.cfg s.mem (.write a v) := rfl

@[simp] theorem Memory.replay_nil (cfg : Config) (m : Memory) : Memory.replay cfg m [] = m := rfl

@[simp] theorem Memory.replay_read (cfg : Config) (m : Memory) (a : Word) (es : List BusEvent) :
    Memory.replay cfg m (.read a :: es) = Memory.replay cfg m es := rfl

@[simp] theorem Memory.replay_write (cfg : Config) (m : Memory) (a : Word) (v : Byte) (es : List BusEvent) :
    Memory.replay cfg m (.write a v :: es) = Memory.replay cfg (Memory.afterAccess cfg m (.write a v)) es := rfl

@[simp] theorem Memory.replay_append (cfg : Config) (m : Memory) (es fs : List BusEvent) :
    Memory.replay cfg m (es ++ fs) = Memory.replay cfg (Memory.replay cfg m es) fs := List.foldl_append

/-- Pointer reads store nothing. -/
@[simp] theorem replay_pointerReads (s : State) (m : Memory) (mode : MemMode) :
    Memory.replay s.cfg m (s.pointerReads mode) = m := by
  cases mode <;> rfl

/-- An operand's reads store nothing. -/
@[simp] theorem replay_operandReads (s : State) (m : Memory) (o : Operand) :
    Memory.replay s.cfg m (s.operandReads o) = m := by
  cases o with
  | imm n => rfl
  | mem mode => simp [State.operandReads]

/-- A store's accesses store its byte. -/
@[simp] theorem replay_storeAccesses (s : State) (m : Memory) (mode : MemMode) (v : Byte) :
    Memory.replay s.cfg m (s.storeAccesses mode v) = Memory.afterAccess s.cfg m (.write (s.locate mode).ea v) := by
  simp [State.storeAccesses]

/-- A read-modify-write's accesses store its result. -/
@[simp] theorem replay_modifyAccesses (s : State) (m : Memory) (mode : MemMode) (f : Byte → Byte) :
    Memory.replay s.cfg m (s.modifyAccesses mode f) =
      Memory.afterAccess s.cfg m (.write (s.locate mode).ea (f (s.peek (s.locate mode).ea))) := by
  simp [State.modifyAccesses]

/-- `t` is `s` after the accesses `es`: they are recorded, and memory is what they make of it. -/
def MakesAccesses (s t : State) (es : List BusEvent) : Prop :=
  t.events = s.events ++ es ∧ t.mem = Memory.replay s.cfg s.mem es

/-- A two-byte push is two accesses (R58). -/
theorem push16_makesAccesses (s : State) (w : Word) :
    MakesAccesses s (s.push16 w) [.write (stackAddr s.sp) (hiByte w), .write (stackAddr (s.sp - 1#8)) (loByte w)] := by
  simp [MakesAccesses, State.push16, write8_mem_eq]

/-- The pushes of entering a handler leave memory as its accesses make it (R58, R160). -/
theorem replay_entryAccesses (s : State) (ret vector : Word) (bit4 : Bool) :
    ((s.push16 ret).push8 (s.packStatus bit4)).mem =
      Memory.replay s.cfg s.mem (s.entryAccesses ret vector bit4) := by
  simp [State.push16, write8_mem_eq, State.entryAccesses, BitVec.sub_sub]

/-- A reading instruction makes its operand's reads and no other access, when its effect `f` makes none (R58). -/
theorem readInstr_makesAccesses {i : Instr} {o : Operand} {f : State → Byte → State} {s t : State}
    (h : readInstr i o f s = .next t) (hf : ∀ u v, (f u v).events = u.events ∧ (f u v).mem = u.mem) :
    MakesAccesses s t (s.operandReads o) := by
  rw [readInstr_eq] at h
  cases h
  refine ⟨(hf _ _).1, ?_⟩
  rw [replay_operandReads]
  exact (hf _ _).2

/-- A storing instruction makes its mode's pointer reads and one write (R58, R97). -/
theorem storeInstr_makesAccesses {i : Instr} {m : MemMode} {v : Byte} {s t : State}
    (h : storeInstr i m v s = .next t) : MakesAccesses s t (s.storeAccesses m v) := by
  rw [storeInstr_eq] at h
  cases h
  exact ⟨rfl, (replay_storeAccesses s s.mem m v).symm⟩

/-- INC and DEC make their mode's pointer reads, one read and one write (R57, R61). -/
theorem modifyInstr_makesAccesses {i : Instr} {m : MemMode} {f : Byte → Byte} {s t : State}
    (h : modifyInstr i m f s = .next t) : MakesAccesses s t (s.modifyAccesses m f) := by
  rw [modifyInstr_eq] at h
  cases h
  exact ⟨rfl, (replay_modifyAccesses s s.mem m f).symm⟩

/-- A shift of memory makes its mode's pointer reads, one read and one write; a shift of A makes no access (R125 to R128). -/
theorem shiftInstr_makesAccesses {i : Instr} {o : ShiftOperand} {f : Byte → Shifted} {s t : State}
    (h : shiftInstr i o f s = .next t) : MakesAccesses s t (s.shiftAccesses f o) := by
  cases o with
  | acc => cases h; exact ⟨(List.append_nil _).symm, rfl⟩
  | mem m =>
    rw [shiftInstr_mem_eq] at h
    cases h
    exact ⟨rfl, (replay_modifyAccesses s s.mem m fun v => (f v).value).symm⟩

/-- A branch makes no access (R134). -/
theorem branchInstr_makesAccesses {cond : Bool} {d : Byte} {s t : State} (h : branchInstr cond d s = .next t) :
    MakesAccesses s t [] := by
  rw [branchInstr_eq] at h
  cases h
  exact ⟨(List.append_nil _).symm, rfl⟩

/-- Every instruction makes exactly its listed accesses (R57, R58), and changes memory by them alone. -/
theorem exec_makesAccesses {i : Instr} {s t : State} (h : exec i s = .next t) : MakesAccesses s t (s.accesses i) := by
  cases i
  case lda o | ldx o | ldy o | adc o | sbc o | and o | ora o | eor o | cmp o | cpx o | cpy o | bit m =>
    simp only [exec, execLda, execLdx, execLdy, execAdc, execSbc, execAnd, execOra, execEor, execCmp, execCpx, execCpy,
      execBit] at h
    exact readInstr_makesAccesses h fun _ _ => ⟨rfl, rfl⟩
  case sta m | stx m | sty m => exact storeInstr_makesAccesses h
  case inc m | dec m => exact modifyInstr_makesAccesses h
  case asl o | lsr o | rol o | ror o => exact shiftInstr_makesAccesses h
  case bcc d | bcs d | beq d | bmi d | bne d | bpl d | bvc d | bvs d => exact branchInstr_makesAccesses h
  case jmp w =>
    cases w with
    | abs a => cases h; exact ⟨(List.append_nil _).symm, rfl⟩
    | ind ptr => cases h; exact ⟨List.append_assoc _ _ _, rfl⟩
  case jsr a => cases h; exact push16_makesAccesses s (s.pc + 2#16)
  case brk =>
    simp only [exec, execBrk_eq] at h
    cases h; exact ⟨rfl, replay_entryAccesses s _ irqVector true⟩
  case rts =>
    simp only [exec, execRts, pull16_eq] at h
    cases h; exact ⟨rfl, rfl⟩
  case rti =>
    simp only [exec, execRti, leaveHandler_eq] at h
    cases h; exact ⟨rfl, rfl⟩
  case pha | php | pla | plp => cases h; exact ⟨rfl, rfl⟩
  all_goals (cases h; exact ⟨(List.append_nil _).symm, rfl⟩)

/-- Settles O11: the reset sequence and the entries always complete, and so does every instruction. -/
theorem everyStepCompletes : Obligations.EveryStepCompletes := by
  intro s
  cases ha : s.action with
  | reset | nmi | irq => simp [step, ha]
  | instruction =>
    obtain ⟨u, hu⟩ := exec_completes s.beginStep.maskedIrq.fetch.1 s.beginStep.maskedIrq.fetch.2
    exact ⟨_, step_of_exec ha hu⟩

/-! The fetch. -/

/-- The operand bytes do not decide what row an instruction is of: neither its opcode nor its operand count (R86). -/
theorem decodeOp_operands_irrelevant (op b1 b2 : Byte) :
    (decodeOp op b1 b2).opcode = (decodeOp op 0#8 0#8).opcode ∧
      (decodeOp op b1 b2).operandBytes = operandCount op := by
  unfold operandCount decodeOp
  split <;> exact ⟨rfl, rfl⟩

/-- Every opcode byte decodes to an instruction of that opcode (R90). -/
theorem opcode_decodeOp (op b1 b2 : Byte) : (decodeOp op b1 b2).opcode = some op := by
  have hrows : ∀ op : Byte, (decodeOp op 0#8 0#8).opcode = some op := by decide
  rw [(decodeOp_operands_irrelevant op b1 b2).1, hrows]

/-- The fetched instruction is what the byte at PC decodes to, with some operand bytes (R153). -/
theorem fetch_fst (s : State) : ∃ b1 b2 : Byte, s.fetch.1 = decodeOp (s.peek s.pc) b1 b2 := by
  simp only [State.fetch, State.read8]
  split <;> exact ⟨_, _, rfl⟩

/-- The fetch's accesses are those of the instruction it gives (R58, R153). -/
theorem fetch_events (s : State) : s.fetch.2.events = s.events ++ s.fetchReads s.fetch.1 := by
  obtain ⟨b1, b2, hf⟩ := fetch_fst s
  have hcount : s.fetch.1.operandBytes = operandCount (s.peek s.pc) := by
    rw [hf, (decodeOp_operands_irrelevant _ b1 b2).2]
  rw [State.fetchReads, hcount]
  unfold State.fetch
  simp only [State.read8]
  generalize operandCount (s.peek s.pc) = count
  match count with
  | 0 => rfl
  | 1 => exact List.append_assoc _ _ _
  | _ + 2 => exact (List.append_assoc _ _ _).trans (List.append_assoc _ _ _)

/-- The accesses an instruction fetch lists depend on PC alone. -/
theorem fetchReads_congr {s t : State} (h : t.pc = s.pc) (i : Instr) : t.fetchReads i = s.fetchReads i := by
  unfold State.fetchReads; rw [h]

/-- Settles O23: the entries' and the reset's accesses are listed by their one-update forms, the instruction's by its fetch and
`exec_makesAccesses`. -/
theorem stepMakesExactlyTheListedAccesses : Obligations.StepMakesExactlyTheListedAccesses := by
  intro s t h
  obtain ⟨ha, rfl⟩ | ⟨ha, rfl⟩ | ⟨ha, rfl⟩ | ⟨ha, u, hu, rfl⟩ := step_cases h
  · simp only [ha]; rfl
  · simp only [ha, nmiEntry_eq]; rfl
  · simp only [ha, irqEntry_eq]; rfl
  · obtain ⟨p, d, hmask⟩ := maskedIrq_frame s.beginStep
    have hpc : s.beginStep.maskedIrq.pc = s.pc := by rw [hmask]; rfl
    have hnone : s.beginStep.maskedIrq.events = [] := by rw [hmask]; rfl
    simp only [ha]
    rw [State.endStep_events, (exec_makesAccesses hu).1, fetch_events, hnone, List.nil_append, fetchReads_congr hpc]

/-! A byte stored in RAM and the fetch. -/

/-- An access that is no write reaching a RAM byte leaves the byte as it is listed (R45). -/
theorem Memory.lookup_afterAccess {cfg : Config} {k : Nat} {e : BusEvent} (m : Memory)
    (h : ∀ b w, e = .write b w → route cfg b ≠ .ram k) :
    Memory.lookup (Memory.afterAccess cfg m e) k = Memory.lookup m k := by
  cases e with
  | read | deviceReset | inputChange => rfl
  | write b w =>
    cases hb : route cfg b with
    | device | cart => simp only [Memory.afterAccess, hb]
    | ram j =>
      have hj : k ≠ j := fun heq => h b w rfl (heq ▸ hb)
      simp only [Memory.afterAccess, hb, Memory.lookup_store_of_ne m w hj]

/-- Accesses of which none is a write reaching a RAM byte leave the byte as it is listed (R45). -/
theorem Memory.lookup_replay {cfg : Config} {k : Nat} {es : List BusEvent} (m : Memory)
    (h : ∀ b w, .write b w ∈ es → route cfg b ≠ .ram k) :
    Memory.lookup (Memory.replay cfg m es) k = Memory.lookup m k := by
  induction es generalizing m with
  | nil => rfl
  | cons e es ih =>
    have hrest := ih (Memory.afterAccess cfg m e) fun b w hw => h b w (List.mem_cons_of_mem e hw)
    exact hrest.trans (Memory.lookup_afterAccess m fun b w he => h b w (he ▸ List.mem_cons_self))

/-- After accesses of which one writes a RAM byte, and no later one does, the byte is listed as written (R45). -/
theorem Memory.lookup_replay_written {cfg : Config} {a : Word} {k : Nat} {v : Byte} {before after : List BusEvent}
    (m : Memory) (ha : route cfg a = .ram k) (hlast : ∀ b w, .write b w ∈ after → route cfg b ≠ .ram k) :
    Memory.lookup (Memory.replay cfg m (before ++ .write a v :: after)) k = some v := by
  rw [Memory.replay_append, Memory.replay_write, Memory.lookup_replay _ hlast]
  simp only [Memory.afterAccess, ha, Memory.lookup_store_self]

/-- The byte an instruction stores in RAM, and does not itself overwrite, is what every address that reaches it then answers
(R45). -/
theorem peek_of_stored {i : Instr} {s t : State} {a b : Word} {v : Byte} {before after : List BusEvent}
    (h : exec i s = .next t) (hacc : s.accesses i = before ++ .write a v :: after)
    (hlast : ∀ c w, .write c w ∈ after → route s.cfg c ≠ route s.cfg a) (ha : inRam a)
    (hb : route s.cfg b = route s.cfg a) : t.peek b = v := by
  have hroute : route s.cfg a = .ram (a.toNat % 2 ^ s.cfg.ramBits.val) := route_of_lt ha
  rw [hroute] at hlast hb
  have hlisted : Memory.lookup t.mem (a.toNat % 2 ^ s.cfg.ramBits.val) = some v := by
    rw [(exec_makesAccesses h).2, hacc]
    exact Memory.lookup_replay_written s.mem hroute hlast
  simp only [State.peek, (exec_keeps h).1, hb, hlisted, Option.getD_some]

/-- A fetch decodes the byte that the bus answers at its address as the opcode (R153). -/
theorem fetchesOpcode_of_peek {s : State} {pc : Word} {v : Byte} (h : s.peek pc = v) : FetchesOpcode s pc v := by
  obtain ⟨b1, b2, hf⟩ := fetch_fst { s with pc := pc }
  have hdecoded : (State.fetch { s with pc := pc }).1 = decodeOp v b1 b2 := by
    rw [hf, ← h]; rfl
  exact ⟨by rw [hdecoded, opcode_decodeOp], b1, b2, hdecoded⟩

/-- Settles O25: the stored byte is what the fetch's first read answers. -/
theorem storedByteIsFetchedAtOnce : Obligations.StoredByteIsFetchedAtOnce :=
  ⟨fun _ _ _ v ha hpc => fetchesOpcode_of_peek (peek_write8_self v ha hpc),
    fun _ _ _ _ _ _ _ _ h hacc hlast ha hpc => fetchesOpcode_of_peek (peek_of_stored h hacc hlast ha hpc)⟩

end Sys2Proof.Machine
end

section
/-! What the host does between steps (60_exceptions.md R155, R156, R175, R176), save-states above all. -/

namespace Sys2Proof.Machine

/-- A key that no cell is at is not listed. -/
theorem Memory.lookup_eq_none {m : Memory} {k : Nat} (h : ∀ cell ∈ m, cell.1 ≠ k) : Memory.lookup m k = none := by
  have happ := Memory.lookup_append (n := []) h
  rwa [List.append_nil] at happ

/-- Cells that follow, none of them at a key, do not change what a lookup of the key answers. -/
theorem Memory.lookup_append_left (m : Memory) {n : Memory} {k : Nat} (h : ∀ cell ∈ n, cell.1 ≠ k) :
    Memory.lookup (m ++ n) k = Memory.lookup m k := by
  induction m with
  | nil => exact Memory.lookup_eq_none h
  | cons cell m ih => simp only [List.cons_append, Memory.lookup, ih]

/-- The cells of RAM are below 0x2000. -/
theorem Memory.lt_of_mem_ramPart {m : Memory} {cell : Host.Cell} (h : cell ∈ m.ramPart) : cell.1 < 0x2000 := by
  simpa using (List.mem_filter.1 h).2

/-- The other cells are from 0x2000 up. -/
theorem Memory.le_of_mem_cartPart {m : Memory} {cell : Host.Cell} (h : cell ∈ m.cartPart) : 0x2000 ≤ cell.1 := by
  simpa using (List.mem_filter.1 h).2

/-- RAM cells followed by the other cells of a memory: a RAM key is looked up in the former. -/
theorem Memory.lookup_append_cartPart_of_lt (ram m : Memory) {k : Nat} (hk : k < 0x2000) :
    Memory.lookup (ram ++ m.cartPart) k = Memory.lookup ram k :=
  Memory.lookup_append_left ram fun cell hc => by have := Memory.le_of_mem_cartPart hc; omega

/-- RAM cells followed by the other cells of a memory: any other key is looked up in the latter. -/
theorem Memory.lookup_append_cartPart_of_le {ram : Memory} (hram : ∀ cell ∈ ram, cell.1 < 0x2000) (m : Memory) {k : Nat}
    (hk : 0x2000 ≤ k) : Memory.lookup (ram ++ m.cartPart) k = Memory.lookup m k := by
  rw [Memory.lookup_append fun cell hc => by have := hram cell hc; omega, Memory.lookup_cartPart m hk]

/-- The RAM cells of RAM cells followed by other cells are the former. -/
theorem Memory.ramPart_append_cartPart {ram : Memory} (hram : ∀ cell ∈ ram, cell.1 < 0x2000) (m : Memory) :
    Memory.ramPart (ram ++ m.cartPart) = ram := by
  have hself : ram.filter (fun cell => decide (cell.1 < 0x2000)) = ram :=
    List.filter_eq_self.2 fun cell hc => decide_eq_true (hram cell hc)
  have hnone : m.cartPart.filter (fun cell => decide (cell.1 < 0x2000)) = [] :=
    List.filter_eq_nil_iff.2 fun cell hc => by simpa using Memory.le_of_mem_cartPart hc
  rw [Memory.ramPart, List.filter_append, hself, hnone, List.append_nil]

/-- A well-formed state's memory is canonical, and its cells are at legal keys. -/
theorem State.wf_iff (s : State) :
    s.wf = true ↔ Memory.wf s.mem = true ∧ ∀ cell ∈ s.mem, legalKey s.cfg cell.1 = true := by
  simp [State.wf]

/-- A legal key below the cartridge window is a RAM byte's number (R45). -/
theorem lt_of_legalKey {cfg : Config} {k : Nat} (h : legalKey cfg k = true) (hk : k < 0x4020) :
    k < 2 ^ cfg.ramBits.val := by
  simp only [legalKey, Bool.or_eq_true, Bool.and_eq_true, decide_eq_true_eq] at h
  omega

/-- A well-formed state lists nothing in the device window. -/
theorem lookup_device_of_wf {s : State} (hs : s.wf = true) {k : Nat} (hlo : 0x2000 ≤ k) (hhi : k < 0x4020) :
    Memory.lookup s.mem k = none := by
  refine Memory.lookup_eq_none fun cell hc heq => ?_
  have hlegal := ((State.wf_iff s).1 hs).2 cell hc
  have := ramKey_lt (lt_of_legalKey hlegal (by omega))
  omega

/-- What serialize takes of a well-formed machine is valid for every machine with the same RAM size (R175). -/
theorem serialize_valid {s t : State} (hs : s.wf = true) (hbits : t.cfg.ramBits = s.cfg.ramBits) :
    s.serialize.valid t.cfg = true := by
  obtain ⟨hcanonical, hlegal⟩ := (State.wf_iff s).1 hs
  refine SaveState.valid_iff.2 ⟨Memory.wfFrom_filter _ hcanonical, fun cell hc => ?_⟩
  have hlt := Memory.lt_of_mem_ramPart hc
  rw [hbits]
  exact lt_of_legalKey (hlegal cell (List.mem_of_mem_filter hc)) (by omega)

/-- Deserializing a valid save-state, as one update (R175). -/
theorem deserialize_of_valid {t : State} {saved : SaveState} (h : saved.valid t.cfg = true) :
    t.deserialize saved =
      { t with
        toCpuState := saved.core, mem := saved.ram ++ t.mem.cartPart, history := saved.history
        events := saved.events, clock := saved.clock, draws := saved.draws, boot := saved.boot } :=
  if_pos h

/-- A corrupt save-state changes nothing (R155). -/
theorem deserialize_of_corrupt {t : State} {saved : SaveState} (h : saved.valid t.cfg = false) :
    t.deserialize saved = t :=
  if_neg (by simp [h])

/-- The RAM cells of a valid save-state are below 0x2000. -/
theorem ram_lt_of_valid {cfg : Config} {saved : SaveState} (h : saved.valid cfg = true) :
    ∀ cell ∈ saved.ram, cell.1 < 0x2000 :=
  fun cell hc => ramKey_lt ((SaveState.valid_iff.1 h).2 cell hc)

/-- The saved RAM cells with the listed cartridge bytes of a machine that lists the same are the saved memory: both are canonical
and answer alike at every key. -/
theorem ramPart_append_cartPart_eq {s t : State} (hs : s.wf = true) (ht : t.wf = true)
    (hbits : t.cfg.ramBits = s.cfg.ramBits) (hcart : ∀ k, 0x4020 ≤ k → Memory.lookup t.mem k = Memory.lookup s.mem k) :
    s.mem.ramPart ++ t.mem.cartPart = s.mem := by
  have hrestored := State.wf_deserialize s.serialize ht
  rw [deserialize_of_valid (serialize_valid hs hbits), State.wf_iff] at hrestored
  refine Memory.ext_of_wfFrom hrestored.1 ((State.wf_iff s).1 hs).1 fun k => ?_
  by_cases hram : k < 0x2000
  · rw [Memory.lookup_append_cartPart_of_lt _ _ hram, Memory.lookup_ramPart s.mem hram]
  · rw [Memory.lookup_append_cartPart_of_le (fun _ => Memory.lt_of_mem_ramPart) _ (by omega)]
    by_cases hdev : k < 0x4020
    · rw [lookup_device_of_wf ht (by omega) hdev, lookup_device_of_wf hs (by omega) hdev]
    · exact hcart k (by omega)

/-- Deserializing what serialize took gives the saved state, under the parameters of the machine that takes it (R175, R176). -/
theorem deserialize_serialize {s t : State} (hs : s.wf = true) (ht : t.wf = true)
    (hbits : t.cfg.ramBits = s.cfg.ramBits) (hcart : ∀ k, 0x4020 ≤ k → Memory.lookup t.mem k = Memory.lookup s.mem k) :
    t.deserialize s.serialize = { s with cfg := t.cfg } := by
  rw [deserialize_of_valid (serialize_valid hs hbits), State.serialize_ram, ramPart_append_cartPart_eq hs ht hbits hcart]
  rfl

/-- What RAM answers depends on memory, power-on and RAM size alone (R45). -/
theorem peek_congr_of_inRam {s t : State} {a : Word} (hm : t.mem = s.mem) (hb : t.boot = s.boot)
    (hbits : t.cfg.ramBits = s.cfg.ramBits) (ha : inRam a) : t.peek a = s.peek a := by
  rw [peek_of_inRam t ha, peek_of_inRam s ha, hm, hb, hbits]

/-- Settles O27: the restored memory is the saved RAM cells and the machine's own listed cartridge bytes. -/
theorem deserializeRestoresTheSavedState : Obligations.DeserializeRestoresTheSavedState := by
  refine ⟨fun s t hs ht hbits hcart => ?_, fun t saved => ⟨fun hv => ?_, deserialize_of_corrupt, fun k hk => ?_⟩⟩
  · have hrestored := deserialize_serialize hs ht hbits hcart
    refine ⟨hrestored, fun a ha => ?_⟩
    rw [hrestored]
    exact peek_congr_of_inRam rfl rfl hbits ha
  · rw [deserialize_of_valid hv]
    simp only [State.serialize, Memory.ramPart_append_cartPart (ram_lt_of_valid hv)]
  · obtain ⟨hv, he⟩ | ⟨-, he⟩ := deserialize_cases t saved
    · rw [he]
      exact Memory.lookup_append_cartPart_of_le (ram_lt_of_valid hv) t.mem (by omega)
    · rw [he]

/-- Settles O26: each action is its one update; deserialize undoes serialize by O27's restore into the same machine. -/
theorem hostActionsChangeOnlyTheirPart : Obligations.HostActionsChangeOnlyTheirPart := by
  intro s saved n
  exact ⟨rfl, rfl, rfl, rfl, rfl, rfl, rfl, rfl, rfl, fun hs => deserialize_serialize hs hs rfl fun _ _ => rfl⟩

end Sys2Proof.Machine
end

section
/-! Shifts and rotates of memory (43_incdec_shift.md R125 to R128) and JMP (44_control.md R129, 20_memory.md R78). -/

namespace Sys2Proof.Machine

/-- The shift or rotate `f` makes of the byte `v` the byte `r`, modulo 256, and shifts out the bit `c`. -/
structure ShiftsTo (f : Byte → Shifted) (v : Byte) (r : Nat) (c : Bool) : Prop where
  /-- The result. -/
  value : (f v).value = BitVec.ofNat 8 r
  /-- The new C. -/
  carry : (f v).carry = c

/-- Bit 7 of a byte, as a bound. -/
theorem getLsbD_seven_eq_decide (v : Byte) : v.getLsbD 7 = decide (128 ≤ v.toNat) := by
  have := v.isLt
  rw [getLsbD_eq_decide, decide_eq_decide]; omega

/-- Bit 0 of a byte, as a remainder. -/
theorem getLsbD_zero_eq_decide (v : Byte) : v.getLsbD 0 = decide (v.toNat % 2 = 1) := by
  rw [getLsbD_eq_decide, Nat.pow_zero, Nat.div_one]

/-- ASL doubles the byte; bit 7 goes out (R125). -/
theorem shiftLeft_shiftsTo (v : Byte) : ShiftsTo shiftLeft v (2 * v.toNat) (decide (128 ≤ v.toNat)) where
  value := by
    apply BitVec.eq_of_toNat_eq
    simp [shiftLeft, Nat.shiftLeft_eq, Nat.mul_comm]
  carry := getLsbD_seven_eq_decide v

/-- LSR halves the byte; bit 0 goes out (R126). -/
theorem shiftRight_shiftsTo (v : Byte) : ShiftsTo shiftRight v (v.toNat / 2) (decide (v.toNat % 2 = 1)) where
  value := by
    apply BitVec.eq_of_toNat_eq
    have := v.isLt
    simp [shiftRight, Nat.shiftRight_eq_div_pow]
    omega
  carry := getLsbD_zero_eq_decide v

/-- ROL doubles the byte and adds the old C; bit 7 goes out (R127). -/
theorem rotateLeft_shiftsTo (cIn : Bool) (v : Byte) :
    ShiftsTo (rotateLeft cIn) v (2 * v.toNat + cIn.toNat) (decide (128 ≤ v.toNat)) where
  value := by
    have hbyte : ∀ (c : Bool) (w : Byte), (rotateLeft c w).value = BitVec.ofNat 8 (2 * w.toNat + c.toNat) := by decide
    exact hbyte cIn v
  carry := getLsbD_seven_eq_decide v

/-- ROR halves the byte and adds the old C as bit 7; bit 0 goes out (R128). -/
theorem rotateRight_shiftsTo (cIn : Bool) (v : Byte) :
    ShiftsTo (rotateRight cIn) v (v.toNat / 2 + 128 * cIn.toNat) (decide (v.toNat % 2 = 1)) where
  value := by
    have hbyte : ∀ (c : Bool) (w : Byte), (rotateRight c w).value = BitVec.ofNat 8 (w.toNat / 2 + 128 * c.toNat) := by
      decide
    exact hbyte cIn v
  carry := getLsbD_zero_eq_decide v

/-- The byte of a number is 0 when the number is, modulo 256. -/
theorem ofNat_beq_zero (r : Nat) : (BitVec.ofNat 8 r == 0#8) = decide (r % 256 = 0) := by
  rw [Bool.eq_iff_iff, beq_iff_eq, decide_eq_true_eq, ← BitVec.toNat_inj, BitVec.toNat_ofNat]
  rfl

/-- `setNZ` of the byte of a number: N and Z by the number modulo 256 (R18). -/
theorem setNZ_ofNat (s : State) (r : Nat) :
    s.setNZ (BitVec.ofNat 8 r) = { s with n := decide (128 ≤ r % 256), z := decide (r % 256 = 0) } := by
  have hn : (BitVec.ofNat 8 r).getLsbD 7 = decide (128 ≤ r % 256) := getLsbD_seven_eq_decide _
  rw [State.setNZ, hn, ofNat_beq_zero]

/-- A shift of memory (R125 to R128): its next state, by the arithmetic of the byte it finds. -/
theorem shiftInstr_mem_stores {i : Instr} {m : MemMode} {f : Byte → Shifted} {s : State} {r : Nat} {c : Bool}
    (hf : ShiftsTo f (s.peek (s.locate m).ea) r c) (hlen : i.length = 1 + m.operandBytes) :
    let ea := (s.locate m).ea
    ∃ t, shiftInstr i (.mem m) f s = .next t ∧ StoresExactly s t ea (BitVec.ofNat 8 r) ∧
      t =
        { s with
          c := c, n := decide (128 ≤ r % 256), z := decide (r % 256 = 0)
          pc := s.pc + BitVec.ofNat 16 (1 + m.operandBytes), cyc := baseCycles s.cfg i, mem := t.mem
          events := s.events ++ (s.pointerReads m ++ [.read ea, .write ea (BitVec.ofNat 8 r)])
          history := ((s.noteRead ea).write8 ea (BitVec.ofNat 8 r)).history } := by
  intro ea
  refine ⟨_, shiftInstr_mem_eq i m f s, ?_, ?_⟩
  · rw [hf.value]
    exact storesExactly_of_write8 rfl rfl rfl rfl (.inr rfl)
  · simp only [State.modifyAccesses, hf.value, hf.carry, setNZ_ofNat, State.retire, hlen]
    rfl

/-- Settles O51: the four are `shiftInstr_mem_stores` with their own arithmetic. -/
theorem shiftsOfMemory : Obligations.ShiftsOfMemory := by
  refine ⟨fun _ _ => ⟨rfl, rfl, rfl, rfl⟩, fun _ _ => ⟨rfl, rfl, rfl, rfl⟩, fun _ _ => ⟨rfl, rfl, rfl, rfl⟩,
    fun _ _ => ⟨rfl, rfl, rfl, rfl⟩, fun s m => ⟨?_, ?_, ?_, ?_⟩⟩
  · exact shiftInstr_mem_stores (shiftLeft_shiftsTo _) rfl
  · exact shiftInstr_mem_stores (shiftRight_shiftsTo _) rfl
  · exact shiftInstr_mem_stores (rotateLeft_shiftsTo s.c _) rfl
  · exact shiftInstr_mem_stores (rotateRight_shiftsTo s.c _) rfl

/-- The address after a pointer on the pointer's own page, by its number (R78). -/
theorem nextOnPage_eq_ofNat (a : Word) :
    mkWord (page a) (loByte a + 1#8) = BitVec.ofNat 16 (a.toNat / 256 * 256 + (a.toNat + 1) % 256) := by
  have hlt := a.isLt
  have hlow : (loByte a + 1#8).toNat = (a.toNat + 1) % 256 := by
    simp [loByte, BitVec.extractLsb'_toNat, BitVec.toNat_add]
  apply BitVec.eq_of_toNat_eq
  rw [mkWord, BitVec.toNat_append, ← Nat.shiftLeft_add_eq_or_of_lt (BitVec.isLt _), Nat.shiftLeft_eq, toNat_page,
    hlow, BitVec.toNat_ofNat]
  omega

/-- Settles O52: two reads, the second on the pointer's page, and no write. -/
theorem jumpKeepsThePointerPage : Obligations.JumpKeepsThePointerPage := by
  refine ⟨fun a => ⟨rfl, rfl⟩, fun s a => ?_⟩
  intro high
  have hhigh : mkWord (page a) (loByte a + 1#8) = high := nextOnPage_eq_ofNat a
  refine ⟨rfl, _, rfl, keepsPlainBytes_of_eq rfl rfl rfl, ?_⟩
  simp only [State.jumpTarget, State.read8, hhigh, State.noteRead_events, List.append_assoc]
  rfl

end Sys2Proof.Machine
end

section
/-! The decoder and the encoder (30_encoding.md R80 to R91), the step that runs what they say (60_exceptions.md R153), and the
instructions that do nothing (45_flags_misc.md R150, R151). -/

namespace Sys2Proof.Machine

/-! The rows of the table: a term is one when it has an opcode byte, and then it is what the decoder makes of that byte and the
term's operand bytes. -/

/-- The rows of the table are the terms that have an opcode byte (R88, R89). -/
theorem isSome_opcode (i : Instr) : i.opcode.isSome = i.wellFormed := by
  cases i
  case lda o | ldx o | ldy o | adc o | sbc o | and o | ora o | eor o | cmp o | cpx o | cpy o =>
    cases o with
    | imm n => rfl
    | mem m => cases m <;> rfl
  case sta m | stx m | sty m | bit m | inc m | dec m => cases m <;> rfl
  case asl o | lsr o | rol o | ror o =>
    cases o with
    | acc => rfl
    | mem m => cases m <;> rfl
  case jmp t => cases t <;> rfl
  case invalid op =>
    simp only [Instr.opcode, Instr.wellFormed]
    cases invalidOpcodes.contains op <;> rfl
  all_goals rfl

/-- A well-formed term has an opcode byte. -/
theorem exists_opcode {i : Instr} (h : i.WellFormed) : ∃ op, i.opcode = some op :=
  Option.isSome_iff_exists.1 ((isSome_opcode i).trans h)

/-- The opcode byte of an invalid opcode's dummy kind is that opcode (R89). -/
theorem opcode_invalid {op : Byte} (h : op ∈ invalidOpcodes) : (Instr.invalid op).opcode = some op :=
  if_pos (List.contains_iff_mem.2 h)

/-- A row of the table is what the decoder makes of its opcode byte and its operand bytes (R83, R85, R88): a word is its two bytes
again. -/
theorem decodeOp_bytes {i : Instr} {op : Byte} (h : i.opcode = some op) :
    decodeOp op (i.bytes.getD 0 0#8) (i.bytes.getD 1 0#8) = i := by
  cases i
  case' lda o | ldx o | ldy o | adc o | sbc o | and o | ora o | eor o | cmp o | cpx o | cpy o => cases o
  case' asl o | lsr o | rol o | ror o => cases o
  case' jmp t => cases t
  case sta m | stx m | sty m | bit m | inc m | dec m | lda.mem m | ldx.mem m | ldy.mem m | adc.mem m | sbc.mem m |
      and.mem m | ora.mem m | eor.mem m | cmp.mem m | cpx.mem m | cpy.mem m | asl.mem m | lsr.mem m | rol.mem m |
      ror.mem m =>
    cases m with
    | zp n | zpx n | zpy n | indx n | indy n => cases h <;> rfl
    | abs a | absx a | absy a => cases h <;> (conv_rhs => rw [← bytes_append a]) <;> rfl
  case jmp.abs a | jmp.ind a | jsr a => cases h; conv_rhs => { rw [← bytes_append a] }; rfl
  case invalid v =>
    have hdummy : ∀ v ∈ invalidOpcodes, decodeOp v 0#8 0#8 = .invalid v := List.map_inj_left.1 rfl
    obtain ⟨hv, hop⟩ := Option.ite_none_right_eq_some.1 h
    cases hop
    exact hdummy _ (List.contains_iff_mem.1 hv)
  all_goals cases h; rfl

/-- The operand bytes of a decoded instruction are the first bytes after the opcode byte, as many as it asks for (R83, R86). -/
theorem bytes_decodeOp (op b1 b2 : Byte) : (decodeOp op b1 b2).bytes = [b1, b2].take (operandCount op) := by
  have hword : wordBytes (b2 ++ b1) = [b1, b2] := by simp [wordBytes]
  unfold operandCount decodeOp
  split <;>
    simp [Instr.bytes, Operand.bytes, ShiftOperand.bytes, MemMode.bytes, Instr.operandBytes, Operand.operandBytes,
      ShiftOperand.operandBytes, MemMode.operandBytes, hword]

/-- Operand bytes beyond those that the opcode asks for are not looked at (R86). -/
theorem decodeOp_take (op b1 b2 : Byte) :
    decodeOp op (([b1, b2].take (operandCount op)).getD 0 0#8) (([b1, b2].take (operandCount op)).getD 1 0#8) =
      decodeOp op b1 b2 := by
  rw [← bytes_decodeOp]
  exact decodeOp_bytes (opcode_decodeOp op b1 b2)

/-- An opcode asks for at most two operand bytes (R80). -/
theorem operandCount_le_two (op : Byte) : operandCount op ≤ 2 := by
  revert op; decide

/-! Decoding and encoding. -/

/-- What the decoder makes of an opcode byte is a row of the table (R90). -/
theorem wellFormed_decodeOp (op b1 b2 : Byte) : (decodeOp op b1 b2).WellFormed := by
  rw [Instr.WellFormed, ← isSome_opcode, opcode_decodeOp]; rfl

/-- A decoded instruction is encoded as the bytes it was decoded from (R83, R90). -/
theorem encode_decodeOp (op b1 b2 : Byte) :
    encode (decodeOp op b1 b2) = [op, b1, b2].take (1 + operandCount op) := by
  rw [encode, opcode_decodeOp, bytes_decodeOp, Nat.add_comm, List.take_succ_cons]

/-- Decoding takes the opcode byte and the operand bytes it asks for, and leaves the rest (R80, R86). -/
theorem decode_take_append (op b1 b2 : Byte) (rest : List Byte) :
    decode ([op, b1, b2].take (1 + operandCount op) ++ rest) = .ok (decodeOp op b1 b2, rest) := by
  have hle := operandCount_le_two op
  rw [← decodeOp_take op b1 b2]
  match hcount : operandCount op with
  | 0 => exact decode_of_count_zero hcount rest
  | 1 => exact decode_of_count_one hcount b1 rest
  | 2 => exact decode_of_count_two hcount b1 b2 rest
  | _ + 3 => omega

/-- Settles O1: a well-formed term is what the decoder makes of its opcode and operand bytes, and the decoder takes just these. -/
theorem decodeOfEncodeGivesTheInstructionBack : Obligations.DecodeOfEncodeGivesTheInstructionBack := by
  intro i rest hwf
  obtain ⟨op, hop⟩ := exists_opcode hwf
  rw [← decodeOp_bytes hop, encode_decodeOp, decode_take_append]

/-- Settles O2: the decoder gives rows of the table, and each is encoded as the bytes it was decoded from. -/
theorem everyOpcodeValueReencodes : Obligations.EveryOpcodeValueReencodes :=
  fun op b1 b2 => ⟨wellFormed_decodeOp op b1 b2, encode_decodeOp op b1 b2⟩

/-- An invalid opcode decodes to its dummy kind, whatever bytes follow, and asks for no operand byte (R86, R89). -/
theorem decodeOp_of_invalid {op : Byte} (h : op ∈ invalidOpcodes) (b1 b2 : Byte) :
    decodeOp op b1 b2 = .invalid op ∧ operandCount op = 0 := by
  have hdummy : decodeOp op 0#8 0#8 = .invalid op := decodeOp_bytes (opcode_invalid h)
  have hcount : operandCount op = 0 := by rw [operandCount, hdummy]; rfl
  have htake := decodeOp_take op b1 b2
  rw [hcount] at htake
  exact ⟨htake.symm.trans hdummy, hcount⟩

/-- Settles O3: the operand bytes do not change the operand count, and the dummy kind has none. -/
theorem opcodeByteAloneFixesTheLength : Obligations.OpcodeByteAloneFixesTheLength := by
  intro op b1 b2
  exact ⟨congrArg (1 + ·) (decodeOp_operands_irrelevant op b1 b2).2, operandCount_le_two op,
    fun h => (decodeOp_of_invalid h b1 b2).symm⟩

/-- Settles O4: eight fixed words, evaluated. -/
theorem sampleWordsDecode : Obligations.SampleWordsDecode := by
  unfold Obligations.SampleWordsDecode
  decide

/-- Settles O5: fixed rows, evaluated in four parts, each well within the recursion that `decide` has. -/
theorem officialRowsHaveTheirLengthAndCycles : Obligations.OfficialRowsHaveTheirLengthAndCycles := by
  refine ⟨rfl, ?_⟩
  rw [← List.take_append_drop 36 officialRows1, ← List.take_append_drop 40 officialRows2, List.forall_mem_append,
    List.forall_mem_append, List.forall_mem_append]
  exact ⟨⟨by decide, by decide⟩, by decide, by decide⟩

/-! The step. -/

/-- The state after the reads of a fetch that takes `n` operand bytes (R153). -/
def State.afterFetch (s : State) : Nat → State
  | 0 => s.noteRead s.pc
  | 1 => (s.noteRead s.pc).noteRead (s.pc + 1#16)
  | _ => ((s.noteRead s.pc).noteRead (s.pc + 1#16)).noteRead (s.pc + 2#16)

/-- A fetch decodes the byte at PC and the two after it, and makes only the reads that the opcode asks for (R86, R153). -/
theorem fetch_eq (s : State) :
    let op := s.peek s.pc
    let b1 := (s.noteRead s.pc).peek (s.pc + 1#16)
    let b2 := ((s.noteRead s.pc).noteRead (s.pc + 1#16)).peek (s.pc + 2#16)
    s.fetch = (decodeOp op b1 b2, s.afterFetch (operandCount op)) := by
  intro op b1 b2
  rw [← decodeOp_take op b1 b2]
  simp only [State.fetch, State.read8, op]
  generalize operandCount (s.peek s.pc) = count
  match count with
  | 0 => rfl
  | 1 => rfl
  | _ + 2 => rfl

/-- What three bytes decode to: the row of the first one, with the others as operand bytes (R80, R86). -/
theorem eq_decodeOp_of_decode {op b1 b2 : Byte} {i : Instr} {rest : List Byte} (h : decode [op, b1, b2] = .ok (i, rest)) :
    i = decodeOp op b1 b2 := by
  rw [← List.take_append_drop (1 + operandCount op) [op, b1, b2], decode_take_append] at h
  cases h; rfl

/-- Settles O22: the bytes the fetch may read decode to the fetched instruction, whose operand count is the opcode's. -/
theorem stepRunsTheDecodedInstruction : Obligations.StepRunsTheDecodedInstruction := by
  intro s i rest s0 s1 s2 s3 fetched ha hdecode
  have hi := eq_decodeOp_of_decode hdecode
  have hfetch : s0.fetch = (i, fetched) := by
    rw [fetch_eq s0, ← (decodeOp_operands_irrelevant _ _ _).2, ← hi]
    rfl
  obtain ⟨t, ht⟩ := exec_completes i fetched
  refine ⟨hi ▸ wellFormed_decodeOp _ _ _, ?_⟩
  rw [ht]
  exact step_of_exec ha (by rw [hfetch]; exact ht)

/-! NOP and the invalid opcodes. -/

/-- An opcode that no row of the parameters lists has the defaults of `INVALID_LEN` and `INVALID_CYCLES` (R151). -/
theorem invalid_defaults {cfg : Config} {op : Byte} (h : ∀ r ∈ cfg.invalidRows, r.op ≠ op) :
    invalidLen cfg op = 1 ∧ invalidCycles cfg op = 2 := by
  have hnone : cfg.invalidRows.find? (fun r => r.op == op) = none := by simpa using h
  simp only [invalidLen, invalidCycles, hnone, and_self]

/-- The first row of the parameters that lists an opcode is its `INVALID_LEN` and `INVALID_CYCLES` (R151; log entry 8). -/
theorem invalid_of_first_row {cfg : Config} {r : InvalidRow} {before after : List InvalidRow}
    (hrows : cfg.invalidRows = before ++ r :: after) (h : ∀ q ∈ before, q.op ≠ r.op) :
    invalidLen cfg r.op = r.len.val ∧ invalidCycles cfg r.op = r.cycles := by
  have hfirst : cfg.invalidRows.find? (fun q => q.op == r.op) = some r :=
    List.find?_eq_some_iff_append.2 ⟨beq_self_eq_true r.op, before, after, hrows, by simpa using h⟩
  simp only [invalidLen, invalidCycles, hfirst, and_self]

/-- Settles O60: an invalid opcode moves PC and sets `cyc`, by its row or the defaults. -/
theorem nopAndInvalidChangeNothingElse : Obligations.NopAndInvalidChangeNothingElse := by
  refine ⟨rfl, fun op hop => ?_, fun s op => ⟨rfl, _, rfl, keepsEveryByte_of_eq rfl rfl rfl rfl rfl, rfl, ?_, ?_⟩⟩
  · rw [encode, opcode_invalid hop]; rfl
  · intro hrows
    obtain ⟨hlen, hcycles⟩ := invalid_defaults hrows
    simp only [baseCycles, hlen, hcycles, and_self]
  · rintro r before after hrows rfl hbefore
    obtain ⟨hlen, hcycles⟩ := invalid_of_first_row hrows hbefore
    simp only [baseCycles, hlen, hcycles, and_self]

end Sys2Proof.Machine
end

section
/-! Loads, stores and register transfers (40_load_store_transfer.md R94 to R105). -/

namespace Sys2Proof.Machine

/-- `setNZ` of a byte: N and Z by its number (R18). -/
theorem setNZ_eq (s : State) (v : Byte) :
    s.setNZ v = { s with n := decide (128 ≤ v.toNat), z := decide (v.toNat = 0) } := by
  have h := setNZ_ofNat s v.toNat
  rwa [BitVec.ofNat_toNat, BitVec.setWidth_eq, Nat.mod_eq_of_lt v.isLt] at h

/-- The default end of an instruction that sets N and Z of `v` (R18, R153). -/
theorem retire_setNZ (s : State) (v : Byte) (i : Instr) (penalty : Nat) :
    (s.setNZ v).retire i penalty =
      { s with
        n := decide (128 ≤ v.toNat), z := decide (v.toNat = 0)
        pc := s.pc + BitVec.ofNat 16 i.length, cyc := baseCycles s.cfg i + penalty } := by
  rw [setNZ_eq]; rfl

/-- A load, where `put` is the write of its register: its next state and its frame, when `put` leaves memory, power-on and
parameters alone (R94 to R96). -/
theorem readInstr_setNZ_loads {put : State → Byte → State} (i : Instr) (o : Operand) (s : State)
    (hput : ∀ u m, (put u m).mem = u.mem ∧ (put u m).boot = u.boot ∧ (put u m).cfg = u.cfg) :
    let m := s.operandValue o
    let u := put { s with events := s.events ++ s.operandReads o, history := s.operandHistory o } m
    ∃ t, readInstr i o (fun u m => (put u m).setNZ m) s = .next t ∧ KeepsPlainBytes s t ∧
      t =
        { u with
          n := decide (128 ≤ m.toNat), z := decide (m.toNat = 0)
          pc := u.pc + BitVec.ofNat 16 i.length, cyc := baseCycles u.cfg i + (s.operandCrosses o).toNat } := by
  intro m u
  obtain ⟨hmem, hboot, hcfg⟩ : u.mem = s.mem ∧ u.boot = s.boot ∧ u.cfg = s.cfg := hput _ m
  exact ⟨_, readInstr_eq i o _ s, keepsPlainBytes_of_eq hmem hboot hcfg, retire_setNZ u m i _⟩

/-- Settles O38: the three are `readInstr_setNZ_loads` with their own register. -/
theorem loadsSetTheRegisterAndNZ : Obligations.LoadsSetTheRegisterAndNZ := by
  refine ⟨fun _ _ => ⟨rfl, rfl, rfl, rfl, rfl, rfl, rfl, rfl⟩,
    fun _ _ => ⟨rfl, rfl, rfl, rfl, rfl, rfl, rfl, rfl, rfl, rfl⟩, fun s o => ⟨?_, ?_, ?_⟩⟩
  · exact readInstr_setNZ_loads (put := fun u m => { u with a := m }) (.lda o) o s fun _ _ => ⟨rfl, rfl, rfl⟩
  · exact readInstr_setNZ_loads (put := fun u m => { u with x := m }) (.ldx o) o s fun _ _ => ⟨rfl, rfl, rfl⟩
  · exact readInstr_setNZ_loads (put := fun u m => { u with y := m }) (.ldy o) o s fun _ _ => ⟨rfl, rfl, rfl⟩

/-- A storing instruction: its next state, and the one byte it stores (R97 to R99). -/
theorem storeInstr_stores (i : Instr) (m : MemMode) (v : Byte) (s : State) :
    let ea := (s.locate m).ea
    ∃ t, storeInstr i m v s = .next t ∧ StoresExactly s t ea v ∧
      t =
        { s with
          pc := s.pc + BitVec.ofNat 16 i.length, cyc := baseCycles s.cfg i, mem := t.mem
          events := s.events ++ s.storeAccesses m v, history := (s.write8 ea v).history } :=
  ⟨_, storeInstr_eq i m v s, storesExactly_of_write8 rfl rfl rfl rfl (.inl rfl), rfl⟩

/-- Settles O39: the three are `storeInstr_stores` with their own register. -/
theorem storesWriteTheRegister : Obligations.StoresWriteTheRegister := by
  refine ⟨fun _ _ => ⟨rfl, rfl, rfl, rfl, rfl, rfl, rfl, rfl, rfl, rfl, rfl, rfl, rfl⟩, fun s m => ⟨?_, ?_, ?_⟩⟩
  · exact storeInstr_stores (.sta m) m s.a s
  · exact storeInstr_stores (.stx m) m s.x s
  · exact storeInstr_stores (.sty m) m s.y s

/-- Settles O40: `retire_setNZ` is the end of the five that set N and Z, and none touches what a read depends on. -/
theorem transfersCopyTheRegister : Obligations.TransfersCopyTheRegister := by
  refine ⟨rfl, rfl, rfl, rfl, rfl, rfl, fun s => ?_⟩
  intro nz
  refine ⟨?_, ?_, ?_, ?_, ?_, rfl, ?_⟩
  · exact congrArg _ (retire_setNZ { s with x := s.a } s.a .tax 0)
  · exact congrArg _ (retire_setNZ { s with y := s.a } s.a .tay 0)
  · exact congrArg _ (retire_setNZ { s with a := s.x } s.x .txa 0)
  · exact congrArg _ (retire_setNZ { s with a := s.y } s.y .tya 0)
  · exact congrArg _ (retire_setNZ { s with x := s.sp } s.sp .tsx 0)
  · intro i hi t ht
    fin_cases hi <;> (cases ht; exact keepsEveryByte_of_eq rfl rfl rfl rfl rfl)

end Sys2Proof.Machine
end

section
/-! The stack instructions (41_stack.md R106 to R109). -/

namespace Sys2Proof.Machine

/-- A pushing instruction: its next state, and the one byte it stores (R106, R107). -/
theorem retire_push8_stores (i : Instr) (v : Byte) (s : State) :
    let t := (s.push8 v).retire i 0
    StoresExactly s t (stackAddr s.sp) v ∧
      t =
        { s with
          sp := s.sp - 1#8, pc := s.pc + BitVec.ofNat 16 i.length, cyc := baseCycles s.cfg i, mem := t.mem
          events := s.events ++ [.write (stackAddr s.sp) v] } := by
  refine ⟨storesExactly_push8 s v, ?_⟩
  rw [push8_eq]; rfl

/-- Settles O41: both are `retire_push8_stores`, and the byte PHP packs is the sum of its bits. -/
theorem pushInstructionsStoreOnTheStack : Obligations.PushInstructionsStoreOnTheStack := by
  refine ⟨rfl, rfl, fun s => ⟨⟨_, rfl, retire_push8_stores .pha s.a s⟩, _, rfl, ?_⟩⟩
  rw [packStatus_eq_statusByte]
  exact retire_push8_stores .php (s.statusByte true) s

/-- PLA in one state: `pull8_eq`, then N and Z of the pulled byte (R108). -/
theorem exec_pla_eq (s : State) :
    let p := s.peek (stackAddr (s.sp + 1#8))
    exec .pla s = .next
      { s with
        a := p, n := decide (128 ≤ p.toNat), z := decide (p.toNat = 0), sp := s.sp + 1#8, pc := s.pc + 1#16, cyc := 4
        events := s.events ++ [.read (stackAddr (s.sp + 1#8))] } := by
  intro p
  have hexec : exec .pla s = .next ((State.setNZ { s.pull8.2 with a := s.pull8.1 } s.pull8.1).retire .pla 0) := rfl
  rw [hexec, retire_setNZ, pull8_eq]; rfl

/-- PLP in one state: `pull8_eq`, then the flags of the pulled byte (R109). -/
theorem exec_plp_eq (s : State) :
    let p := s.peek (stackAddr (s.sp + 1#8))
    exec .plp s = .next
      { s with
        n := p.getLsbD 7, v := p.getLsbD 6, b := p.getLsbD 4, d := p.getLsbD 3, i := p.getLsbD 2, z := p.getLsbD 1
        c := p.getLsbD 0, sp := s.sp + 1#8, pc := s.pc + 1#16, cyc := 4
        events := s.events ++ [.read (stackAddr (s.sp + 1#8))] } := by
  intro p
  have hexec : exec .plp s = .next ((s.pull8.2.unpackStatus s.pull8.1).retire .plp 0) := rfl
  rw [hexec, pull8_eq]; rfl

/-- Settles O42: the two next states touch nothing that a read depends on. -/
theorem pullInstructionsReadTheStack : Obligations.PullInstructionsReadTheStack := by
  refine ⟨rfl, rfl, fun s => ⟨⟨_, exec_pla_eq s, ?_, rfl⟩, _, exec_plp_eq s, ?_, rfl⟩⟩
  · exact keepsEveryByte_of_eq rfl rfl rfl rfl rfl
  · exact keepsEveryByte_of_eq rfl rfl rfl rfl rfl

end Sys2Proof.Machine
end

section
/-! Add, subtract, logic and compare (42_arith_logic.md R110 to R118). -/

namespace Sys2Proof.Machine

/-! ADC and SBC: the sum with carry, and the difference as a sum with the complement. -/

/-- Masking a byte with 0x80 tests its bit 7. -/
theorem and_signBit_bne_zero (x : Byte) : ((x &&& 0x80#8) != 0#8) = x.getLsbD 7 := by
  revert x; decide

/-- V of an addition (R110): both operands differ from the result in their sign just when the signed sum is
out of range. -/
theorem signsDiffer_iff_signedOverflow {a m r : Byte} {c : Bool} (hr : r.toNat = (a.toNat + m.toNat + c.toNat) % 256) :
    ((a ^^^ r) &&& (m ^^^ r) &&& 0x80#8 != 0#8) = true ↔
      a.toInt + m.toInt + c.toNat < -128 ∨ 127 < a.toInt + m.toInt + c.toNat := by
  have ha := a.isLt
  have hm := m.isLt
  have hc := c.toNat_le
  rw [and_signBit_bne_zero, BitVec.getLsbD_and, BitVec.getLsbD_xor, BitVec.getLsbD_xor]
  simp only [Bool.and_eq_true, Bool.xor_iff_ne, getLsbD_seven_eq_decide, ne_eq, decide_eq_decide, hr,
    BitVec.toInt_eq_toNat_cond]
  split <;> split <;> omega

/-- ADC: the sum modulo 256, the carry out of it, V as signed overflow, N and Z of it (R110). -/
theorem addWithCarry_spec (s : State) (m : Byte) :
    let t := s.addWithCarry m
    let sum := s.a.toNat + m.toNat + s.c.toNat
    let signed : Int := s.a.toInt + m.toInt + s.c.toNat
    t.a.toNat = sum % 256 ∧ t.c = decide (255 < sum) ∧
      t.v = (((s.a ^^^ t.a) &&& (m ^^^ t.a) &&& 0x80#8) != 0#8) ∧ (t.v = true ↔ signed < -128 ∨ 127 < signed) ∧
      t.n = decide (128 ≤ t.a.toNat) ∧ t.z = decide (t.a.toNat = 0) := by
  intro t sum signed
  have ha : t.a.toNat = sum % 256 := BitVec.toNat_ofNat sum 8
  have hnz : t = { t with n := decide (128 ≤ t.a.toNat), z := decide (t.a.toNat = 0) } := setNZ_eq t t.a
  exact ⟨ha, rfl, rfl, signsDiffer_iff_signedOverflow ha, congrArg (·.n) hnz, congrArg (·.z) hnz⟩

/-- SBC of a byte is ADC of its complement (R111). -/
theorem subWithBorrow_eq_addWithCarry_not (s : State) (m : Byte) : s.subWithBorrow m = s.addWithCarry (~~~m) := by
  have hnot : m ^^^ 0xFF#8 = ~~~m := BitVec.xor_allOnes
  have hsigns : ∀ a r : Byte, (a ^^^ m) &&& (a ^^^ r) &&& 0x80#8 = (a ^^^ r) &&& (~~~m ^^^ r) &&& 0x80#8 := by
    intro a r
    ext k hk
    simp only [BitVec.getElem_and, BitVec.getElem_xor, BitVec.getElem_not]
    cases a[k] <;> cases m[k] <;> cases r[k] <;> rfl
  simp only [State.subWithBorrow, State.addWithCarry, hnot, hsigns]

/-- SBC: the difference modulo 256, no borrow out of it, V as signed overflow, N and Z of it (R111). -/
theorem subWithBorrow_spec (s : State) (m : Byte) :
    let t := s.subWithBorrow m
    let borrow := 1 - s.c.toNat
    let signed : Int := s.a.toInt - m.toInt - borrow
    t.a.toNat = (s.a.toNat + 256 - m.toNat - borrow) % 256 ∧ t.c = decide (m.toNat + borrow ≤ s.a.toNat) ∧
      t.v = (((s.a ^^^ m) &&& (s.a ^^^ t.a) &&& 0x80#8) != 0#8) ∧ (t.v = true ↔ signed < -128 ∨ 127 < signed) ∧
      t.n = decide (128 ≤ t.a.toNat) ∧ t.z = decide (t.a.toNat = 0) := by
  intro t borrow signed
  obtain ⟨ha, hc, -, hv, hn, hz⟩ := addWithCarry_spec s (~~~m)
  have hm := m.isLt
  have hcarry := s.c.toNat_le
  have hunsigned : s.a.toNat + (~~~m).toNat + s.c.toNat = s.a.toNat + 256 - m.toNat - borrow := by
    rw [BitVec.toNat_not]; omega
  have hsigned : s.a.toInt + (~~~m).toInt + s.c.toNat = signed := by
    simp only [signed, borrow, BitVec.toInt_eq_toNat_cond, BitVec.toNat_not]; split <;> split <;> omega
  rw [← subWithBorrow_eq_addWithCarry_not, hunsigned] at ha hc
  rw [← subWithBorrow_eq_addWithCarry_not, hsigned] at hv
  rw [← subWithBorrow_eq_addWithCarry_not] at hn hz
  refine ⟨ha, hc.trans (decide_eq_decide.2 ?_), rfl, hv, hn, hz⟩
  omega

/-- Settles O43: `addWithCarry_spec`, of the operand that the mode gives. -/
theorem adcAddsWithCarry : Obligations.AdcAddsWithCarry := by
  refine ⟨fun _ _ => ⟨rfl, rfl, rfl, rfl, rfl, rfl, rfl, rfl⟩, fun s o => ?_⟩
  exact ⟨_, readInstr_eq (.adc o) o _ s, keepsPlainBytes_of_eq rfl rfl rfl, addWithCarry_spec s _, rfl⟩

/-- Settles O44: `subWithBorrow_spec`, of the operand that the mode gives. -/
theorem sbcSubtractsWithBorrow : Obligations.SbcSubtractsWithBorrow := by
  refine ⟨fun _ _ => ⟨rfl, rfl, rfl, rfl, rfl, rfl, rfl, rfl⟩, fun s o => ?_⟩
  exact ⟨_, readInstr_eq (.sbc o) o _ s, keepsPlainBytes_of_eq rfl rfl rfl, subWithBorrow_spec s _, rfl⟩

/-! AND, ORA and EOR. -/

/-- A logic instruction: its next state and its frame, when `op` does `bit` to each pair of bits (R112 to R114). -/
theorem readInstr_logic {op : Byte → Byte → Byte} {bit : Bool → Bool → Bool} (i : Instr) (o : Operand) (s : State)
    (hop : ∀ a m k, (op a m).getLsbD k = bit (a.getLsbD k) (m.getLsbD k)) :
    ∃ t, readInstr i o (fun u m => State.setNZ { u with a := op u.a m } (op u.a m)) s = .next t ∧
      (KeepsPlainBytes s t ∧ t.n = decide (128 ≤ t.a.toNat) ∧ t.z = decide (t.a.toNat = 0) ∧
        t =
          { s with
            a := t.a, n := t.n, z := t.z, pc := s.pc + BitVec.ofNat 16 i.length
            cyc := baseCycles s.cfg i + (s.operandCrosses o).toNat
            events := s.events ++ s.operandReads o, history := s.operandHistory o }) ∧
      ∀ k, t.a.getLsbD k = bit (s.a.getLsbD k) ((s.operandValue o).getLsbD k) := by
  refine ⟨_, (readInstr_eq i o _ s).trans (congrArg _ (retire_setNZ _ _ i _)), ⟨?_, rfl, rfl, rfl⟩, ?_⟩
  · exact keepsPlainBytes_of_eq rfl rfl rfl
  · exact hop _ _

/-- Settles O45: the three are `readInstr_logic` with their own operation. -/
theorem logicCombinesBitByBit : Obligations.LogicCombinesBitByBit := by
  refine ⟨fun _ _ => ⟨rfl, rfl, rfl, rfl, rfl, rfl, rfl, rfl⟩, fun _ _ => ⟨rfl, rfl, rfl, rfl, rfl, rfl, rfl, rfl⟩,
    fun _ _ => ⟨rfl, rfl, rfl, rfl, rfl, rfl, rfl, rfl⟩, fun s o => ⟨?_, ?_, ?_⟩⟩
  · exact readInstr_logic (.and o) o s fun _ _ _ => BitVec.getLsbD_and
  · exact readInstr_logic (.ora o) o s fun _ _ _ => BitVec.getLsbD_or
  · exact readInstr_logic (.eor o) o s fun _ _ _ => BitVec.getLsbD_xor

/-! BIT and the comparisons. -/

/-- The modes of BIT, CPX and CPY never cross a page (R66, R70, R73). -/
theorem operandCrosses_of_plainMode (s : State) {o : Operand} (h : o.has MemMode.isPlainMode = true) :
    s.operandCrosses o = false := by
  match o with
  | .imm _ => rfl
  | .mem (.zp _) => rfl
  | .mem (.abs _) => rfl

/-- Settles O46: N and V are bits of the operand, and its mode never crosses a page. -/
theorem bitTestsTheOperand : Obligations.BitTestsTheOperand := by
  refine ⟨fun _ _ => ⟨rfl, rfl⟩, fun s m hwf => ⟨_, readInstr_eq (.bit m) (.mem m) _ s, ?_, ?_⟩⟩
  · exact keepsPlainBytes_of_eq rfl rfl rfl
  · have hcrosses : s.operandCrosses (.mem m) = false := operandCrosses_of_plainMode s hwf
    simp only [State.testBits, hcrosses, getLsbD_eq_decide]
    rfl

/-- A comparison, by the numbers of the two bytes (R116). -/
theorem compareWith_eq (s : State) (r m : Byte) :
    s.compareWith r m =
      { s with
        c := decide (m.toNat ≤ r.toNat), z := decide (r.toNat = m.toNat)
        n := decide (128 ≤ (r.toNat + 256 - m.toNat) % 256) } := by
  have hdiff : (r - m).toNat = (r.toNat + 256 - m.toNat) % 256 := by
    rw [BitVec.toNat_sub]; have := m.isLt; omega
  have heq : (r == m) = decide (r.toNat = m.toNat) := decide_eq_decide.2 BitVec.toNat_inj.symm
  rw [State.compareWith, getLsbD_seven_eq_decide, hdiff, heq]

/-- A comparing instruction of the register `reg`: its next state and its frame (R116 to R118). -/
theorem readInstr_compareWith {reg : State → Byte} (i : Instr) (o : Operand) (s : State) {r : Byte} {penalty : Nat}
    (hreg : ∀ e h, reg { s with events := e, history := h } = r) (hpenalty : (s.operandCrosses o).toNat = penalty) :
    let m := s.operandValue o
    let t :=
      { s with
        c := decide (m.toNat ≤ r.toNat), z := decide (r.toNat = m.toNat)
        n := decide (128 ≤ (r.toNat + 256 - m.toNat) % 256), pc := s.pc + BitVec.ofNat 16 i.length
        cyc := baseCycles s.cfg i + penalty
        events := s.events ++ s.operandReads o, history := s.operandHistory o }
    readInstr i o (fun u m => u.compareWith (reg u) m) s = .next t ∧ KeepsPlainBytes s t := by
  refine ⟨?_, keepsPlainBytes_of_eq rfl rfl rfl⟩
  rw [readInstr_eq, hreg, compareWith_eq, hpenalty]
  rfl

/-- Settles O47: the three are `readInstr_compareWith` with their own register. -/
theorem comparesSetTheCarryOnNoBorrow : Obligations.ComparesSetTheCarryOnNoBorrow := by
  refine ⟨fun _ _ => ⟨rfl, rfl, rfl, rfl, rfl, rfl, rfl, rfl⟩, fun _ _ => ⟨rfl, rfl, rfl, rfl, rfl, rfl⟩,
    fun s o => ⟨?_, fun hwf => ?_, fun hwf => ?_⟩⟩
  · exact readInstr_compareWith (reg := (·.a)) (.cmp o) o s (fun _ _ => rfl) rfl
  · exact readInstr_compareWith (reg := (·.x)) (.cpx o) o s (fun _ _ => rfl)
      (congrArg _ (operandCrosses_of_plainMode s hwf))
  · exact readInstr_compareWith (reg := (·.y)) (.cpy o) o s (fun _ _ => rfl)
      (congrArg _ (operandCrosses_of_plainMode s hwf))

end Sys2Proof.Machine
end

section
/-! Increments, decrements, and shifts and rotates of the accumulator (43_incdec_shift.md R119 to R128). -/

namespace Sys2Proof.Machine

/-- One more than a byte, by its number (R119, R121, R122). -/
theorem add_one_eq_ofNat (v : Byte) : v + 1#8 = BitVec.ofNat 8 (v.toNat + 1) := by
  rw [BitVec.ofNat_add, BitVec.ofNat_toNat, BitVec.setWidth_eq]

/-- One less than a byte, by its number: modulo 256, 255 more (R120, R123, R124). -/
theorem sub_one_eq_ofNat (v : Byte) : v - 1#8 = BitVec.ofNat 8 (v.toNat + 255) := by
  rw [BitVec.ofNat_add, BitVec.ofNat_toNat, BitVec.setWidth_eq]
  exact BitVec.sub_eq_add_neg v 1#8

/-- INC or DEC (R119, R120), making `r` of the byte it finds: its next state, and the one byte it stores. -/
theorem modifyInstr_stores {i : Instr} {m : MemMode} {f : Byte → Byte} {s : State} {r : Byte}
    (hf : f (s.peek (s.locate m).ea) = r) (hlen : i.length = 1 + m.operandBytes) :
    let ea := (s.locate m).ea
    ∃ t, modifyInstr i m f s = .next t ∧ StoresExactly s t ea r ∧
      t =
        { s with
          n := decide (128 ≤ r.toNat), z := decide (r.toNat = 0), pc := s.pc + BitVec.ofNat 16 (1 + m.operandBytes)
          cyc := baseCycles s.cfg i, mem := t.mem
          events := s.events ++ (s.pointerReads m ++ [.read ea, .write ea r])
          history := ((s.noteRead ea).write8 ea r).history } := by
  intro ea
  refine ⟨_, modifyInstr_eq i m f s, ?_, ?_⟩
  · rw [hf]
    exact storesExactly_of_write8 rfl rfl rfl rfl (.inr rfl)
  · simp only [State.modifyAccesses, hf, retire_setNZ, hlen]
    rfl

/-- Settles O48: the two are `modifyInstr_stores` with their own arithmetic. -/
theorem incAndDecModifyMemory : Obligations.IncAndDecModifyMemory := by
  refine ⟨fun _ _ => ⟨rfl, rfl, rfl, rfl⟩, fun _ _ => ⟨rfl, rfl, rfl, rfl⟩, fun s m => ⟨?_, ?_⟩⟩
  · exact modifyInstr_stores (add_one_eq_ofNat _) rfl
  · exact modifyInstr_stores (sub_one_eq_ofNat _) rfl

/-- A shift of the accumulator (R125 to R128): its next state, by the arithmetic of A, and its frame. -/
theorem shiftInstr_acc_writes {i : Instr} {f : Byte → Shifted} {s : State} {r : Nat} {c : Bool}
    (hf : ShiftsTo f s.a r c) (hlen : i.length = 1) (hcyc : baseCycles s.cfg i = 2) :
    ∃ t, shiftInstr i .acc f s = .next t ∧ KeepsEveryByte s t ∧
      t =
        { s with
          a := BitVec.ofNat 8 r, c := c, n := decide (128 ≤ r % 256), z := decide (r % 256 = 0), pc := s.pc + 1#16
          cyc := 2 } := by
  refine ⟨_, rfl, keepsEveryByte_of_eq rfl rfl rfl rfl rfl, ?_⟩
  simp only [hf.value, hf.carry, setNZ_ofNat, State.retire, hlen, hcyc]

/-- Settles O50: the four are `shiftInstr_acc_writes` with their own arithmetic. -/
theorem shiftsOfTheAccumulator : Obligations.ShiftsOfTheAccumulator := by
  refine ⟨rfl, rfl, rfl, rfl, fun s => ⟨?_, ?_, ?_, ?_⟩⟩
  · exact shiftInstr_acc_writes (shiftLeft_shiftsTo s.a) rfl rfl
  · exact shiftInstr_acc_writes (shiftRight_shiftsTo s.a) rfl rfl
  · exact shiftInstr_acc_writes (rotateLeft_shiftsTo s.c s.a) rfl rfl
  · exact shiftInstr_acc_writes (rotateRight_shiftsTo s.c s.a) rfl rfl

/-- Settles O49: `retire_setNZ` is the end of the four, and none touches what a read depends on. -/
theorem indexRegistersCountModulo256 : Obligations.IndexRegistersCountModulo256 := by
  refine ⟨rfl, rfl, rfl, rfl, fun s => ?_⟩
  intro nz up down
  have hup : ∀ v : Byte, v + 1#8 = up v := add_one_eq_ofNat
  have hdown : ∀ v : Byte, v - 1#8 = down v := sub_one_eq_ofNat
  refine ⟨?_, ?_, ?_, ?_, ?_⟩
  · rw [← hup]; exact congrArg _ (retire_setNZ { s with x := s.x + 1#8 } (s.x + 1#8) .inx 0)
  · rw [← hup]; exact congrArg _ (retire_setNZ { s with y := s.y + 1#8 } (s.y + 1#8) .iny 0)
  · rw [← hdown]; exact congrArg _ (retire_setNZ { s with x := s.x - 1#8 } (s.x - 1#8) .dex 0)
  · rw [← hdown]; exact congrArg _ (retire_setNZ { s with y := s.y - 1#8 } (s.y - 1#8) .dey 0)
  · intro i hi t ht
    fin_cases hi <;> (cases ht; exact keepsEveryByte_of_eq rfl rfl rfl rfl rfl)

end Sys2Proof.Machine
end

section
/-! Calls, returns, BRK and branches (44_control.md R130 to R142). -/

namespace Sys2Proof.Machine

/-! Two bytes pushed, and a word made of two bytes. -/

/-- A word made of two bytes, by its number (R12). -/
theorem toNat_mkWord (h l : Byte) : (mkWord h l).toNat = 256 * h.toNat + l.toNat := by
  rw [mkWord, BitVec.toNat_append, ← Nat.shiftLeft_add_eq_or_of_lt l.isLt, Nat.shiftLeft_eq, Nat.mul_comm]

/-- With RAM of two bytes or more, a stack address and the one a push goes on to reach different bytes (R26, R45, R62). -/
theorem route_stackAddr_ne_pred {cfg : Config} (hram : 1 ≤ cfg.ramBits.val) (p : Byte) :
    route cfg (stackAddr p) ≠ route cfg (stackAddr (p - 1#8)) := by
  rw [route_of_lt (stackAddr_lt p), route_of_lt (stackAddr_lt _), toNat_stackAddr, toNat_stackAddr]
  intro heq
  have hdvd : 2 ∣ 2 ^ cfg.ramBits.val := dvd_pow_self 2 (by omega)
  have hparity := congrArg (· % 2) (Route.ram.inj heq)
  simp only [Nat.mod_mod_of_dvd _ hdvd] at hparity
  bv_omega

/-- A two-byte push leaves the low byte at the lower address, whatever the size of RAM (R15, R62). -/
theorem peek_push16_low (s : State) (w : Word) : (s.push16 w).peek (stackAddr (s.sp - 1#8)) = loByte w :=
  peek_push8_self (s.push8 (hiByte w)) (loByte w)

/-- With RAM of two bytes or more, a two-byte push leaves the high byte at the upper address (R15, R62). -/
theorem peek_push16_high {s : State} (w : Word) (hram : 1 ≤ s.cfg.ramBits.val) :
    (s.push16 w).peek (stackAddr s.sp) = hiByte w := by
  have hne : route s.cfg (stackAddr s.sp) ≠ route s.cfg (stackAddr (s.sp - 1#8)) := route_stackAddr_ne_pred hram s.sp
  rw [State.push16, peek_push8_of_ne _ hne, peek_push8_self]

/-- A two-byte push leaves every plain byte but the two it reaches (R62). -/
theorem push16_keepsPlainBytesExcept (s : State) (w : Word) :
    KeepsPlainBytesExcept s (s.push16 w) [stackAddr s.sp, stackAddr (s.sp - 1#8)] := by
  intro a hne _
  have hhigh : route s.cfg a ≠ route s.cfg (stackAddr s.sp) := hne _ (by simp)
  have hlow : route s.cfg a ≠ route s.cfg (stackAddr (s.sp - 1#8)) := hne _ (by simp)
  rw [State.push16, peek_push8_of_ne _ hlow, peek_push8_of_ne _ hhigh]

/-! JSR and RTS. -/

/-- JSR in one state: the return address pushed, PC the target (R130). -/
theorem exec_jsr_eq (s : State) (a : Word) :
    exec (.jsr a) s = .next { s.push16 (s.pc + 2#16) with pc := a, cyc := 6 } := rfl

/-- RTS in one state: `pull16_eq`, and PC one past the pulled word (R131). -/
theorem exec_rts_eq (s : State) :
    exec .rts s = .next
      { s with
        pc := mkWord (s.peek (stackAddr (s.sp + 2#8))) (s.peek (stackAddr (s.sp + 1#8))) + 1#16, sp := s.sp + 2#8, cyc := 6
        events := s.events ++ [.read (stackAddr (s.sp + 1#8)), .read (stackAddr (s.sp + 2#8))] } := by
  simp only [exec, execRts, pull16_eq]
  rfl

/-- Settles O53: JSR is a two-byte push, with its two stacked bytes and its frame, and then PC. -/
theorem jsrPushesTheReturnAddress : Obligations.JsrPushesTheReturnAddress := by
  refine ⟨fun _ => rfl, fun s a => ⟨_, exec_jsr_eq s a, ?_, fun hram => ?_, ?_, ?_⟩⟩
  · exact peek_push16_low s (s.pc + 2#16)
  · exact peek_push16_high (s := s) (s.pc + 2#16) hram
  · exact push16_keepsPlainBytesExcept s (s.pc + 2#16)
  · simp only [push16_eq]

/-- Settles O54: the next state touches nothing that a read depends on, and a word's number is its bytes'. -/
theorem rtsReturnsPastTheStackedAddress : Obligations.RtsReturnsPastTheStackedAddress := by
  refine ⟨rfl, fun s => ⟨_, exec_rts_eq s, keepsEveryByte_of_eq rfl rfl rfl rfl rfl, ?_, rfl⟩⟩
  rw [BitVec.toNat_add, toNat_mkWord]
  rfl

/-- Settles O58: the two bytes RTS pulls are the two JSR pushed. -/
theorem rtsUndoesJsr : Obligations.RtsUndoesJsr := by
  intro s t a hram ht
  obtain ⟨t', ht', hlow, hhigh, -, hstate⟩ := jsrPushesTheReturnAddress.2 s a
  obtain rfl : t = t' := Host.Outcome.next.inj (ht.symm.trans ht')
  have hsp : t.sp = s.sp - 2#8 := by rw [hstate]
  have hsp1 : t.sp + 1#8 = s.sp - 1#8 := by rw [hsp]; bv_omega
  have hsp2 : t.sp + 2#8 = s.sp := by rw [hsp]; exact BitVec.sub_add_cancel _ _
  have hword : mkWord (hiByte (s.pc + 2#16)) (loByte (s.pc + 2#16)) = s.pc + 2#16 := bytes_append _
  refine ⟨_, exec_rts_eq t, ?_, hsp2⟩
  rw [hsp1, hsp2, hlow, hhigh hram, hword, BitVec.add_assoc]
  rfl

/-! RTI and BRK. -/

/-- RTI in one state: `leaveHandler_eq`, and no 1 added to the pulled PC (R132). -/
theorem exec_rti_eq (s : State) :
    let p := s.peek (stackAddr (s.sp + 1#8))
    exec .rti s = .next
      { s with
        n := p.getLsbD 7, v := p.getLsbD 6, b := p.getLsbD 4, d := p.getLsbD 3, i := p.getLsbD 2, z := p.getLsbD 1
        c := p.getLsbD 0, pc := mkWord (s.peek (stackAddr (s.sp + 3#8))) (s.peek (stackAddr (s.sp + 2#8)))
        sp := s.sp + 3#8, cyc := 6
        events :=
          s.events ++
            [.read (stackAddr (s.sp + 1#8)), .read (stackAddr (s.sp + 2#8)), .read (stackAddr (s.sp + 3#8))] } := by
  intro p
  simp only [exec, execRti, leaveHandler_eq]
  rfl

/-- Settles O55: the next state touches nothing that a read depends on, and a word's number is its bytes'. -/
theorem rtiRestoresFlagsAndPc : Obligations.RtiRestoresFlagsAndPc :=
  ⟨rfl, fun s => ⟨_, exec_rti_eq s, keepsEveryByte_of_eq rfl rfl rfl rfl rfl, toNat_mkWord _ _, rfl⟩⟩

/-- A handler is entered with the status byte on the stack, whatever the size of RAM: it is pushed last (R160). -/
theorem peek_enterHandler_status (s : State) (ret vector : Word) (bit4 clearB setI : Bool) :
    (s.enterHandler ret vector bit4 clearB setI).peek (stackAddr (s.sp - 2#8)) = s.packStatus bit4 := by
  have hsp : (s.push16 ret).sp = s.sp - 2#8 := by rw [push16_eq]
  rw [peek_enterHandler_stackAddr, ← hsp, peek_push8_self]

/-- A push lists no byte outside RAM, so the same bytes are plain after it (R62). -/
theorem isPlain_push8 (s : State) (v : Byte) (a : Word) : (s.push8 v).isPlain a = s.isPlain a := by
  unfold State.isPlain
  rw [State.push8_cfg]
  cases hroute : route s.cfg a with
  | ram k => rfl
  | device r => rfl
  | cart r =>
    obtain ⟨rfl, hout⟩ := route_cart hroute
    exact congrArg Option.isSome (lookup_push8 s v (Nat.not_lt.1 hout))

/-- A handler is entered with every plain byte as the three pushes leave it, wherever the vector is (R160). -/
theorem peek_enterHandler_of_plain {s : State} (ret vector : Word) (bit4 clearB setI : Bool) {a : Word}
    (h : s.isPlain a = true) :
    (s.enterHandler ret vector bit4 clearB setI).peek a = ((s.push16 ret).push8 (s.packStatus bit4)).peek a := by
  have hpushed : ((s.push16 ret).push8 (s.packStatus bit4)).isPlain a = true := by
    rw [isPlain_push8, State.push16, isPlain_push8, isPlain_push8, h]
  refine peek_congr_of_plain ?_ ?_ ?_ hpushed <;> simp [State.enterHandler, read16_state]

/-- Entering a handler leaves every plain byte but the three its pushes reach, wherever the vector is (R160). -/
theorem enterHandler_keepsPlainBytesExcept (s : State) (ret vector : Word) (bit4 clearB setI : Bool) :
    KeepsPlainBytesExcept s (s.enterHandler ret vector bit4 clearB setI)
      [stackAddr s.sp, stackAddr (s.sp - 1#8), stackAddr (s.sp - 2#8)] := by
  intro a hne hplain
  have hret : (s.push16 ret).peek a = s.peek a :=
    push16_keepsPlainBytesExcept s ret a (fun b hb => hne b (List.mem_append_left [stackAddr (s.sp - 2#8)] hb)) hplain
  have hstatus : route s.cfg a ≠ route s.cfg (stackAddr (s.push16 ret).sp) := by
    rw [push16_eq]; exact hne _ (by simp)
  rw [peek_enterHandler_of_plain _ _ _ _ _ hplain, peek_push8_of_ne _ hstatus, hret]

/-- Settles O56: BRK enters a handler at the IRQ vector, and `enterHandler_eq` says all that it changes. -/
theorem brkEntersTheIrqHandler : Obligations.BrkEntersTheIrqHandler := by
  refine ⟨rfl, fun s => ⟨_, rfl, ?_, fun hram => ?_, enterHandler_keepsPlainBytesExcept s _ _ _ _ _, ?_⟩⟩
  · rw [peek_enterHandler_status, packStatus_eq_statusByte]
  · obtain ⟨hhigh, hlow, -⟩ := enterHandler_stacked s (s.pc + 2#16) irqVector true false true hram
    exact ⟨hhigh, hlow⟩
  · rw [enterHandler_eq _ (by decide) (by decide)]
    simp [irqVector]

/-! The branches. -/

/-- A branch's target, as a sum of integers: the offset is signed (R79). -/
theorem branchTarget_eq_ofInt (pc : Word) (d : Byte) : branchTarget pc d = BitVec.ofInt 16 (pc.toNat + 2 + d.toInt) := by
  rw [BitVec.ofInt_add, BitVec.ofInt_add]
  simp [branchTarget, sext16, BitVec.signExtend]

/-- An instruction that means `branchInstr` of its condition follows the common branch rule (R134). -/
theorem branchesWhen_of_branchInstr {mk : Byte → Instr} {opcode : Byte} {cond : State → Bool}
    (hencode : ∀ d, encode (mk d) = [opcode, d]) (hexec : ∀ s d, exec (mk d) s = branchInstr (cond s) d s) :
    BranchesWhen mk opcode cond := by
  intro s d
  refine ⟨hencode d, fun htaken => ?_, fun hnot => ?_⟩
  · rw [hexec, htaken]
    simp only [branchInstr, if_true, page_bne_eq_decide, branchTarget_eq_ofInt]
    split
    · next hsame => rw [decide_eq_false (not_not.2 hsame)]; rfl
    · next hother => rw [decide_eq_true hother]; rfl
  · rw [hexec, hnot]; rfl

/-- Settles O57: each of the eight means `branchInstr` of its flag. -/
theorem branchesGoWhereTheirFlagSays : Obligations.BranchesGoWhereTheirFlagSays := by
  refine ⟨?_, ?_, ?_, ?_, ?_, ?_, ?_, ?_⟩ <;>
    exact branchesWhen_of_branchInstr (fun _ => rfl) fun _ _ => rfl

end Sys2Proof.Machine
end

section
/-! The flag instructions (45_flags_misc.md R143 to R149). -/

namespace Sys2Proof.Machine

/-- An instruction of one byte and two cycles whose default end follows `u` (R153): `u`, at the next instruction. -/
theorem exec_eq_of_retire {i : Instr} {s u : State} (hexec : exec i s = .next (u.retire i 0)) (hlen : i.length = 1)
    (hcyc : baseCycles u.cfg i = 2) : exec i s = .next { u with pc := u.pc + 1#16, cyc := 2 } := by
  rw [hexec, State.retire, hlen, hcyc]

/-- Settles O59: `exec_eq_of_retire` of each flag's write, and none touches what a read depends on. -/
theorem flagInstructionsSetTheirFlag : Obligations.FlagInstructionsSetTheirFlag := by
  refine ⟨rfl, rfl, rfl, rfl, rfl, rfl, rfl, fun s => ⟨?_, ?_, ?_, ?_, ?_, ?_, ?_, ?_⟩⟩
  · exact exec_eq_of_retire (u := { s with c := false }) rfl rfl rfl
  · exact exec_eq_of_retire (u := { s with d := false }) rfl rfl rfl
  · exact exec_eq_of_retire (u := { s with i := false }) rfl rfl rfl
  · exact exec_eq_of_retire (u := { s with v := false }) rfl rfl rfl
  · exact exec_eq_of_retire (u := { s with c := true }) rfl rfl rfl
  · exact exec_eq_of_retire (u := { s with d := true }) rfl rfl rfl
  · exact exec_eq_of_retire (u := { s with i := true }) rfl rfl rfl
  · intro i hi t ht
    fin_cases hi <;> (cases ht; exact keepsEveryByte_of_eq rfl rfl rfl rfl rfl)

end Sys2Proof.Machine
end

section
/-! The instruction boundary (60_exceptions.md R152, R157, R158), what NMI and IRQ entry save and change (R160 to R163), and the
cycle count each step returns (70_reset_and_hazards.md R184, R186). -/

namespace Sys2Proof.Machine

/-! The boundary check. -/

/-- A requested reset goes first (R152). -/
theorem action_reset {s : State} (hreset : s.resetPending = true) : s.action = .reset := by
  simp [State.action, hreset]

/-- With no reset requested, a pending NMI is taken, whatever I is (R152, R157). -/
theorem action_nmi {s : State} (hreset : s.resetPending = false) (hnmi : s.nmiPending = true) : s.action = .nmi := by
  simp [State.action, hreset, hnmi]

/-- With neither pending, a pending IRQ is taken if I = 0 (R152). -/
theorem action_irq {s : State} (hreset : s.resetPending = false) (hnmi : s.nmiPending = false)
    (hirq : s.irqPending = true) (hi : s.i = false) : s.action = .irq := by
  simp [State.action, hreset, hnmi, hirq, hi]

/-- With nothing pending, or an IRQ masked by I = 1, an instruction runs (R152, R158). -/
theorem action_instruction {s : State} (hreset : s.resetPending = false) (hnmi : s.nmiPending = false)
    (hirq : s.irqPending = false ∨ s.i = true) : s.action = .instruction := by
  rcases hirq with h | h <;> simp [State.action, hreset, hnmi, h]

/-- Settles O24: the step follows `State.action`, which the four lemmas above give. -/
theorem boundaryPriority : Obligations.BoundaryPriority := by
  intro s
  refine ⟨fun hreset => ?_, fun hreset hnmi => ?_, fun hreset hnmi hirq hi => ?_, fun hreset hnmi hirq => ?_⟩
  · simp only [step, action_reset hreset]
  · simp only [step, action_nmi hreset hnmi]
  · simp only [step, action_irq hreset hnmi hirq hi]
  · simp only [step, action_instruction hreset hnmi hirq]

/-! The masked IRQ. -/

/-- A masked IRQ is held, dropped, or either by the next free choice (R158). -/
theorem maskedIrq_of_masked {s : State} (hirq : s.irqPending = true) (hi : s.i = true) :
    (s.cfg.irqMasked = .held → s.maskedIrq = s) ∧
    (s.cfg.irqMasked = .dropped → s.maskedIrq = { s with irqPending := false }) ∧
    (s.cfg.irqMasked = .either →
      s.maskedIrq = { s with irqPending := !Config.dropMasked s.cfg.world s.draws, draws := s.draws + 1 }) := by
  refine ⟨fun h => ?_, fun h => ?_, fun h => ?_⟩ <;> simp [State.maskedIrq, hirq, hi, h]

/-- A step that runs an instruction ends with the request and the count of free choices that the masked check left: neither the
fetch nor the instruction touches them (R40, R158). -/
theorem step_irqPending_draws {s t : State} (ha : s.action = .instruction) (h : step s = .next t) :
    t.irqPending = s.beginStep.maskedIrq.irqPending ∧ t.draws = s.beginStep.maskedIrq.draws := by
  obtain ⟨hne, -⟩ | ⟨hne, -⟩ | ⟨hne, -⟩ | ⟨-, u, hu, rfl⟩ := step_cases h
  case inr.inr.inr =>
    obtain ⟨-, hirq, -⟩ := exec_keeps_pending hu
    obtain ⟨-, -, hdraws, -⟩ := exec_keeps hu
    obtain ⟨e, hist, hf⟩ := fetch_frame s.beginStep.maskedIrq
    rw [hf] at hirq hdraws
    exact ⟨hirq, hdraws⟩
  all_goals simp [hne] at ha

/-- Settles O32: I = 1 makes the action an instruction, and what the masked check leaves of the request stays. -/
theorem maskedIrqIsHeldOrDropped : Obligations.MaskedIrqIsHeldOrDropped := by
  intro s t hreset hnmi hirq hi h
  have ha := action_instruction hreset hnmi (.inr hi)
  obtain ⟨hpending, hdraws⟩ := step_irqPending_draws ha h
  obtain ⟨hheld, hdropped, heither⟩ := maskedIrq_of_masked (s := s.beginStep) hirq hi
  refine ⟨ha, fun hm => ?_, fun hm => ?_, fun hm => ?_⟩
  · rw [hpending, hheld hm]; exact hirq
  · rw [hpending, hdropped hm]
  · rw [hpending, hdraws, heither hm]; exact ⟨rfl, rfl⟩

/-! NMI and IRQ entry. -/

/-- What entering a handler leaves in memory: the status byte and, with RAM of four bytes or more, the return address on the
stack, and every other plain byte as it was (R160, R161). -/
theorem enterHandler_saves (s : State) (ret vector : Word) (bit4 clearB setI : Bool) :
    let t := s.enterHandler ret vector bit4 clearB setI
    t.peek (stackAddr (s.sp - 2#8)) = s.statusByte bit4 ∧
    (2 ≤ s.cfg.ramBits.val →
      t.peek (stackAddr s.sp) = hiByte ret ∧ t.peek (stackAddr (s.sp - 1#8)) = loByte ret) ∧
    KeepsPlainBytesExcept s t [stackAddr s.sp, stackAddr (s.sp - 1#8), stackAddr (s.sp - 2#8)] := by
  refine ⟨?_, fun hram => ?_, enterHandler_keepsPlainBytesExcept s ret vector bit4 clearB setI⟩
  · rw [peek_enterHandler_status, packStatus_eq_statusByte]
  · obtain ⟨hhigh, hlow, -⟩ := enterHandler_stacked s ret vector bit4 clearB setI hram
    exact ⟨hhigh, hlow⟩

/-- Settles O30: NMI entry enters a handler with its request cleared, and `nmiEntry_eq` says all that it changes. -/
theorem nmiEntrySavesAndVectors : Obligations.NmiEntrySavesAndVectors := by
  intro s
  obtain ⟨hstatus, hret, hkeeps⟩ :=
    enterHandler_saves { s with nmiPending := false } s.pc nmiVector s.entryBit4 true s.cfg.nmiSetsI
  refine ⟨hstatus, hret, hkeeps, ?_⟩
  rw [nmiEntry_eq, Bool.or_comm]
  rfl

/-- Settles O31: IRQ entry enters a handler with its request cleared, and `irqEntry_eq` says all that it changes. -/
theorem irqEntrySavesAndVectors : Obligations.IrqEntrySavesAndVectors := by
  intro s
  obtain ⟨hstatus, hret, hkeeps⟩ :=
    enterHandler_saves { s with irqPending := false } s.pc irqVector s.entryBit4 true true
  refine ⟨hstatus, hret, hkeeps, ?_⟩
  rw [irqEntry_eq]
  rfl

/-! Cycle counts. -/

/-- A reading instruction costs its base and a page cross of its operand, when its effect `f` keeps the parameters (R66, R186). -/
theorem readInstr_cyc {i : Instr} {o : Operand} {f : State → Byte → State} {s t : State}
    (h : readInstr i o f s = .next t) (hf : ∀ u v, (f u v).cfg = u.cfg) :
    t.cyc = baseCycles s.cfg i + (s.operandCrosses o).toNat := by
  rw [readInstr_eq] at h
  cases h
  rw [State.retire_cyc, hf]

/-- A reading instruction in a mode of BIT, CPX or CPY costs its base (R186). -/
theorem readInstr_cyc_of_plainMode {i : Instr} {o : Operand} {f : State → Byte → State} {s t : State}
    (h : readInstr i o f s = .next t) (hf : ∀ u v, (f u v).cfg = u.cfg) (ho : o.has MemMode.isPlainMode = true) :
    t.cyc = baseCycles s.cfg i := by
  rw [readInstr_cyc h hf, operandCrosses_of_plainMode s ho]
  rfl

/-- A storing instruction costs its base (R97 to R99). -/
theorem storeInstr_cyc {i : Instr} {m : MemMode} {v : Byte} {s t : State} (h : storeInstr i m v s = .next t) :
    t.cyc = baseCycles s.cfg i := by
  rw [storeInstr_eq] at h
  cases h; rfl

/-- INC and DEC cost their base (R119, R120). -/
theorem modifyInstr_cyc {i : Instr} {m : MemMode} {f : Byte → Byte} {s t : State} (h : modifyInstr i m f s = .next t) :
    t.cyc = baseCycles s.cfg i := by
  rw [modifyInstr_eq] at h
  cases h; rfl

/-- The shifts and rotates cost their base (R125 to R128). -/
theorem shiftInstr_cyc {i : Instr} {o : ShiftOperand} {f : Byte → Shifted} {s t : State}
    (h : shiftInstr i o f s = .next t) : t.cyc = baseCycles s.cfg i := by
  cases o with
  | acc => cases h; rfl
  | mem m =>
    rw [shiftInstr_mem_eq] at h
    cases h; rfl

/-- A branch costs 2 and its penalty (R134). -/
theorem branchInstr_cyc {cond : Bool} {d : Byte} {s t : State} (h : branchInstr cond d s = .next t) :
    t.cyc = 2 + s.branchPenalty cond d := by
  rw [branchInstr_eq] at h
  cases h; rfl

/-- Every row of the opcode table costs its base and its penalty (R186). -/
theorem exec_cyc {i : Instr} {s t : State} (hwf : i.WellFormed) (h : exec i s = .next t) :
    t.cyc = baseCycles s.cfg i + s.penalty i := by
  cases i
  case lda o | ldx o | ldy o | adc o | sbc o | and o | ora o | eor o | cmp o =>
    simp only [exec, execLda, execLdx, execLdy, execAdc, execSbc, execAnd, execOra, execEor, execCmp] at h
    exact readInstr_cyc h fun _ _ => rfl
  case cpx o | cpy o | bit m =>
    simp only [exec, execCpx, execCpy, execBit] at h
    exact readInstr_cyc_of_plainMode h (fun _ _ => rfl) hwf
  case sta m | stx m | sty m => exact storeInstr_cyc h
  case inc m | dec m => exact modifyInstr_cyc h
  case asl o | lsr o | rol o | ror o => exact shiftInstr_cyc h
  case bcc d | bcs d | beq d | bmi d | bne d | bpl d | bvc d | bvs d => exact branchInstr_cyc h
  case jmp w => cases w <;> (cases h; rfl)
  all_goals (cases h; rfl)

/-- The fetched instruction is a row of the opcode table (R90, R153). -/
theorem wellFormed_fetch (s : State) : s.fetch.1.WellFormed := by
  obtain ⟨b1, b2, hf⟩ := fetch_fst s
  rw [hf]
  exact wellFormed_decodeOp _ b1 b2

/-- Settles O37: the reset and the entries set the count, and what is fetched is a row of the table, which `exec_cyc` is about. -/
theorem stepReturnsItsCycleCount : Obligations.StepReturnsItsCycleCount := by
  intro s t h
  obtain ⟨ha, rfl⟩ | ⟨ha, rfl⟩ | ⟨ha, rfl⟩ | ⟨ha, u, hu, rfl⟩ := step_cases h
  · simp only [ha]; rfl
  · simp only [ha]; rfl
  · simp only [ha]; rfl
  · obtain ⟨-, hcfg, -, -⟩ := fetch_keeps s.beginStep
    simp only [ha]
    rw [State.endStep_cyc, exec_cyc (wellFormed_fetch _) hu, hcfg, State.beginStep_cfg]

end Sys2Proof.Machine
end

section
/-! The end of a run (60_exceptions.md R179): the run of steps alone, boundary by boundary. -/

namespace Sys2Proof.Machine

/-- A run can begin with a step, too, at a boundary that is no end (R179). -/
theorem RunsTo.head {endPc : Option Word} {n : Nat} {s u t : State} (h : RunsTo endPc n u t)
    (go : s.atEnd endPc = false) (hs : Machine.step s = .next u) : RunsTo endPc (n + 1) s t := by
  induction h with
  | refl => exact .step (.refl s) go hs
  | step _ go' hs' ih => exact .step (ih hs) go' hs'
  | host _ act ih => exact .host (ih hs) act

/-- The run of steps alone stops at an end, whatever is left of the budget (R179). -/
theorem runAlone_of_atEnd {endPc : Option Word} {s : State} (h : s.atEnd endPc = true) (budget : Nat) :
    State.runAlone endPc budget s = .next s := by
  cases budget with
  | zero => rfl
  | succ b => rw [State.runAlone, if_pos h]

/-- At a boundary that is no end the run of steps alone goes on from the next one (R179). -/
theorem runAlone_succ {endPc : Option Word} {s u : State} (go : s.atEnd endPc = false) (hs : Machine.step s = .next u)
    (budget : Nat) : State.runAlone endPc (budget + 1) s = State.runAlone endPc budget u := by
  rw [State.runAlone, go, hs]; rfl

/-- The run of steps alone is a run, which has stopped at an end or spent its budget (R179). -/
theorem runAlone_runsTo (endPc : Option Word) (budget : Nat) (s : State) :
    ∃ t, State.runAlone endPc budget s = .next t ∧
      ∃ n ≤ budget, RunsTo endPc n s t ∧ (t.atEnd endPc = false → n = budget) := by
  induction budget generalizing s with
  | zero => exact ⟨s, rfl, 0, le_rfl, .refl s, fun _ => rfl⟩
  | succ b ih =>
    cases hend : s.atEnd endPc with
    | true => exact ⟨s, runAlone_of_atEnd hend _, 0, Nat.zero_le _, .refl s, by simp [hend]⟩
    | false =>
      obtain ⟨u, hu⟩ := everyStepCompletes s
      obtain ⟨t, ht, n, hn, hrun, hspent⟩ := ih u
      exact ⟨t, (runAlone_succ hend hu b).trans ht, n + 1, Nat.succ_le_succ hn, hrun.head hend hu,
        fun hgo => congrArg (· + 1) (hspent hgo)⟩

/-- The run of steps alone ends exactly when one of the boundaries within its budget is an end (R179). -/
theorem runAlone_ended_iff {endPc : Word} {budget : Nat} {s t : State}
    (h : State.runAlone (some endPc) budget s = .next t) :
    t.ended endPc = true ↔ ∃ n ≤ budget, ∃ u, State.runAlone none n s = .next u ∧ u.ended endPc = true := by
  induction budget generalizing s with
  | zero =>
    cases h
    refine ⟨fun hend => ⟨0, le_rfl, _, rfl, hend⟩, fun ⟨n, hn, u, hu, hend⟩ => ?_⟩
    obtain rfl := Nat.le_zero.1 hn
    cases hu; exact hend
  | succ b ih =>
    cases hs : s.ended endPc with
    | true =>
      rw [runAlone_of_atEnd (endPc := some endPc) hs] at h
      cases h
      exact iff_of_true hs ⟨0, Nat.zero_le _, _, rfl, hs⟩
    | false =>
      obtain ⟨v, hv⟩ := everyStepCompletes s
      rw [runAlone_succ (endPc := some endPc) hs hv] at h
      rw [ih h]
      constructor
      · rintro ⟨n, hn, u, hu, hend⟩
        exact ⟨n + 1, Nat.succ_le_succ hn, u, (runAlone_succ rfl hv n).trans hu, hend⟩
      · rintro ⟨n, hn, u, hu, hend⟩
        cases n with
        | zero => cases hu; simp [hs] at hend
        | succ n => exact ⟨n, Nat.le_of_succ_le_succ hn, u, (runAlone_succ rfl hv n).symm.trans hu, hend⟩

/-- A larger budget keeps the end that the run of steps alone has come to (R179). -/
theorem runAlone_of_le {endPc : Option Word} {budget more : Nat} {s t : State} (hle : budget ≤ more)
    (h : State.runAlone endPc budget s = .next t) (hend : t.atEnd endPc = true) :
    State.runAlone endPc more s = .next t := by
  induction budget generalizing s more with
  | zero => cases h; exact runAlone_of_atEnd hend more
  | succ b ih =>
    cases hs : s.atEnd endPc with
    | true =>
      rw [runAlone_of_atEnd hs] at h ⊢
      exact h
    | false =>
      obtain ⟨u, hu⟩ := everyStepCompletes s
      obtain ⟨m, rfl⟩ := Nat.exists_eq_add_of_le' (Nat.one_le_of_lt hle)
      rw [runAlone_succ hs hu] at h ⊢
      exact ih (Nat.le_of_succ_le_succ hle) h

/-- A run that has used its budget either is at an end or has not ended, and not both (R179). -/
theorem RunsTo.ended_or_notEnded {endPc : Word} {budget : Nat} {s t : State} (h : RunsTo (some endPc) budget s t) :
    (t.ended endPc = true ∧ ¬ RunNotEnded budget endPc s t) ∨ (t.ended endPc = false ∧ RunNotEnded budget endPc s t) := by
  cases hend : t.ended endPc with
  | true => exact .inl ⟨rfl, fun ⟨_, hnot⟩ => by simp [hend] at hnot⟩
  | false => exact .inr ⟨rfl, h, hend⟩

/-- Settles O28: the run of steps alone is a run that stops at its first end. -/
theorem runEndsAtEndPcOrSpendsTheBudget : Obligations.RunEndsAtEndPcOrSpendsTheBudget := by
  intro s budget endPc
  obtain ⟨t, ht, n, hn, hrun, hspent⟩ := runAlone_runsTo (some endPc) budget s
  refine ⟨fun _ => RunsTo.ended_or_notEnded, t, ht, ?_, runAlone_ended_iff ht, fun hend more hle =>
    runAlone_of_le hle ht hend⟩
  cases hend : t.ended endPc with
  | true => exact .inl ⟨⟨n, hn, hrun, hend⟩, fun ⟨_, hnot⟩ => by simp [hend] at hnot⟩
  | false =>
    obtain rfl := hspent hend
    exact .inr ⟨⟨hrun, hend⟩, fun ⟨_, _, _, hyes⟩ => by simp [hend] at hyes⟩

end Sys2Proof.Machine
end

section
/-! Reset and the boundary after an instruction (70_reset_and_hazards.md R180, R181, R189). -/

namespace Sys2Proof.Machine

/-- What a two-byte read answers: its high byte is read after its low byte, so it may depend on that read (R14, R51). -/
theorem read16_fst (s : State) (a : Word) : (s.read16 a).1 = mkWord ((s.noteRead a).peek (a + 1#16)) (s.peek a) := rfl

/-- Settles O35: the sequence is one update and the vector's read, which looks at nothing the update changes. -/
theorem resetSequenceLeaves : Obligations.ResetSequenceLeaves := by
  intro s
  simp only [State.resetSequence, read16_state, read16_fst]
  rfl

/-- Power-on, when no cartridge byte is listed: the vector is two draws of the cartridge, which has seen the first read when it
answers the second (R49, R51, R181). -/
theorem powerOn_eq (cfg : Config) :
    State.powerOn cfg =
      { State.blank cfg with
        a := cfg.resetA, x := cfg.resetX, y := cfg.resetY, sp := cfg.resetS, c := cfg.resetC
        z := cfg.resetZ, d := cfg.resetD, v := cfg.resetV, n := cfg.resetN, b := cfg.resetB, i := true
        pc :=
          mkWord (Config.cartRead cfg.world cfg.world [(0, .read 0xFFFC#16)] 0 0xFFFD#16)
            (Config.cartRead cfg.world cfg.world [] 0 0xFFFC#16)
        cyc := cfg.resetCycles, events := [.read 0xFFFC#16, .read 0xFFFD#16]
        history := [(0, .read 0xFFFD#16), (0, .read 0xFFFC#16)] } := by
  have hlow : ¬ (0xFFFC#16).toNat < 0x2000 := by decide
  have hhigh : ¬ (0xFFFD#16).toNat < 0x2000 := by decide
  rw [State.powerOn, State.hostReset, resetSequenceLeaves, peek_of_cart _ (a := 0xFFFC#16) (by decide),
    peek_of_cart _ (a := 0xFFFD#16) (by decide)]
  simp only [State.noteRead_history, historyAfter_of_not_lt _ hlow, historyAfter_of_not_lt _ hhigh]
  rfl

/-- Settles O13: nothing is stored at reset, and `State.reset` is `powerOn_eq` of the default parameters. -/
theorem resetStateIsThePowerOnOfTheDefaults : Obligations.ResetStateIsThePowerOnOfTheDefaults := by
  refine ⟨rfl, ?_⟩
  rw [powerOn_eq]
  rfl

/-- With neither reset nor NMI pending, the boundary check is the IRQ's alone (R152). -/
theorem action_of_no_reset_no_nmi {s : State} (hreset : s.resetPending = false) (hnmi : s.nmiPending = false) :
    s.action = if s.irqPending && !s.i then .irq else .instruction := by
  simp [State.action, hreset, hnmi]

/-- Settles O34: no instruction changes a pending flag, so the next check sees the request as it stood and the new I. -/
theorem interruptDisableTakesEffectAtOnce : Obligations.InterruptDisableTakesEffectAtOnce := by
  refine ⟨fun i s t h hreset hnmi => ?_, fun s => ⟨⟨_, rfl, rfl⟩, _, rfl, rfl⟩⟩
  obtain ⟨tnmi, tirq, treset⟩ := exec_keeps_pending h
  rw [action_of_no_reset_no_nmi (s := t.endStep) (treset.trans hreset) (tnmi.trans hnmi),
    State.endStep_irqPending, tirq, State.endStep_i]

end Sys2Proof.Machine
end
